-- ==== Sys2Proof/Word.lean ====
section
/-! DEFINITION. The word types of the UM7 packet engine (00_scope.md R8): bytes, 16-bit and 32-bit unsigned words and
the four-byte group that a register of the sensor is. -/

namespace Sys2Proof

/-- A byte, `u8` of R8. -/
abbrev Byte := BitVec 8

/-- `u16` of R8. -/
abbrev Word16 := BitVec 16

/-- `u32` of R8. -/
abbrev Word32 := BitVec 32

/-- Exactly four bytes in wire order: the operand `d4` of R74, `CMD_DATA[0..3]` and `FW_VERSION[0..3]` of R10. It is
a byte group and never a number (20_memory.md R48 c, e). -/
structure Bytes4 where
  b0 : Byte
  b1 : Byte
  b2 : Byte
  b3 : Byte
deriving DecidableEq, Repr

end Sys2Proof
end

