-- ==== Sys2Proof/Config.lean ====
section
/-! DEFINITION. The implementation parameters of 00_scope.md R5, their constraints (70_reset_and_hazards.md R219) and
the instance that `State.reset` carries: the values R5 states, and for every parameter R5 marks OPEN an opaque constant. -/

namespace Sys2Proof

/-- One instance's parameters (R5). They are constants of the block, not state (10_state.md R29): `State` carries them
as data so that every claim quantifies over them, and no step writes them (log 10). -/
structure Config where
  /-- `MAX_ATTEMPTS`: bound on the send and receive cycles of one transaction. -/
  maxAttempts : Nat
  /-- `RX_BUF_SIZE`: capacity of the RX buffer and `max_bytes` of every read. -/
  rxBufSize : Nat
  /-- `POLL_LIMIT`: polls of the Byte Source in one receive attempt. -/
  pollLimit : Nat
  /-- `POLL_INTERVAL`: timing only, no rule reads it (log 17). -/
  pollInterval : Nat
  /-- `TX_TERMINATOR`: whether 0x0A follows every transmitted request. -/
  txTerminator : Bool
  /-- `RESCAN_ON_ADDR_MISMATCH`. -/
  rescan : Bool
  /-- `ADDR_HEALTH`. -/
  addrHealth : Byte
  /-- `ADDR_GET_FW_VERSION`. -/
  addrGetFwVersion : Byte
  /-- `ADDR_FACTORY_RESET`. -/
  addrFactoryReset : Byte
  /-- `ADDR_ZERO_GYROS`. -/
  addrZeroGyros : Byte
  /-- `ADDR_SET_HOME_POSITION`. -/
  addrSetHomePosition : Byte
  /-- `ADDR_SET_MAG_REFERENCE`. -/
  addrSetMagReference : Byte
  /-- `ADDR_RESET_EKF`. -/
  addrResetEkf : Byte
  /-- `ADDR_FLASH_COMMIT`. -/
  addrFlashCommit : Byte
  /-- `HB_BIT_GPS`. -/
  hbBitGps : Nat
  /-- `HB_BIT_MAG`. -/
  hbBitMag : Nat
  /-- `HB_BIT_GYRO`. -/
  hbBitGyro : Nat
  /-- `HB_BIT_ACCEL`. -/
  hbBitAccel : Nat
  /-- `HB_BIT_ACC_NORM`. -/
  hbBitAccNorm : Nat
  /-- `HB_BIT_MAG_NORM`. -/
  hbBitMagNorm : Nat
  /-- `HB_BIT_OVF`. -/
  hbBitOvf : Nat
deriving DecidableEq, Repr

/-- The seven flag positions in the source's order (42_heartbeat.md R151). -/
def Config.hbBits (c : Config) : List Nat :=
  [c.hbBitGps, c.hbBitMag, c.hbBitGyro, c.hbBitAccel, c.hbBitAccNorm, c.hbBitMagNorm, c.hbBitOvf]

/-- A position a fault flag may have: a bit of the word outside both satellite counts (R219). -/
abbrev Config.flagBit (b : Nat) : Prop := b < 32 ∧ ¬(10 ≤ b ∧ b ≤ 15) ∧ ¬(26 ≤ b)

/-- R219: the constraints every instance meets. A claim that needs them takes them as a hypothesis (93 U13). -/
abbrev Config.valid (c : Config) : Prop :=
  1 ≤ c.maxAttempts ∧ 67 ≤ c.rxBufSize ∧ 1 ≤ c.pollLimit ∧ c.hbBits.Nodup ∧ ∀ b ∈ c.hbBits, Config.flagBit b

/-- OPEN: by how much `RX_BUF_SIZE` exceeds its least legal value 67 (R5, R219). -/
opaque Config.rxBufSizeBeyondLeast : Nat
/-- OPEN: by how much `POLL_LIMIT` exceeds 1. -/
opaque Config.pollLimitBeyondLeast : Nat
/-- OPEN: `POLL_INTERVAL`. -/
opaque Config.pollIntervalOpen : Nat
/-- OPEN: `ADDR_HEALTH`. -/
opaque Config.addrHealthOpen : Byte
/-- OPEN: `ADDR_GET_FW_VERSION`. -/
opaque Config.addrGetFwVersionOpen : Byte
/-- OPEN: `ADDR_FACTORY_RESET`. -/
opaque Config.addrFactoryResetOpen : Byte
/-- OPEN: `ADDR_SET_HOME_POSITION`. -/
opaque Config.addrSetHomePositionOpen : Byte
/-- OPEN: `ADDR_SET_MAG_REFERENCE`. -/
opaque Config.addrSetMagReferenceOpen : Byte
/-- OPEN: `ADDR_RESET_EKF`. -/
opaque Config.addrResetEkfOpen : Byte
/-- OPEN: `ADDR_FLASH_COMMIT`. -/
opaque Config.addrFlashCommitOpen : Byte

/-- A free value: the byte at an offset of RX_BUF that nothing has written since the reset of this number
(93_implementation_defined.md U1: any value; log 8). -/
opaque Config.freeRxByte (resets offset : Nat) : Byte
/-- A free value: the byte at an offset of TX_BUF that nothing has written since the reset of this number (U1, log 8). -/
opaque Config.freeTxByte (resets offset : Nat) : Byte

/-- This hardware: the values of the table of R5; the OPEN ones stay free. The flag positions but the gyro's are
PRESUMED, taken as the spec does from the vendor's map (log 11). -/
def Config.thisHardware : Config where
  maxAttempts := 100
  rxBufSize := Config.rxBufSizeBeyondLeast + 67
  pollLimit := Config.pollLimitBeyondLeast + 1
  pollInterval := Config.pollIntervalOpen
  txTerminator := true
  rescan := true
  addrHealth := Config.addrHealthOpen
  addrGetFwVersion := Config.addrGetFwVersionOpen
  addrFactoryReset := Config.addrFactoryResetOpen
  addrZeroGyros := 0x55
  addrSetHomePosition := Config.addrSetHomePositionOpen
  addrSetMagReference := Config.addrSetMagReferenceOpen
  addrResetEkf := Config.addrResetEkfOpen
  addrFlashCommit := Config.addrFlashCommitOpen
  hbBitGps := 0
  hbBitMag := 1
  hbBitGyro := 2
  hbBitAccel := 3
  hbBitAccNorm := 4
  hbBitMagNorm := 5
  hbBitOvf := 8

end Sys2Proof
end

