-- ==== Sys2Proof/Syntax.lean ====
section
/-! DEFINITION. The instruction set: the sixteen 4-bit operation codes of 30_encoding.md R75, R76 and one constructor
of `Instr` for every row of spec/opcode_table.json. -/

namespace Sys2Proof

/-- The 4-bit operation code, all sixteen values (R75; 0x0, 0x7 and 0xF are the reserved codes of R76). -/
inductive OpCode where
  | reserved0
  | encode
  | decode
  | decodeHealth
  | recv
  | writeRegister
  | readRegister
  | reserved7
  | getFwVersion
  | factoryReset
  | zeroGyros
  | setHomePosition
  | setMagReference
  | resetEkf
  | flashCommit
  | reservedF
deriving DecidableEq, Repr

/-- Where an instruction comes in: the host's command port (`HOST.issue`, R74) or the inbound line (a frame, R60). -/
inductive Port where
  | host
  | wire
deriving DecidableEq, Repr

/-- The rows of spec/opcode_table.json. A frame carries the free bits of its `packet_type` (R62, R66), its address,
its data and the checksum field as it stands on the wire, right or wrong (R65). A host operation carries its operands
(R75), well formed or not: a malformed operand completes with ILLEGAL_COMMAND (R76) and so is an instruction. -/
inductive Instr where
  /-- FRAME_NODATA, pattern `0bllllrc`. -/
  | frameNodata (isBatch : Bool) (batchLength : BitVec 4) (bit1 cf : Bool) (addr : Byte) (csum : Word16)
  /-- FRAME_SINGLE, pattern `10llllrc`. -/
  | frameSingle (batchLength : BitVec 4) (bit1 cf : Bool) (addr : Byte) (data : Bytes4) (csum : Word16)
  /-- FRAME_BATCH, pattern `11llllrc`. -/
  | frameBatch (batchLength : BitVec 4) (bit1 cf : Bool) (addr : Byte) (data : List Byte) (csum : Word16)
  /-- ENCODE `pt, addr, data` (40_codec.md R95). -/
  | encode (pt addr : Byte) (data : List Byte)
  /-- DECODE `buf, expect` (40_codec.md R101). -/
  | decode (buf : List Byte) (expect : Option Byte)
  /-- DECODE_HEALTH `d4` (42_heartbeat.md R156). -/
  | decodeHealth (d4 : Bytes4)
  /-- RECV (41_transaction.md R141). -/
  | recv
  /-- WRITE_REGISTER `addr, has_data, d4` (41_transaction.md R135). -/
  | writeRegister (addr : Byte) (hasData : Bool) (d4 : Bytes4)
  /-- READ_REGISTER `addr` (41_transaction.md R136). -/
  | readRegister (addr : Byte)
  /-- GET_FW_VERSION (43_facade.md R166). -/
  | getFwVersion
  /-- FACTORY_RESET (43_facade.md R167). -/
  | factoryReset
  /-- ZERO_GYROS (43_facade.md R168). -/
  | zeroGyros
  /-- SET_HOME_POSITION (43_facade.md R169). -/
  | setHomePosition
  /-- SET_MAG_REFERENCE (43_facade.md R170). -/
  | setMagReference
  /-- RESET_EKF (43_facade.md R171). -/
  | resetEkf
  /-- FLASH_COMMIT (43_facade.md R172). -/
  | flashCommit
  /-- RESERVED_0 (30_encoding.md R76). -/
  | reserved0
  /-- RESERVED_7 (30_encoding.md R76). -/
  | reserved7
  /-- RESERVED_F (30_encoding.md R76). -/
  | reservedF
  /-- READ_CONFIG `a`, a pseudo-operation (43_facade.md R173). -/
  | readConfig (addr : Byte)
  /-- POLL_HEALTH, a pseudo-operation (42_heartbeat.md R159). -/
  | pollHealth
deriving DecidableEq, Repr

end Sys2Proof
end

