-- ==== Sys2Proof/WellFormed.lean ====
section
/-! DEFINITION. Which instruction terms have an encoding. Every operand but one is bounded by its type; the one
relation between fields is that a batch frame carries the data its own BATCH_LENGTH calls for (30_encoding.md R64). -/

namespace Sys2Proof

/-- R64 for FRAME_BATCH: `n = 4 x BATCH_LENGTH`. -/
abbrev batchDataFits (batchLength : BitVec 4) (data : List Byte) : Prop :=
  data.length = 4 * batchLength.toNat

/-- The well-formed instructions. The operands of ENCODE and DECODE are not restricted: one of a wrong length is an
operation that completes with ILLEGAL_COMMAND (30_encoding.md R76). -/
def Instr.wellFormed : Instr → Bool
  | .frameNodata _ _ _ _ _ _ => true
  | .frameSingle _ _ _ _ _ _ => true
  | .frameBatch batchLength _ _ _ data _ => decide (batchDataFits batchLength data)
  | .encode _ _ _ => true
  | .decode _ _ => true
  | .decodeHealth _ => true
  | .recv => true
  | .writeRegister _ _ _ => true
  | .readRegister _ => true
  | .getFwVersion => true
  | .factoryReset => true
  | .zeroGyros => true
  | .setHomePosition => true
  | .setMagReference => true
  | .resetEkf => true
  | .flashCommit => true
  | .reserved0 => true
  | .reserved7 => true
  | .reservedF => true
  | .readConfig _ => true
  | .pollHealth => true

end Sys2Proof
end

