-- ==== Sys2Proof/Machine/Operands.lean ====
section
/-! DEFINITION. Operand forms and fields: byte groups and byte order (00_scope.md R8, 20_memory.md R48), the fields of
`packet_type` (30_encoding.md R62), the data length (40_codec.md R90) and the operation codes (30_encoding.md R75). -/

namespace Sys2Proof

/-- The four bytes of a `d4` in wire order. -/
def Bytes4.toList (d : Bytes4) : List Byte := [d.b0, d.b1, d.b2, d.b3]

/-- Four zero bytes. -/
def Bytes4.zero : Bytes4 := ⟨0, 0, 0, 0⟩

/-- The first four bytes of a byte sequence, if it has that many: what R155 and R166 take of a packet's data. -/
def firstFour : List Byte → Option Bytes4
  | a :: b :: c :: d :: _ => some ⟨a, b, c, d⟩
  | _ => none

/-- `BE16(h, l)` (R8). -/
def be16 (h l : Byte) : Word16 := h ++ l

/-- Bits 15:8 of a checksum, the byte sent first (R65). -/
def hiByte (w : Word16) : Byte := w.extractLsb' 8 8

/-- Bits 7:0 of a checksum (R65). -/
def loByte (w : Word16) : Byte := w.extractLsb' 0 8

/-- `BE32(b0, b1, b2, b3)` (R8): `b0` is bits 31:24. -/
def be32 (d : Bytes4) : Word32 := ((d.b0 ++ d.b1) ++ (d.b2 ++ d.b3) : BitVec (8 + 8 + (8 + 8)))

/-- `HAS_DATA(pt) = pt[7]` (R62). -/
def hasData (pt : Byte) : Bool := pt.getLsbD 7

/-- `IS_BATCH(pt) = pt[6]` (R62). -/
def isBatch (pt : Byte) : Bool := pt.getLsbD 6

/-- `BATCH_LENGTH(pt) = pt[5:2]` (R62). -/
def batchLength (pt : Byte) : BitVec 4 := pt.extractLsb' 2 4

/-- The bit the source gives no name and no meaning, `pt[1]` (R62, R69). -/
def bit1 (pt : Byte) : Bool := pt.getLsbD 1

/-- `CF(pt) = pt[0]` (R62). -/
def cf (pt : Byte) : Bool := pt.getLsbD 0

/-- A `packet_type` byte put together from its fields (R62). -/
def packetType (hasData isBatch : Bool) (batchLength : BitVec 4) (bit1 cf : Bool) : Byte :=
  (BitVec.ofBool hasData ++ (BitVec.ofBool isBatch ++ (batchLength ++ (BitVec.ofBool bit1 ++ BitVec.ofBool cf))) :
    BitVec (1 + (1 + (4 + (1 + 1)))))

/-- `DataLength(pt)` (40_codec.md R90). -/
def dataLength (pt : Byte) : Nat :=
  if hasData pt = false then 0
  else if isBatch pt = false then 4
  else 4 * (batchLength pt).toNat

/-- The three bytes of the sync marker (30_encoding.md R61). -/
def marker : List Byte := [0x73, 0x6E, 0x70]

/-- Every frame byte before the data: the five-byte header (R60). -/
def header (pt addr : Byte) : List Byte := marker ++ [pt, addr]

/-- The code of an operation (30_encoding.md R75, R76). -/
def OpCode.toBits : OpCode → BitVec 4
  | .reserved0 => 0x0
  | .encode => 0x1
  | .decode => 0x2
  | .decodeHealth => 0x3
  | .recv => 0x4
  | .writeRegister => 0x5
  | .readRegister => 0x6
  | .reserved7 => 0x7
  | .getFwVersion => 0x8
  | .factoryReset => 0x9
  | .zeroGyros => 0xA
  | .setHomePosition => 0xB
  | .setMagReference => 0xC
  | .resetEkf => 0xD
  | .flashCommit => 0xE
  | .reservedF => 0xF

/-- The operation of a code (30_encoding.md R75, R76): every 4-bit code has one. -/
def OpCode.ofCode : Nat → OpCode
  | 0 => .reserved0
  | 1 => .encode
  | 2 => .decode
  | 3 => .decodeHealth
  | 4 => .recv
  | 5 => .writeRegister
  | 6 => .readRegister
  | 7 => .reserved7
  | 8 => .getFwVersion
  | 9 => .factoryReset
  | 10 => .zeroGyros
  | 11 => .setHomePosition
  | 12 => .setMagReference
  | 13 => .resetEkf
  | 14 => .flashCommit
  | _ => .reservedF

/-- The operations that run a transaction: WRITE_REGISTER, READ_REGISTER and the seven facade operations (R127). -/
def OpCode.isTransaction : OpCode → Bool
  | .writeRegister | .readRegister => true
  | .getFwVersion | .factoryReset | .zeroGyros | .setHomePosition | .setMagReference | .resetEkf | .flashCommit => true
  | .reserved0 | .encode | .decode | .decodeHealth | .recv | .reserved7 | .reservedF => false

end Sys2Proof
end

