-- ==== Sys2Proof/Decode.lean ====
section
/-! DEFINITION. From bytes to instructions and back. A frame's bytes are the wire format of 30_encoding.md R60 to R66.
A host operation is one event, a code and its operands (R74); R74 leaves open how the operands are carried, and the byte
layout used here (code byte, operands in the order of R75, an Option and a bit as a byte 0 or 1 first) is a DESIGN
CHOICE (log 1). -/

namespace Sys2Proof

/-- Why bytes are no instruction. -/
inductive DecodeRefusal where
  /-- an issue event without a single byte -/
  | noBytes
  /-- the first byte is no 4-bit operation code -/
  | notAnOpCode (b : Byte)
  /-- the operand bytes are not as many as the operation's row of R75 has -/
  | operandCount (op : OpCode)
  /-- a byte that carries one bit is neither 0 nor 1 -/
  | operandBit (b : Byte)
  /-- bytes on the line that are not exactly one frame -/
  | notAFrame
deriving DecidableEq, Repr

/-- A byte that carries one bit. -/
def bitOfByte (b : Byte) : Option Bool :=
  if b = 0 then some false else if b = 1 then some true else none

/-- One bit carried as a byte. -/
def byteOfBit (b : Bool) : Byte := if b then 1 else 0

/-- An operation without operands (R75, R76). -/
def decodeBare (i : Instr) (op : OpCode) : List Byte → Except DecodeRefusal Instr
  | [] => .ok i
  | _ :: _ => .error (.operandCount op)

/-- `pt, addr, data` (R95). -/
def decodeEncode : List Byte → Except DecodeRefusal Instr
  | pt :: addr :: data => .ok (.encode pt addr data)
  | _ => .error (.operandCount .encode)

/-- `buf, expect` (R101), `expect` as a valid bit and a byte (R74). -/
def decodeDecode : List Byte → Except DecodeRefusal Instr
  | valid :: a :: buf =>
    match bitOfByte valid with
    | some b => .ok (.decode buf (if b then some a else none))
    | none => .error (.operandBit valid)
  | _ => .error (.operandCount .decode)

/-- `d4` (R156). -/
def decodeDecodeHealth : List Byte → Except DecodeRefusal Instr
  | [b0, b1, b2, b3] => .ok (.decodeHealth ⟨b0, b1, b2, b3⟩)
  | _ => .error (.operandCount .decodeHealth)

/-- `addr, has_data, d4` (R135). -/
def decodeWriteRegister : List Byte → Except DecodeRefusal Instr
  | [addr, hasData, b0, b1, b2, b3] =>
    match bitOfByte hasData with
    | some h => .ok (.writeRegister addr h ⟨b0, b1, b2, b3⟩)
    | none => .error (.operandBit hasData)
  | _ => .error (.operandCount .writeRegister)

/-- `addr` (R136). -/
def decodeReadRegister : List Byte → Except DecodeRefusal Instr
  | [addr] => .ok (.readRegister addr)
  | _ => .error (.operandCount .readRegister)

/-- The operands of an operation (R75). -/
def decodeOperands (operands : List Byte) : OpCode → Except DecodeRefusal Instr
  | .encode => decodeEncode operands
  | .decode => decodeDecode operands
  | .decodeHealth => decodeDecodeHealth operands
  | .writeRegister => decodeWriteRegister operands
  | .readRegister => decodeReadRegister operands
  | .recv => decodeBare .recv .recv operands
  | .getFwVersion => decodeBare .getFwVersion .getFwVersion operands
  | .factoryReset => decodeBare .factoryReset .factoryReset operands
  | .zeroGyros => decodeBare .zeroGyros .zeroGyros operands
  | .setHomePosition => decodeBare .setHomePosition .setHomePosition operands
  | .setMagReference => decodeBare .setMagReference .setMagReference operands
  | .resetEkf => decodeBare .resetEkf .resetEkf operands
  | .flashCommit => decodeBare .flashCommit .flashCommit operands
  | .reserved0 => decodeBare .reserved0 .reserved0 operands
  | .reserved7 => decodeBare .reserved7 .reserved7 operands
  | .reservedF => decodeBare .reservedF .reservedF operands

/-- One issue event at the host's command port (R74). -/
def decodeHost : List Byte → Except DecodeRefusal Instr
  | [] => .error .noBytes
  | op :: operands =>
    if op.toNat < 16 then decodeOperands operands (OpCode.ofCode op.toNat) else .error (.notAnOpCode op)

/-- The frame kind that a `packet_type` selects (R66), over the bytes after the header. -/
def decodeFrameKind (pt addr : Byte) (rest : List Byte) : Except DecodeRefusal Instr :=
  if hasData pt = false then
    match rest with
    | [h, l] => .ok (.frameNodata (isBatch pt) (batchLength pt) (bit1 pt) (cf pt) addr (be16 h l))
    | _ => .error .notAFrame
  else if isBatch pt = false then
    match rest with
    | [b0, b1, b2, b3, h, l] =>
      .ok (.frameSingle (batchLength pt) (bit1 pt) (cf pt) addr ⟨b0, b1, b2, b3⟩ (be16 h l))
    | _ => .error .notAFrame
  else
    match rest.drop (4 * (batchLength pt).toNat) with
    | [h, l] =>
      .ok (.frameBatch (batchLength pt) (bit1 pt) (cf pt) addr (rest.take (4 * (batchLength pt).toNat)) (be16 h l))
    | _ => .error .notAFrame

/-- The bytes of exactly one frame (R60), its checksum field not yet judged. -/
def decodeWire : List Byte → Except DecodeRefusal Instr
  | s0 :: s1 :: s2 :: pt :: addr :: rest =>
    if [s0, s1, s2] = marker then decodeFrameKind pt addr rest else .error .notAFrame
  | _ => .error .notAFrame

/-- The decoder: total on any bytes. -/
def decode : Port → List Byte → Except DecodeRefusal Instr
  | .host, bytes => decodeHost bytes
  | .wire, bytes => decodeWire bytes

/-- The port an instruction comes in at. -/
def Instr.port : Instr → Port
  | .frameNodata _ _ _ _ _ _ | .frameSingle _ _ _ _ _ _ | .frameBatch _ _ _ _ _ _ => .wire
  | .encode _ _ _ | .decode _ _ | .decodeHealth _ | .recv | .writeRegister _ _ _ | .readRegister _ => .host
  | .getFwVersion | .factoryReset | .zeroGyros | .setHomePosition | .setMagReference | .resetEkf | .flashCommit => .host
  | .reserved0 | .reserved7 | .reservedF => .host
  | .readConfig _ | .pollHealth => .host

/-- A pseudo-operation is another operation (R79 c, d); every other instruction is itself (log 20). -/
def Instr.core (c : Config) : Instr → Instr
  | .readConfig a => .readRegister a
  | .pollHealth => .readRegister c.addrHealth
  | i => i

/-- The byte that carries an operation code. -/
def OpCode.toByte (op : OpCode) : Byte := op.toBits.setWidth 8

/-- The bytes of a frame with this header, data and checksum field (R60, R65). -/
def frameBytes (pt addr : Byte) (data : List Byte) (csum : Word16) : List Byte :=
  header pt addr ++ data ++ [hiByte csum, loByte csum]

/-- The bytes of an instruction; a pseudo-operation has those of the operation it is. -/
def encode (c : Config) : Instr → List Byte
  | .frameNodata b l r f addr csum => frameBytes (packetType false b l r f) addr [] csum
  | .frameSingle l r f addr data csum => frameBytes (packetType true false l r f) addr data.toList csum
  | .frameBatch l r f addr data csum => frameBytes (packetType true true l r f) addr data csum
  | .encode pt addr data => OpCode.encode.toByte :: pt :: addr :: data
  | .decode buf (some a) => OpCode.decode.toByte :: byteOfBit true :: a :: buf
  | .decode buf none => OpCode.decode.toByte :: byteOfBit false :: 0 :: buf
  | .decodeHealth d4 => OpCode.decodeHealth.toByte :: d4.toList
  | .recv => [OpCode.recv.toByte]
  | .writeRegister addr h d4 => OpCode.writeRegister.toByte :: addr :: byteOfBit h :: d4.toList
  | .readRegister addr => [OpCode.readRegister.toByte, addr]
  | .getFwVersion => [OpCode.getFwVersion.toByte]
  | .factoryReset => [OpCode.factoryReset.toByte]
  | .zeroGyros => [OpCode.zeroGyros.toByte]
  | .setHomePosition => [OpCode.setHomePosition.toByte]
  | .setMagReference => [OpCode.setMagReference.toByte]
  | .resetEkf => [OpCode.resetEkf.toByte]
  | .flashCommit => [OpCode.flashCommit.toByte]
  | .reserved0 => [OpCode.reserved0.toByte]
  | .reserved7 => [OpCode.reserved7.toByte]
  | .reservedF => [OpCode.reservedF.toByte]
  | .readConfig a => [OpCode.readRegister.toByte, a]
  | .pollHealth => [OpCode.readRegister.toByte, c.addrHealth]

/-- How many operand bytes an operation's shortest issue event has. -/
def OpCode.operandBytes : OpCode → Nat
  | .encode | .decode => 2
  | .decodeHealth => 4
  | .writeRegister => 6
  | .readRegister => 1
  | .recv | .getFwVersion | .factoryReset | .zeroGyros | .setHomePosition | .setMagReference | .resetEkf
  | .flashCommit | .reserved0 | .reserved7 | .reservedF => 0

/-- A word of spec/opcode_table.json. The table numbers two separate code spaces over the same small values: 4-bit
operation codes and 8-bit `packet_type` bytes. A word below 16 is an operation code, any other byte a `packet_type`
(log 2). -/
inductive TableWord where
  | operation (bytes : List Byte)
  | frame (bytes : List Byte)
  | noRow
deriving DecidableEq, Repr

/-- The bytes of a table word, every operand bit zero. -/
def tableWord (nbits w : Nat) : TableWord :=
  if nbits ≤ 8 ∧ w < 256 then
    if w < 16 then .operation (BitVec.ofNat 8 w :: List.replicate (OpCode.ofCode w).operandBytes 0)
    else .frame (header (BitVec.ofNat 8 w) 0 ++ List.replicate (dataLength (BitVec.ofNat 8 w) + 2) 0)
  else .noRow

/-- The instruction that a decoding answers. -/
def decoded : Except DecodeRefusal Instr → Option Instr
  | .ok i => some i
  | .error _ => none

/-- The instruction the decoder reads from a table word. -/
def decodeTableWord (nbits w : Nat) : Option Instr :=
  match tableWord nbits w with
  | .operation bytes => decoded (decode .host bytes)
  | .frame bytes => decoded (decode .wire bytes)
  | .noRow => none

end Sys2Proof
end

