-- ==== Sys2Proof/Machine/State.lean ====
section
/-! DEFINITION. The state of the machine as plain data: the registers of ENGINE (10_state.md R10), the world outside it
that ENGINE sees only through requests and events (10_state.md R28), and the parameters (00_scope.md R5). -/

namespace Sys2Proof.Machine

/-- `PHASE` (10_state.md R12): IDLE, or one of the three stages of an attempt. -/
inductive Phase where
  | idle
  | send
  | recv
  | check
deriving DecidableEq, Repr

/-- The result codes that STATUS and LAST_ERR hold (30_encoding.md R77); 0xE and 0xF are never produced (log 23). -/
inductive ResultCode where
  /-- NONE, 0x0 -/
  | noCode
  /-- OK, 0x1 -/
  | ok
  /-- TOO_SHORT, 0x2 -/
  | tooShort
  /-- NO_SYNC, 0x3 -/
  | noSync
  /-- TRUNCATED, 0x4 -/
  | truncated
  /-- ADDRESS_MISMATCH, 0x5 -/
  | addressMismatch
  /-- BAD_CHECKSUM, 0x6 -/
  | badChecksum
  /-- TIMEOUT, 0x7 -/
  | timeout
  /-- NO_RESPONSE, 0x8 -/
  | noResponse
  /-- COMMAND_FAILED, 0x9 -/
  | commandFailed
  /-- IO_ERROR, 0xA -/
  | ioError
  /-- MALFORMED_RESPONSE, 0xB -/
  | malformedResponse
  /-- ILLEGAL_COMMAND, 0xC -/
  | illegalCommand
  /-- BUSY_REJECT, 0xD: answered to the issuer, never stored -/
  | busyReject
deriving DecidableEq, Repr

/-- `DecodeError` of 40_codec.md R97. -/
inductive DecodeError where
  | tooShort
  | noSync
  | truncated
  | addressMismatch
  | badChecksum
deriving DecidableEq, Repr

/-- A *Packet* value (40_codec.md R93). -/
structure Packet where
  ptype : Byte
  address : Byte
  data : List Byte
  csum : Word16
deriving DecidableEq, Repr

/-- A byte-addressed buffer (20_memory.md R40): the (offset, byte) cells written since reset, offsets strictly rising. An
offset that is not listed holds a free value, the contents after reset being unspecified (10_state.md R27, log 8). -/
abbrev Memory := List Host.Cell

/-- The canonical form of a buffer: offsets strictly rise. What an unlisted offset reads as is a free value, so no listed
byte can be told to equal it, and a written offset stays listed (log 8). -/
abbrev Memory.wf (m : Memory) : Prop := m.Pairwise (fun c d => c.1 < d.1)

/-- The architectural state of ENGINE: the elements of 10_state.md R10. Where a valid bit guards a register, the two
are one Option, so that a register without a value holds none (R25, log 9): PKT_VALID with PKT_TYPE, PKT_ADDR, PKT_DATA
and PKT_CSUM is `pkt`, HB_VALID with HB_WORD is `hb`, FW_VALID with FW_VERSION is `fw`. -/
structure Engine where
  /-- PHASE -/
  phase : Phase
  /-- CMD_OP -/
  cmdOp : OpCode
  /-- CMD_ADDR -/
  cmdAddr : Byte
  /-- CMD_HAS_DATA -/
  cmdHasData : Bool
  /-- CMD_DATA[0..3] -/
  cmdData : Bytes4
  /-- ATTEMPTS -/
  attempts : Nat
  /-- RX_BUF -/
  rxBuf : Memory
  /-- RX_LEN -/
  rxLen : Nat
  /-- TX_BUF -/
  txBuf : Memory
  /-- TX_LEN -/
  txLen : Nat
  /-- PKT_VALID, PKT_TYPE, PKT_ADDR, PKT_DATA, PKT_CSUM -/
  pkt : Option Packet
  /-- STATUS -/
  status : ResultCode
  /-- LAST_ERR -/
  lastErr : ResultCode
  /-- HB_VALID, HB_WORD -/
  hb : Option Word32
  /-- FW_VALID, FW_VERSION[0..3] -/
  fw : Option Bytes4
  /-- The model's own: how many resets there have been, which numbers the free contents of the buffers (log 8). -/
  resets : Nat
deriving DecidableEq, Repr

/-- How the Byte Source will answer a `BS.write` (20_memory.md R44): it takes at most so many bytes, or fails. -/
inductive WriteAnswer where
  | upTo (count : Nat)
  | failure
deriving DecidableEq, Repr

/-- How the Byte Source will answer a `BS.read` (20_memory.md R45): it hands over at most so many of the bytes that
wait, or fails. -/
inductive ReadAnswer where
  | upTo (count : Nat)
  | failure
deriving DecidableEq, Repr

/-- BYTE_SOURCE (00_scope.md R7): the two byte streams (20_memory.md R40) and the oracle's next answers (R47). None of
it is ENGINE state (10_state.md R28). -/
structure ByteSource where
  /-- bytes on their way to ENGINE that no read has taken yet, in order -/
  inbound : List Byte
  /-- every byte that a `BS.write` reported as appended, in order -/
  outbound : List Byte
  /-- the answers to the next writes; none left: the Byte Source has not answered yet (log 15) -/
  writeAnswers : List WriteAnswer
  /-- the answers to the next reads -/
  readAnswers : List ReadAnswer
deriving DecidableEq, Repr

/-- What the agents do next. The list of inputs in State is the order in which they act (log 3). -/
inductive Input where
  /-- HOST.issue (30_encoding.md R74), at once (`now`) or as soon as BUSY = 0 -/
  | issue (now : Bool) (bytes : List Byte)
  /-- bytes come in on the line -/
  | arrive (bytes : List Byte)
  /-- reset is asserted (70_reset_and_hazards.md R215) -/
  | assertReset
  /-- ENGINE takes a step -/
  | turn
deriving DecidableEq, Repr

/-- What the issuer of the last operation was told (41_transaction.md R121, R122): not ENGINE state (log 19). -/
inductive HostAnswer where
  | noIssue
  | accepted
  | refused (code : ResultCode)
deriving DecidableEq, Repr

/-- The world outside ENGINE: what will happen, what the host was told, and the Byte Source. -/
structure Env where
  inputs : List Input
  answer : HostAnswer
  bs : ByteSource
deriving DecidableEq, Repr

/-- The machine: the instance's parameters, which no step writes (10_state.md R29), ENGINE, and the world outside. -/
structure State where
  cfg : Config
  eng : Engine
  env : Env
deriving DecidableEq, Repr

/-- The faults. No state that a run from reset reaches raises one. -/
inductive Fault where
  /-- Raised by a store into or a load from TX_BUF outside its 68 bytes (20_memory.md R42). Safe: the machine stops where
  the spec gives no byte. -/
  | txBufAccess
  /-- Raised by a store into or a load from RX_BUF outside its RX_BUF_SIZE bytes (20_memory.md R40, R41). Safe. -/
  | rxBufAccess
  /-- Raised by ENGINE in PHASE = CHECK when CMD_OP is neither RECV nor a transaction: no rule is enabled
  (41_transaction.md R127, R142; log 13). Safe. -/
  | noStepEnabled
deriving DecidableEq, Repr

/-- The refusals. -/
inductive Refusal where
  /-- Raised by no arm of this model: every instruction has its meaning. Safe. -/
  | notModelled (mnemonic : String)
  /-- Raised by the step when the bytes of an issue event carry no operation in the model's own layout of operands
  (log 1, log 16): no HOST.issue of the hardware corresponds to them. Safe. -/
  | notAnOperation (why : DecodeRefusal)
deriving DecidableEq, Repr

/-- One step's outcome. -/
abbrev Result := Host.Outcome State Fault Refusal

/-- ENGINE after reset (10_state.md R27, 70_reset_and_hazards.md R215). CMD_ADDR, CMD_HAS_DATA and CMD_DATA are
unspecified there; zero is the model's DESIGN CHOICE (log 7). So are the contents of the buffers: no cell is listed, and
every offset holds a free value (log 8). -/
def Engine.reset : Engine where
  phase := .idle
  cmdOp := .reserved0
  cmdAddr := 0
  cmdHasData := false
  cmdData := ⟨0, 0, 0, 0⟩
  attempts := 0
  rxBuf := []
  rxLen := 0
  txBuf := []
  txLen := 0
  pkt := none
  status := .noCode
  lastErr := .noCode
  hb := none
  fw := none
  resets := 0

/-- A Byte Source with nothing waiting and no answer given. -/
def ByteSource.quiet : ByteSource where
  inbound := []
  outbound := []
  writeAnswers := []
  readAnswers := []

/-- The machine right after reset, with nothing placed outside ENGINE (log 3). -/
def State.reset : State where
  cfg := Config.thisHardware
  eng := Engine.reset
  env := ⟨[], .noIssue, ByteSource.quiet⟩

end Sys2Proof.Machine
end

