-- ==== Sys2Proof/Machine/Codec.lean ====
section
/-! DEFINITION. The packet codec's pure functions (40_codec.md R90 to R97): every operation calls these. -/

namespace Sys2Proof.Machine

/-- The sum of bytes in an unsigned 16-bit accumulator, each byte zero-extended (R91). -/
def byteSum : List Byte → Word16
  | [] => 0
  | b :: bs => b.setWidth 16 + byteSum bs

/-- `Checksum(pt, addr, data)` (R91): the sum of every frame byte before the checksum field. -/
def checksum (pt addr : Byte) (data : List Byte) : Word16 := byteSum (header pt addr ++ data)

/-- `Encode(pt, addr, data)` (R94), without the terminator. -/
def encodeFrame (pt addr : Byte) (data : List Byte) : List Byte :=
  frameBytes pt addr data (checksum pt addr data)

/-- R93: structurally valid, the data length is the one `packet_type` calls for. -/
abbrev structurallyValid (pt : Byte) (data : List Byte) : Prop := data.length = dataLength pt

/-- R93: well-formed, the checksum is right too. -/
abbrev Packet.wellFormed (p : Packet) : Prop :=
  structurallyValid p.ptype p.data ∧ p.csum = checksum p.ptype p.address p.data

/-- The marker stands at the front of these bytes (R61, R96). -/
def markerAt : List Byte → Bool
  | a :: b :: c :: _ => [a, b, c] == marker
  | _ => false

/-- `FindSync` over the bytes that remain, the first of them at offset `o` (R96). -/
def findSyncFrom : List Byte → Nat → Option Nat
  | [], _ => none
  | b :: rest, o => if markerAt (b :: rest) then some o else findSyncFrom rest (o + 1)

/-- `FindSync(buf, start)` (R96): the smallest offset from `start` on at which the marker stands. -/
def findSync (buf : List Byte) (start : Nat) : Option Nat := findSyncFrom (buf.drop start) start

/-- What one candidate comes to: the call ends, or the candidate is passed over for its address. -/
inductive Candidate where
  | ends (r : Except DecodeError Packet)
  | otherAddress

/-- Steps 3 to 8 of `Decode` for the candidate whose bytes, marker first, are `cand = buf[o..)` (R97). Each byte is read
after the length check that guards it (20_memory.md R41), so no default of `getD` is ever taken. -/
def tryCandidate (expect : Option Byte) (cand : List Byte) : Candidate :=
  if cand.length < 7 then .ends (.error .truncated)
  else
    let pt := cand.getD 3 0
    let n := dataLength pt
    if cand.length < n + 7 then .ends (.error .truncated)
    else
      let addr := cand.getD 4 0
      if expect ≠ none ∧ expect ≠ some addr then .otherAddress
      else
        let data := (cand.drop 5).take n
        let w := be16 (cand.getD (n + 5) 0) (cand.getD (n + 6) 0)
        if checksum pt addr data = w then .ends (.ok ⟨pt, addr, data, w⟩) else .ends (.error .badChecksum)

/-- The loop of `Decode` (R97) over the bytes that remain, `start` being the offset of the first of them. The offset
rises by one until the marker stands there; after a candidate is passed over the scan goes on at the next byte, if
RESCAN_ON_ADDR_MISMATCH (R99). -/
def scan (rescan : Bool) (expect : Option Byte) : List Byte → Bool → Except DecodeError Packet
  | [], mismatchSeen => .error (if mismatchSeen then .addressMismatch else .noSync)
  | b :: rest, mismatchSeen =>
    if markerAt (b :: rest) then
      match tryCandidate expect (b :: rest) with
      | .ends r => r
      | .otherAddress => if rescan then scan rescan expect rest true else .error .addressMismatch
    else scan rescan expect rest mismatchSeen

/-- `Decode(buf, expect)` (R97). -/
def decodeFrame (rescan : Bool) (buf : List Byte) (expect : Option Byte) : Except DecodeError Packet :=
  if buf.length < 7 then .error .tooShort else scan rescan expect buf false

/-- `BuildRequest(addr, has_data, d4)` (41_transaction.md R123). -/
def buildRequest (txTerminator : Bool) (addr : Byte) (hasData : Bool) (d4 : Bytes4) : List Byte :=
  encodeFrame (if hasData then 0x80 else 0x00) addr (if hasData then d4.toList else [])
    ++ (if txTerminator then [0x0A] else [])

/-- The code of a decode error (30_encoding.md R77). -/
def DecodeError.code : DecodeError → ResultCode
  | .tooShort => .tooShort
  | .noSync => .noSync
  | .truncated => .truncated
  | .addressMismatch => .addressMismatch
  | .badChecksum => .badChecksum

/-- The number of a result code (30_encoding.md R77). -/
def ResultCode.toBits : ResultCode → BitVec 4
  | .noCode => 0x0
  | .ok => 0x1
  | .tooShort => 0x2
  | .noSync => 0x3
  | .truncated => 0x4
  | .addressMismatch => 0x5
  | .badChecksum => 0x6
  | .timeout => 0x7
  | .noResponse => 0x8
  | .commandFailed => 0x9
  | .ioError => 0xA
  | .malformedResponse => 0xB
  | .illegalCommand => 0xC
  | .busyReject => 0xD

end Sys2Proof.Machine
end

