-- ==== Sys2Proof/Machine/Flags.lean ====
section
/-! DEFINITION. The flags (10_state.md R21): BUSY, the three valid bits, the CF bit, and the heartbeat view with its
seven fault flags and two satellite counts (42_heartbeat.md R150 to R154). There are no arithmetic condition codes. -/

namespace Sys2Proof.Machine

/-- `BUSY = (PHASE != IDLE)` (10_state.md R20). -/
def Engine.busy (e : Engine) : Bool := e.phase != .idle

/-- PKT_VALID (R17). -/
def Engine.pktValid (e : Engine) : Bool := e.pkt.isSome

/-- HB_VALID (R22). -/
def Engine.hbValid (e : Engine) : Bool := e.hb.isSome

/-- FW_VALID (R24). -/
def Engine.fwValid (e : Engine) : Bool := e.fw.isSome

/-- The CF bit of a packet (30_encoding.md R62). -/
def Packet.cf (p : Packet) : Bool := Sys2Proof.cf p.ptype

/-- The *Heartbeat* of 42_heartbeat.md R150. -/
structure Heartbeat where
  gpsTimeout : Bool
  magFail : Bool
  gyroFail : Bool
  accelFail : Bool
  accelNorm : Bool
  magNorm : Bool
  uartOverflow : Bool
  satellitesInView : Byte
  satellitesUsed : Byte
deriving DecidableEq, Repr

/-- The nine fields of a health word (R150 to R152): each flag is the bit at its HB_BIT_* position, the counts are bits
15:10 and 31:26, zero-extended. Other bits change nothing (R154). -/
def heartbeatView (c : Config) (w : Word32) : Heartbeat where
  gpsTimeout := w.getLsbD c.hbBitGps
  magFail := w.getLsbD c.hbBitMag
  gyroFail := w.getLsbD c.hbBitGyro
  accelFail := w.getLsbD c.hbBitAccel
  accelNorm := w.getLsbD c.hbBitAccNorm
  magNorm := w.getLsbD c.hbBitMagNorm
  uartOverflow := w.getLsbD c.hbBitOvf
  satellitesInView := (w.extractLsb' 10 6).setWidth 8
  satellitesUsed := (w.extractLsb' 26 6).setWidth 8

/-- `DecodeHealth(d)` (R150). -/
def decodeHealthWord (c : Config) (d : Bytes4) : Heartbeat := heartbeatView c (be32 d)

end Sys2Proof.Machine
end

