-- ==== Sys2Proof/Machine/Ops.lean ====
section
/-! DEFINITION. The named operations over buffers, streams and registers that every meaning is made of: buffer access
(20_memory.md R41, R42), the Byte Source's two requests and the receive attempt (R44 to R46), completion (60_exceptions.md
R200, the block's one form of exception entry), CommitPacket (40_codec.md R102), acceptance and refusal
(41_transaction.md R121, R122, R124, R140), and fail_attempt and finish_ok (R128, R129). There is no return from an
exception (60_exceptions.md R202): after a completion the next issue is accepted. -/

namespace Sys2Proof.Machine

/-! ## Buffers -/

/-- The size of TX_BUF (20_memory.md R42). -/
def txBufSize : Nat := 68

/-- The byte written at an offset, if one was. -/
def Memory.find : Memory → Nat → Option Byte
  | [], _ => none
  | (a, v) :: m, i => if a = i then some v else Memory.find m i

/-- Reads one byte; an offset that nothing has written holds its free value (log 8). -/
def Memory.read (free : Nat → Byte) (m : Memory) (i : Nat) : Byte := (Memory.find m i).getD (free i)

/-- Writes one byte, keeping the offsets rising. -/
def Memory.write : Memory → Nat → Byte → Memory
  | [], i, v => [(i, v)]
  | (a, b) :: m, i, v =>
    if i < a then (i, v) :: (a, b) :: m
    else if i = a then (i, v) :: m
    else (a, b) :: Memory.write m i v

/-- Writes bytes at consecutive offsets from `i` on. DESIGN CHOICE (log 28): every other offset keeps its byte, also at
and above the new length, where 93_implementation_defined.md U1 allows any value. -/
def Memory.writeBytes (m : Memory) (i : Nat) : List Byte → Memory
  | [] => m
  | b :: bs => Memory.writeBytes (Memory.write m i b) (i + 1) bs

/-- Reads `n` bytes from offset `i` on. -/
def Memory.readBytes (free : Nat → Byte) (m : Memory) (i : Nat) : Nat → List Byte
  | 0 => []
  | n + 1 => Memory.read free m i :: Memory.readBytes free m (i + 1) n

/-- Stores bytes at offsets 0 and up of a buffer of `size` bytes; none if they do not fit. The bytes beyond those stored
are kept (DESIGN CHOICE, log 28). -/
def storeBytes (size : Nat) (m : Memory) (bytes : List Byte) : Option Memory :=
  if bytes.length ≤ size then some (Memory.writeBytes m 0 bytes) else none

/-- Loads the bytes at offsets 0 to `n - 1` of a buffer of `size` bytes; none if it has not that many. -/
def loadBytes (size : Nat) (free : Nat → Byte) (m : Memory) (n : Nat) : Option (List Byte) :=
  if n ≤ size then some (Memory.readBytes free m 0 n) else none

/-- `RX_BUF[i]`. -/
def rxByte (e : Engine) (i : Nat) : Byte := Memory.read (Config.freeRxByte e.resets) e.rxBuf i

/-- `TX_BUF[i]`. -/
def txByte (e : Engine) (i : Nat) : Byte := Memory.read (Config.freeTxByte e.resets) e.txBuf i

/-- `for i: TXB[i] <- f[i]; TX_LEN <- len(f)` (40_codec.md R95, 41_transaction.md R124). The bytes at and
above TX_LEN are kept (DESIGN CHOICE, log 28). -/
def storeTx (bytes : List Byte) (e : Engine) : Option Engine :=
  (storeBytes txBufSize e.txBuf bytes).map (fun m => { e with txBuf := m, txLen := bytes.length })

/-- `for i: RX_BUF[i] <- b[i]; RX_LEN <- len(b)` (40_codec.md R101, 41_transaction.md R126). The bytes at and
above RX_LEN are kept (DESIGN CHOICE, log 28). -/
def storeRx (c : Config) (bytes : List Byte) (e : Engine) : Option Engine :=
  (storeBytes c.rxBufSize e.rxBuf bytes).map (fun m => { e with rxBuf := m, rxLen := bytes.length })

/-- `TX_BUF[0 .. TX_LEN)`. -/
def loadTx (e : Engine) : Option (List Byte) :=
  loadBytes txBufSize (Config.freeTxByte e.resets) e.txBuf e.txLen

/-- `RX_BUF[0 .. RX_LEN)`. -/
def loadRx (c : Config) (e : Engine) : Option (List Byte) :=
  loadBytes c.rxBufSize (Config.freeRxByte e.resets) e.rxBuf e.rxLen

/-! ## The Byte Source -/

/-- The answer to a `BS.write` (20_memory.md R44). -/
inductive WriteResult where
  | count (c : Nat)
  | failure
deriving DecidableEq, Repr

/-- The answer to a `BS.read` (20_memory.md R45). -/
inductive ReadResult where
  | bytes (b : List Byte)
  | failure
deriving DecidableEq, Repr

/-- `BS.write(bytes)` (R44): the count never exceeds the bytes handed over, and that many are appended to the outbound
stream. None: not answered yet (log 15). A failure appends nothing to what was reported (log 6). -/
def ByteSource.write (bytes : List Byte) (b : ByteSource) : Option (WriteResult × ByteSource) :=
  match b.writeAnswers with
  | [] => none
  | .failure :: later => some (.failure, { b with writeAnswers := later })
  | .upTo k :: later =>
    some (.count (min k bytes.length), { b with writeAnswers := later, outbound := b.outbound ++ bytes.take k })

/-- `BS.read(max)` (R45): at most `max` bytes, removed from the front of the inbound stream. R45 does not say what a
Failure does to the bytes that wait; DESIGN CHOICE: it takes none and loses none (log 27). -/
def ByteSource.read (max : Nat) (b : ByteSource) : Option (ReadResult × ByteSource) :=
  match b.readAnswers with
  | [] => none
  | .failure :: later => some (.failure, { b with readAnswers := later })
  | .upTo k :: later =>
    some (.bytes (b.inbound.take (min k max)),
      { b with readAnswers := later, inbound := b.inbound.drop (min k max) })

/-- The result of a receive attempt (R46). -/
inductive RxResult where
  | bytes (b : List Byte)
  | timeout
  | ioError
deriving DecidableEq, Repr

/-- `RxAttempt()` (R46) with so many polls left: the first non-empty read ends the wait, an empty one is the would-block
state and polls again, and the polls running out is a Timeout. None: the Byte Source has not answered yet. -/
def rxAttempt (max : Nat) : Nat → ByteSource → Option (RxResult × ByteSource)
  | 0, b => some (.timeout, b)
  | polls + 1, b =>
    match ByteSource.read max b with
    | none => none
    | some (.failure, b') => some (.ioError, b')
    | some (.bytes [], b') => rxAttempt max polls b'
    | some (.bytes (x :: xs), b') => some (.bytes (x :: xs), b')

/-! ## State access -/

/-- The state with another ENGINE. -/
def State.withEng (s : State) (e : Engine) : State := { s with eng := e }

/-- The state with another list of inputs. -/
def State.withInputs (s : State) (l : List Input) : State := { s with env := { s.env with inputs := l } }

/-- The state with another Byte Source. -/
def State.withBs (s : State) (b : ByteSource) : State := { s with env := { s.env with bs := b } }

/-- The state with another answer to the issuer. -/
def State.withAnswer (s : State) (a : HostAnswer) : State := { s with env := { s.env with answer := a } }

/-! ## Completion and commit -/

/-- `complete(code)` (60_exceptions.md R200): STATUS and PHASE and nothing more. -/
def complete (code : ResultCode) (e : Engine) : Engine := { e with status := code, phase := .idle }

/-- `HealthUpdate(p)` (42_heartbeat.md R155). -/
def healthUpdate (c : Config) (p : Packet) (e : Engine) : Engine :=
  match firstFour p.data with
  | some d => if p.address = c.addrHealth ∧ p.cf = false then { e with hb := some (be32 d) } else e
  | none => e

/-- `CommitPacket(p)` (40_codec.md R102): the one place a validated packet enters the state. -/
def commitPacket (c : Config) (p : Packet) (e : Engine) : Engine := healthUpdate c p { e with pkt := some p }

/-- `fw_post(p)` (43_facade.md R166). -/
def fwPost (p : Packet) (e : Engine) : Engine :=
  match firstFour p.data with
  | some d => complete .ok { e with fw := some d }
  | none => complete .malformedResponse e

/-- `finish_ok(p)` (41_transaction.md R129). -/
def finishOk (p : Packet) (e : Engine) : Engine :=
  if e.cmdOp = .getFwVersion then fwPost p e else complete .ok e

/-- `fail_attempt(code)` (41_transaction.md R128). -/
def failAttempt (c : Config) (code : ResultCode) (e : Engine) : Engine :=
  if e.cmdOp = .recv then complete code { e with lastErr := code }
  else if e.attempts = c.maxAttempts then complete .noResponse { e with lastErr := code }
  else { e with lastErr := code, phase := .send }

/-! ## Acceptance and refusal -/

/-- R122: an issue while BUSY changes no ENGINE state; the issuer is answered BUSY_REJECT. -/
def busyReject (s : State) : State := s.withAnswer (.refused .busyReject)

/-- R121: acceptance writes CMD_OP; the issuer learns that the operation was taken. -/
def latchOp (op : OpCode) (s : State) : State :=
  (s.withEng { s.eng with cmdOp := op }).withAnswer .accepted

/-- `HOST.issue` of an operation (R121, R122): refused while BUSY, else accepted, the operation's first step being
`first`. -/
def issue (op : OpCode) (first : State → Result) (s : State) : Result :=
  if s.eng.phase = .idle then first (latchOp op s) else .next (busyReject s)

/-- A single-step operation that completes with a code and does nothing else (R196). -/
def completeOnly (code : ResultCode) (s : State) : Result := .next (s.withEng (complete code s.eng))

/-- The registers that accepting a transaction writes besides the TX buffer (R124). CMD_DATA is kept when there are no
data; FW_VALID is cleared by GET_FW_VERSION only. -/
def latchTransaction (addr : Byte) (hasData : Bool) (d4 : Bytes4) (e : Engine) : Engine :=
  { e with
    cmdAddr := addr
    cmdHasData := hasData
    cmdData := if hasData then d4 else e.cmdData
    attempts := 0
    pkt := none
    status := .noCode
    lastErr := .noCode
    fw := if e.cmdOp = .getFwVersion then none else e.fw
    phase := .send }

/-- `accept_transaction(addr, has_data, d4)` (R124). -/
def acceptTransaction (addr : Byte) (hasData : Bool) (d4 : Bytes4) (s : State) : Result :=
  match storeTx (buildRequest s.cfg.txTerminator addr hasData d4) s.eng with
  | some e => .next (s.withEng (latchTransaction addr hasData d4 e))
  | none => .fault .txBufAccess

/-- A facade operation's first step (43_facade.md R165): `accept_transaction(ADDR_x, 0, -)`. -/
def acceptFacade (addr : Byte) (s : State) : Result := acceptTransaction addr false Bytes4.zero s

/-- Accepting RECV (R140): nothing is sent. -/
def acceptRecv (s : State) : Result :=
  .next (s.withEng { s.eng with pkt := none, status := .noCode, lastErr := .noCode, phase := .recv })

/-- Bytes come in on the line and wait in the inbound stream until a receive attempt reads them (20_memory.md R40, R47,
60_exceptions.md R204). -/
def lineIn (bytes : List Byte) (s : State) : State :=
  s.withBs { s.env.bs with inbound := s.env.bs.inbound ++ bytes }

/-- Reset (70_reset_and_hazards.md R215, R217): every ENGINE register at its reset value, at any time and in any phase;
the parameters, the Byte Source and what the host will do next are not touched. The buffers' contents are free anew
(log 8). -/
def assertReset (s : State) : State := s.withEng { Engine.reset with resets := s.eng.resets + 1 }

end Sys2Proof.Machine
end

