-- ==== Sys2Proof/Machine/CodecOps.lean ====
section
/-! DEFINITION. The two codec operations, ENCODE (40_codec.md R95) and DECODE (R101), both single-step. -/

namespace Sys2Proof.Machine

/-- The one step of ENCODE once accepted (R95). -/
def encodeStep (pt addr : Byte) (data : List Byte) (s : State) : Result :=
  if data.length ≠ dataLength pt then completeOnly .illegalCommand s
  else
    match storeTx (encodeFrame pt addr data) s.eng with
    | some e => .next (s.withEng (complete .ok e))
    | none => .fault .txBufAccess

/-- ENCODE `pt, addr, data` (R95). -/
def execEncode (pt addr : Byte) (data : List Byte) (s : State) : Result :=
  issue .encode (encodeStep pt addr data) s

/-- The end of DECODE, the buffer loaded: commit, or no valid packet (R101). -/
def settleDecode (c : Config) (r : Except DecodeError Packet) (e : Engine) : Engine :=
  match r with
  | .ok p => complete .ok (commitPacket c p e)
  | .error err => complete err.code { e with pkt := none }

/-- The one step of DECODE once accepted (R101). -/
def decodeStep (buf : List Byte) (expect : Option Byte) (s : State) : Result :=
  if s.cfg.rxBufSize < buf.length then completeOnly .illegalCommand s
  else
    match storeRx s.cfg buf s.eng with
    | some e => .next (s.withEng (settleDecode s.cfg (decodeFrame s.cfg.rescan buf expect) e))
    | none => .fault .rxBufAccess

/-- DECODE `buf, expect` (R101). -/
def execDecode (buf : List Byte) (expect : Option Byte) (s : State) : Result :=
  issue .decode (decodeStep buf expect) s

end Sys2Proof.Machine
end

