-- ==== Sys2Proof/Machine/Facade.lean ====
section
/-! DEFINITION. The seven named commands (43_facade.md R165 to R172): each a transaction without data at the register
number that its parameter gives. -/

namespace Sys2Proof.Machine

/-- GET_FW_VERSION (R166): acceptance clears FW_VALID; the post-processing is in `finishOk`. -/
def execGetFwVersion (s : State) : Result := issue .getFwVersion (acceptFacade s.cfg.addrGetFwVersion) s

/-- FACTORY_RESET (R167): a request to the sensor; it does not reset the block. -/
def execFactoryReset (s : State) : Result := issue .factoryReset (acceptFacade s.cfg.addrFactoryReset) s

/-- ZERO_GYROS (R168). -/
def execZeroGyros (s : State) : Result := issue .zeroGyros (acceptFacade s.cfg.addrZeroGyros) s

/-- SET_HOME_POSITION (R169). -/
def execSetHomePosition (s : State) : Result := issue .setHomePosition (acceptFacade s.cfg.addrSetHomePosition) s

/-- SET_MAG_REFERENCE (R170). -/
def execSetMagReference (s : State) : Result := issue .setMagReference (acceptFacade s.cfg.addrSetMagReference) s

/-- RESET_EKF (R171). -/
def execResetEkf (s : State) : Result := issue .resetEkf (acceptFacade s.cfg.addrResetEkf) s

/-- FLASH_COMMIT (R172). -/
def execFlashCommit (s : State) : Result := issue .flashCommit (acceptFacade s.cfg.addrFlashCommit) s

end Sys2Proof.Machine
end

