-- ==== Sys2Proof/Machine/Heartbeat.lean ====
section
/-! DEFINITION. The heartbeat operation DECODE_HEALTH (42_heartbeat.md R156). -/

namespace Sys2Proof.Machine

/-- The one step of DECODE_HEALTH once accepted (R156). -/
def decodeHealthStep (d4 : Bytes4) (s : State) : Result :=
  .next (s.withEng (complete .ok { s.eng with hb := some (be32 d4) }))

/-- DECODE_HEALTH `d4` (R156). -/
def execDecodeHealth (d4 : Bytes4) (s : State) : Result := issue .decodeHealth (decodeHealthStep d4) s

end Sys2Proof.Machine
end

