-- ==== Sys2Proof/Machine/Pseudo.lean ====
section
/-! DEFINITION. The pseudo-operations (30_encoding.md R79): each is READ_REGISTER with its code, having none of its own. -/

namespace Sys2Proof.Machine

/-- READ_CONFIG `a` is READ_REGISTER `a` (43_facade.md R173). -/
def execReadConfig (addr : Byte) (s : State) : Result :=
  issue .readRegister (acceptTransaction addr false Bytes4.zero) s

/-- POLL_HEALTH is READ_REGISTER ADDR_HEALTH (42_heartbeat.md R159). -/
def execPollHealth (s : State) : Result :=
  issue .readRegister (acceptTransaction s.cfg.addrHealth false Bytes4.zero) s

end Sys2Proof.Machine
end

