-- ==== Sys2Proof/Machine/Reserved.lean ====
section
/-! DEFINITION. The reserved codes (30_encoding.md R76, 60_exceptions.md R196): issued to an idle ENGINE they complete at
once with ILLEGAL_COMMAND, CMD_OP records the code and nothing else changes. -/

namespace Sys2Proof.Machine

/-- RESERVED_0 (R76). -/
def execReserved0 (s : State) : Result := issue .reserved0 (completeOnly .illegalCommand) s

/-- RESERVED_7 (R76). -/
def execReserved7 (s : State) : Result := issue .reserved7 (completeOnly .illegalCommand) s

/-- RESERVED_F (R76). -/
def execReservedF (s : State) : Result := issue .reservedF (completeOnly .illegalCommand) s

end Sys2Proof.Machine
end

