-- ==== Sys2Proof/Machine/Transaction.lean ====
section
/-! DEFINITION. The operations of the transaction engine: the acceptance steps of RECV (41_transaction.md R140),
WRITE_REGISTER and READ_REGISTER (R124, R135, R136). The steps that follow are ENGINE's own (Machine/Stages.lean). -/

namespace Sys2Proof.Machine

/-- RECV (R140, R141). -/
def execRecv (s : State) : Result := issue .recv acceptRecv s

/-- WRITE_REGISTER `addr, has_data, d4` (R135); `d4` is ignored when `has_data` = 0. -/
def execWriteRegister (addr : Byte) (hasData : Bool) (d4 : Bytes4) (s : State) : Result :=
  issue .writeRegister (acceptTransaction addr hasData d4) s

/-- READ_REGISTER `addr` (R136): a write-shaped command with no payload. -/
def execReadRegister (addr : Byte) (s : State) : Result :=
  issue .readRegister (acceptTransaction addr false Bytes4.zero) s

end Sys2Proof.Machine
end

