-- ==== Sys2Proof/Machine/Wire.lean ====
section
/-! DEFINITION. The three wire frame kinds (30_encoding.md R66). A frame on the line does nothing to ENGINE by itself:
its bytes wait in the Byte Source until a receive attempt reads them (60_exceptions.md R204, 20_memory.md R47). What
ENGINE then makes of them is `decodeFrame` in the CHECK step (log 4). -/

namespace Sys2Proof.Machine

/-- A FRAME_NODATA comes in: seven bytes. -/
def execFrameNodata (isBatch : Bool) (batchLength : BitVec 4) (bit1 cf : Bool) (addr : Byte) (csum : Word16)
    (s : State) : Result :=
  .next (lineIn (frameBytes (packetType false isBatch batchLength bit1 cf) addr [] csum) s)

/-- A FRAME_SINGLE comes in: eleven bytes. -/
def execFrameSingle (batchLength : BitVec 4) (bit1 cf : Bool) (addr : Byte) (data : Bytes4) (csum : Word16)
    (s : State) : Result :=
  .next (lineIn (frameBytes (packetType true false batchLength bit1 cf) addr data.toList csum) s)

/-- A FRAME_BATCH comes in: `7 + 4 x BATCH_LENGTH` bytes. -/
def execFrameBatch (batchLength : BitVec 4) (bit1 cf : Bool) (addr : Byte) (data : List Byte) (csum : Word16)
    (s : State) : Result :=
  .next (lineIn (frameBytes (packetType true true batchLength bit1 cf) addr data csum) s)

end Sys2Proof.Machine
end

