-- ==== Sys2Proof/Machine/Dispatch.lean ====
section
/-! DEFINITION. The meaning of every instruction, one arm per row of spec/opcode_table.json. -/

namespace Sys2Proof.Machine

def exec (i : Instr) (s : State) : Host.Outcome State Fault Refusal :=
  match i with
  | .frameNodata b l r f addr csum => Sys2Proof.Machine.execFrameNodata b l r f addr csum s
  | .frameSingle l r f addr data csum => Sys2Proof.Machine.execFrameSingle l r f addr data csum s
  | .frameBatch l r f addr data csum => Sys2Proof.Machine.execFrameBatch l r f addr data csum s
  | .encode pt addr data => Sys2Proof.Machine.execEncode pt addr data s
  | .decode buf expect => Sys2Proof.Machine.execDecode buf expect s
  | .decodeHealth d4 => Sys2Proof.Machine.execDecodeHealth d4 s
  | .recv => Sys2Proof.Machine.execRecv s
  | .writeRegister addr hasData d4 => Sys2Proof.Machine.execWriteRegister addr hasData d4 s
  | .readRegister addr => Sys2Proof.Machine.execReadRegister addr s
  | .getFwVersion => Sys2Proof.Machine.execGetFwVersion s
  | .factoryReset => Sys2Proof.Machine.execFactoryReset s
  | .zeroGyros => Sys2Proof.Machine.execZeroGyros s
  | .setHomePosition => Sys2Proof.Machine.execSetHomePosition s
  | .setMagReference => Sys2Proof.Machine.execSetMagReference s
  | .resetEkf => Sys2Proof.Machine.execResetEkf s
  | .flashCommit => Sys2Proof.Machine.execFlashCommit s
  | .reserved0 => Sys2Proof.Machine.execReserved0 s
  | .reserved7 => Sys2Proof.Machine.execReserved7 s
  | .reservedF => Sys2Proof.Machine.execReservedF s
  | .readConfig addr => Sys2Proof.Machine.execReadConfig addr s
  | .pollHealth => Sys2Proof.Machine.execPollHealth s

end Sys2Proof.Machine
end

