-- ==== Sys2Proof/Machine/Fetch.lean ====
section
/-! DEFINITION. Taking the next input: whose move it is, and which instruction its bytes are. The block fetches no
instructions (10_state.md R12): an operation is one event at the host's port (30_encoding.md R74), a frame one arrival
on the line. The order of the agents' moves is the order of the list of inputs; with none left ENGINE moves (log 3). -/

namespace Sys2Proof.Machine

/-- What the next move is, with the state it is made in. -/
inductive Move where
  | run (i : Instr) (s : State)
  | line (bytes : List Byte) (s : State)
  | noOperation (why : DecodeRefusal) (s : State)
  | reset (s : State)
  | engine (s : State)

/-- An issue event's operation. -/
def moveOfIssue (bytes : List Byte) (s : State) : Move :=
  match decode .host bytes with
  | .ok i => .run i s
  | .error why => .noOperation why s

/-- What comes in on the line: exactly one frame, or any other bytes (20_memory.md R47). -/
def moveOfArrival (bytes : List Byte) (s : State) : Move :=
  match decode .wire bytes with
  | .ok i => .run i s
  | .error _ => .line bytes s

/-- The next move. A host that waits for BUSY = 0 lets ENGINE move until then; every other input is taken off the
list. -/
def nextMove (s : State) : Move :=
  match s.env.inputs with
  | [] => .engine s
  | .turn :: later => .engine (s.withInputs later)
  | .assertReset :: later => .reset (s.withInputs later)
  | .arrive bytes :: later => moveOfArrival bytes (s.withInputs later)
  | .issue now bytes :: later =>
    if now = true ∨ s.eng.phase = .idle then moveOfIssue bytes (s.withInputs later) else .engine s

end Sys2Proof.Machine
end

