-- ==== Sys2Proof/Machine/Stages.lean ====
section
/-! DEFINITION. The steps ENGINE takes by itself in the three stages of an attempt: SEND (41_transaction.md R125), RECV
(R126) and CHECK (R127, R142). -/

namespace Sys2Proof.Machine

/-- What SEND makes of the answer to its write (R125). -/
def settleSend (sent : Nat) (r : WriteResult) (e : Engine) : Engine :=
  if r = .count sent then { e with phase := .recv } else complete .ioError e

/-- Step SEND (R125). Until the Byte Source answers the write the step has not been taken (R134, log 15). -/
def stepSend (s : State) : Result :=
  match loadTx s.eng with
  | none => .fault .txBufAccess
  | some request =>
    match ByteSource.write request s.env.bs with
    | none => .next s
    | some (r, b) =>
      .next ((s.withBs b).withEng (settleSend s.eng.txLen r { s.eng with attempts := s.eng.attempts + 1 }))

/-- Step RECV (R126), for transactions and for the RECV operation. -/
def stepRecv (s : State) : Result :=
  match rxAttempt s.cfg.rxBufSize s.cfg.pollLimit s.env.bs with
  | none => .next s
  | some (.ioError, b) => .next ((s.withBs b).withEng (complete .ioError s.eng))
  | some (.timeout, b) => .next ((s.withBs b).withEng (failAttempt s.cfg .timeout { s.eng with rxLen := 0 }))
  | some (.bytes bytes, b) =>
    match storeRx s.cfg bytes s.eng with
    | some e => .next ((s.withBs b).withEng { e with phase := .check })
    | none => .fault .rxBufAccess

/-- What CHECK makes of `Decode`'s answer in a transaction (R127). -/
def settleTransaction (c : Config) (r : Except DecodeError Packet) (e : Engine) : Engine :=
  match r with
  | .ok p =>
    if p.cf then complete .commandFailed (commitPacket c p e) else finishOk p (commitPacket c p e)
  | .error err => failAttempt c err.code e

/-- What CHECK makes of `Decode`'s answer in RECV (R142). -/
def settleRecv (c : Config) (r : Except DecodeError Packet) (e : Engine) : Engine :=
  match r with
  | .ok p => complete .ok (commitPacket c p e)
  | .error err => failAttempt c err.code e

/-- Step CHECK (R127 for a transaction, R142 for RECV). With any other CMD_OP no rule is enabled (log 13). -/
def stepCheck (s : State) : Result :=
  match loadRx s.cfg s.eng with
  | none => .fault .rxBufAccess
  | some buf =>
    if s.eng.cmdOp = .recv then
      .next (s.withEng (settleRecv s.cfg (decodeFrame s.cfg.rescan buf none) s.eng))
    else if s.eng.cmdOp.isTransaction then
      .next (s.withEng (settleTransaction s.cfg (decodeFrame s.cfg.rescan buf (some s.eng.cmdAddr)) s.eng))
    else .fault .noStepEnabled

/-- One ENGINE step. An idle block waits for an issue (60_exceptions.md R209). -/
def engineStep (s : State) : Result :=
  match s.eng.phase with
  | .idle => .next s
  | .send => stepSend s
  | .recv => stepRecv s
  | .check => stepCheck s

end Sys2Proof.Machine
end

