-- ==== Sys2Proof/Machine/Step.lean ====
section
/-! DEFINITION. One step of the machine: one move of HOST, of the line or of ENGINE. -/

namespace Sys2Proof.Machine

/-- One step (00_scope.md R7): the next move is made. -/
def step (s : State) : Host.Outcome State Fault Refusal :=
  match nextMove s with
  | .run i t => exec i t
  | .line bytes t => .next (lineIn bytes t)
  | .noOperation why _ => .refused (.notAnOperation why)
  | .reset t => .next (assertReset t)
  | .engine t => engineStep t

/-- The state in which the instruction of a table word is the very next input: an operation issued at once, or a frame
that comes in (log 3). -/
def State.withFetchWord (s : State) (nbits w : Nat) : State :=
  match tableWord nbits w with
  | .operation bytes => s.withInputs (.issue true bytes :: s.env.inputs)
  | .frame bytes => s.withInputs (.arrive bytes :: s.env.inputs)
  | .noRow => s

end Sys2Proof.Machine
end

