-- ==== Sys2Proof/Machine/HostView.lean ====
section
/-! DEFINITION. What HOST sees when it reads a register (10_state.md R23, R25, R26). Reading is no operation and has no
side effect (20_memory.md R50 b), so it is a function of the state and not an instruction (log 18). -/

namespace Sys2Proof.Machine

/-- The names a host can read by: the elements of R10, BUSY, and the nine fields of the heartbeat view (R23). -/
inductive HostReg where
  | busy
  | phase
  | cmdOp
  | cmdAddr
  | cmdHasData
  | cmdData (i : Fin 4)
  | attempts
  | rxLen
  | rxBuf (i : Nat)
  | txLen
  | txBuf (i : Nat)
  | pktValid
  | pktType
  | pktAddr
  | pktData (i : Fin 60)
  | pktCsum
  | status
  | lastErr
  | hbValid
  | hbWord
  | gpsTimeout
  | magFail
  | gyroFail
  | accelFail
  | accelNorm
  | magNorm
  | uartOverflow
  | satellitesInView
  | satellitesUsed
  | fwValid
  | fwVersion (i : Fin 4)
deriving DecidableEq, Repr

/-- What a register holds. -/
inductive HostValue where
  | flag (b : Bool)
  | byte (b : Byte)
  | half (w : Word16)
  | word (w : Word32)
  | count (n : Nat)
  | phase (p : Phase)
  | op (o : OpCode)
  | code (c : ResultCode)
deriving DecidableEq, Repr

/-- What a read answers. -/
inductive HostRead where
  /-- the register holds this -/
  | value (v : HostValue)
  /-- the register holds no value: the host's error (R25) -/
  | noValue
  /-- any value may be read: of every register but BUSY while BUSY = 1 (R26, 93 U3), and of a byte of PKT_DATA at and
  above DataLength(PKT_TYPE), which has no meaning (R18, 93 U1) -/
  | unreliable
  /-- the host cannot read this element (R26) -/
  | notReadable
deriving DecidableEq, Repr

/-- A read of a register guarded by a valid bit. -/
def readGuarded {α : Type} (f : α → HostValue) : Option α → HostRead
  | some x => .value (f x)
  | none => .noValue

/-- Byte `i` of a four-byte group. -/
def Bytes4.byte (d : Bytes4) (i : Fin 4) : Byte := d.toList.getD i.val 0

/-- `PKT_DATA[i]` of a valid packet: one of its data bytes, or a byte without a meaning (R18). -/
def packetDataRead (p : Packet) (i : Nat) : HostRead :=
  match p.data[i]? with
  | some b => .value (.byte b)
  | none => .unreliable

/-- What an element holds. -/
def elementRead (c : Config) (e : Engine) : HostReg → HostRead
  | .busy => .value (.flag e.busy)
  | .phase => .value (.phase e.phase)
  | .cmdOp => .value (.op e.cmdOp)
  | .cmdAddr => .value (.byte e.cmdAddr)
  | .cmdHasData => .value (.flag e.cmdHasData)
  | .cmdData i => .value (.byte (Bytes4.byte e.cmdData i))
  | .attempts => .value (.count e.attempts)
  | .rxLen => .value (.count e.rxLen)
  | .rxBuf i => .value (.byte (rxByte e i))
  | .txLen => .value (.count e.txLen)
  | .txBuf i => .value (.byte (txByte e i))
  | .pktValid => .value (.flag e.pktValid)
  | .pktType => readGuarded (fun p => .byte p.ptype) e.pkt
  | .pktAddr => readGuarded (fun p => .byte p.address) e.pkt
  | .pktData i =>
    match e.pkt with
    | some p => packetDataRead p i
    | none => .noValue
  | .pktCsum => readGuarded (fun p => .half p.csum) e.pkt
  | .status => .value (.code e.status)
  | .lastErr => .value (.code e.lastErr)
  | .hbValid => .value (.flag e.hbValid)
  | .hbWord => readGuarded .word e.hb
  | .gpsTimeout => readGuarded (fun w => .flag (heartbeatView c w).gpsTimeout) e.hb
  | .magFail => readGuarded (fun w => .flag (heartbeatView c w).magFail) e.hb
  | .gyroFail => readGuarded (fun w => .flag (heartbeatView c w).gyroFail) e.hb
  | .accelFail => readGuarded (fun w => .flag (heartbeatView c w).accelFail) e.hb
  | .accelNorm => readGuarded (fun w => .flag (heartbeatView c w).accelNorm) e.hb
  | .magNorm => readGuarded (fun w => .flag (heartbeatView c w).magNorm) e.hb
  | .uartOverflow => readGuarded (fun w => .flag (heartbeatView c w).uartOverflow) e.hb
  | .satellitesInView => readGuarded (fun w => .byte (heartbeatView c w).satellitesInView) e.hb
  | .satellitesUsed => readGuarded (fun w => .byte (heartbeatView c w).satellitesUsed) e.hb
  | .fwValid => .value (.flag e.fwValid)
  | .fwVersion i => readGuarded (fun d => .byte (Bytes4.byte d i)) e.fw

/-- The access rights (R26): the host can read every element but RX_BUF, RX_LEN, TX_BUF and TX_LEN; after ENCODE
completes it can read `TX_BUF[0 .. TX_LEN)`, the result.
DESIGN CHOICE (log 26): R26 and 20_memory.md R40 do not say whether an ENCODE that completed with ILLEGAL_COMMAND
counts, nor whether a later operation that leaves TX_BUF alone ends the right; here TX_BUF can be read only while the
last accepted operation is an ENCODE that completed with OK. -/
def HostReg.readable (e : Engine) : HostReg → Bool
  | .rxLen | .rxBuf _ | .txLen => false
  | .txBuf i => e.phase = .idle ∧ e.cmdOp = .encode ∧ e.status = .ok ∧ i < e.txLen
  | _ => true

/-- A host read (R26): BUSY always; everything else the host can rely on only while `BUSY = 0`. -/
def hostRead (r : HostReg) (s : State) : HostRead :=
  if HostReg.readable s.eng r = false then .notReadable
  else if r ≠ .busy ∧ s.eng.busy = true then .unreliable
  else elementRead s.cfg s.eng r

end Sys2Proof.Machine
end

