-- ==== Sys2Proof/Machine/Transact.lean ====
section
/-! DEFINITION. A transaction and a RECV each as one function of the Byte Source's answers (41_transaction.md R132,
R141), the spec's second form of the stage machine. The step does not use them: that the two forms agree is a claim. -/

namespace Sys2Proof.Machine

/-- What a transaction ends with (R132). -/
structure TransactResult where
  code : ResultCode
  attempts : Nat
  response : Option Packet
deriving DecidableEq, Repr

/-- `Transact` (R132) with `left` attempts still permitted, `k` made, and the Byte Source as it stands. None: the Byte
Source has not answered. -/
def transactFrom (c : Config) (addr : Byte) (request : List Byte) :
    Nat → Nat → ByteSource → Option (TransactResult × ByteSource)
  | 0, k, b => some (⟨.noResponse, k, none⟩, b)
  | left + 1, k, b =>
    match ByteSource.write request b with
    | none => none
    | some (w, b1) =>
      if w = .count request.length then
        match rxAttempt c.rxBufSize c.pollLimit b1 with
        | none => none
        | some (.ioError, b2) => some (⟨.ioError, k + 1, none⟩, b2)
        | some (.timeout, b2) => transactFrom c addr request left (k + 1) b2
        | some (.bytes bytes, b2) =>
          match decodeFrame c.rescan bytes (some addr) with
          | .error _ => transactFrom c addr request left (k + 1) b2
          | .ok p => some (⟨if p.cf then .commandFailed else .ok, k + 1, some p⟩, b2)
      else some (⟨.ioError, k + 1, none⟩, b1)

/-- `Transact(addr, has_data, d4, W, X)` (R132). -/
def transact (c : Config) (addr : Byte) (hasData : Bool) (d4 : Bytes4) (b : ByteSource) :
    Option (TransactResult × ByteSource) :=
  transactFrom c addr (buildRequest c.txTerminator addr hasData d4) c.maxAttempts 0 b

/-- The status a transaction's result is reported with: GET_FW_VERSION reports a response with fewer than four data
bytes as MALFORMED_RESPONSE (43_facade.md R166), every other operation the result's own code. -/
def finalCode (op : OpCode) (r : TransactResult) : ResultCode :=
  match r.code, r.response with
  | .ok, some p => if op = .getFwVersion ∧ p.data.length < 4 then .malformedResponse else .ok
  | code, _ => code

/-- `Recv(X)` (R141): the code, and the packet if there is one. -/
def recvResult (c : Config) : RxResult → ResultCode × Option Packet
  | .ioError => (.ioError, none)
  | .timeout => (.timeout, none)
  | .bytes bytes =>
    match decodeFrame c.rescan bytes none with
    | .ok p => (.ok, some p)
    | .error e => (e.code, none)

end Sys2Proof.Machine
end

