-- ==== Sys2Proof/Safety.lean ====
section
/-! DEFINITION. The terms claims use: what a run is, what a store into a buffer leaves, and the invariant of the
machine, which rules out its faults. -/

namespace Sys2Proof.Machine

/-- `n` steps, ending at the first fault or refusal. -/
def run : Nat → State → Result
  | 0, s => .next s
  | n + 1, s =>
    match step s with
    | .next t => run n t
    | .fault f => .fault f
    | .refused r => .refused r

/-- An accepted operation's next state: this ENGINE, the issuer told that it was accepted, nothing else. -/
abbrev afterAccept (s : State) (e : Engine) : State := { s with eng := e, env := { s.env with answer := .accepted } }

/-- What a store of `bytes` at offset 0 leaves, one byte at a time: the offsets below the stored length read as the
bytes stored, every other offset reads as before. That it does so at and above the stored length too is the model's
choice, the spec allowing any value there (93_implementation_defined.md U1, log 28). A buffer is given by its reads,
`rxByte e` or `txByte e`. -/
abbrev storedAtZero (before after : Nat → Byte) (bytes : List Byte) : Prop :=
  ∀ a, after a = bytes.getD a (before a)

/-- The heartbeat register after a packet is committed (42_heartbeat.md R155). -/
def hbAfter (c : Config) (p : Packet) (old : Option Word32) : Option Word32 :=
  if p.address = c.addrHealth ∧ 4 ≤ p.data.length ∧ p.ptype.getLsbD 0 = false then
    some (be32 ⟨p.data.getD 0 0, p.data.getD 1 0, p.data.getD 2 0, p.data.getD 3 0⟩)
  else old

/-- The marker stands at offset `o` of a buffer (40_codec.md R96). -/
abbrev markerStandsAt (buf : List Byte) (o : Nat) : Prop :=
  buf[o]? = some 0x73 ∧ buf[o + 1]? = some 0x6E ∧ buf[o + 2]? = some 0x70

/-- A buffer in canonical form, inside its size, with every byte below its length written, so that no load reads an
unspecified byte (20_memory.md R40 to R42, 93_implementation_defined.md U1). -/
abbrev bufferOk (size : Nat) (m : Memory) (len : Nat) : Prop :=
  Memory.wf m ∧ len ≤ size ∧ (∀ cell ∈ m, cell.1 < size) ∧ ∀ i < len, (Memory.find m i).isSome = true

/-- The codes a failed receive attempt can have (41_transaction.md R128). -/
def receiveFailures : List ResultCode :=
  [.timeout, .tooShort, .noSync, .truncated, .addressMismatch, .badChecksum]

/-- The request of the running transaction stands in the TX buffer (41_transaction.md R124, R125). -/
abbrev requestLoaded (c : Config) (e : Engine) : Prop :=
  loadTx e = some (buildRequest c.txTerminator e.cmdAddr e.cmdHasData e.cmdData)

/-- What holds of every ENGINE state a run from reset reaches. -/
structure Engine.Inv (c : Config) (e : Engine) : Prop where
  /-- 10_state.md R15, 20_memory.md R41 -/
  rx : bufferOk c.rxBufSize e.rxBuf e.rxLen
  /-- 10_state.md R16, 20_memory.md R42 -/
  tx : bufferOk txBufSize e.txBuf e.txLen
  /-- 10_state.md R14 -/
  attempts : e.attempts ≤ c.maxAttempts
  /-- 10_state.md R18, 40_codec.md R93 -/
  packet : ∀ p ∈ e.pkt, p.wellFormed
  /-- 10_state.md R19, 41_transaction.md R124, R140: while an operation runs there is no code and no packet -/
  running : e.phase ≠ .idle → e.status = .noCode ∧ e.pkt = none
  /-- 41_transaction.md R124, R125, R128: SEND belongs to a transaction with an attempt left -/
  sending : e.phase = .send → e.cmdOp.isTransaction = true ∧ e.attempts < c.maxAttempts ∧ requestLoaded c e
  /-- 41_transaction.md R125, R126, R140: RECV and CHECK belong to RECV or to a transaction that has sent -/
  receiving : e.phase = .recv ∨ e.phase = .check →
    e.cmdOp = .recv ∨ e.cmdOp.isTransaction = true ∧ 1 ≤ e.attempts ∧ requestLoaded c e
  /-- 41_transaction.md R124, 60_exceptions.md R201: GET_FW_VERSION leaves a version only if it completes with OK -/
  version : e.cmdOp = .getFwVersion → e.status ≠ .ok → e.fw = none
  /-- 41_transaction.md R126: CHECK follows a receive of at least one byte -/
  checking : e.phase = .check → 1 ≤ e.rxLen
  /-- 10_state.md R19: LAST_ERR is NONE or the code of a failed receive attempt -/
  lastErr : e.lastErr = .noCode ∨ e.lastErr ∈ receiveFailures
  /-- 30_encoding.md R77: BUSY_REJECT is never stored -/
  notBusyReject : e.status ≠ .busyReject
  /-- 60_exceptions.md R201: no packet after a failure to receive one -/
  failed : e.status ∈ receiveFailures ∨ e.status = .noResponse ∨ e.status = .ioError → e.pkt = none
  /-- 41_transaction.md R130, 60_exceptions.md R192 -/
  noResponse : e.status = .noResponse → e.attempts = c.maxAttempts ∧ e.lastErr ∈ receiveFailures
  /-- 41_transaction.md R131, 60_exceptions.md R193 -/
  commandFailed : e.status = .commandFailed → ∃ p, e.pkt = some p ∧ p.cf = true ∧ 1 ≤ e.attempts
  /-- 43_facade.md R166, 60_exceptions.md R195 -/
  malformed : e.status = .malformedResponse → e.cmdOp = .getFwVersion ∧ ∃ p, e.pkt = some p ∧ p.data.length < 4

/-- The invariant of the machine: legal parameters (70_reset_and_hazards.md R219) and a legal ENGINE. -/
def State.Inv (s : State) : Prop := s.cfg.valid ∧ Engine.Inv s.cfg s.eng

end Sys2Proof.Machine
end

