-- ==== Sys2Proof/Certificates/Slice0/Obligations.lean ====
section
/-! DEFINITION. The statements for the provers. Each docstring names the rule of spec/ it formalises, or says that it is
about the model. -/

open Sys2Proof Sys2Proof.Machine

/-! ## Encodings -/

/-- Decoding an encoded well-formed instruction gives it back; a pseudo-operation gives the operation it is
(30_encoding.md R79). The layout of a host operation's operands is the model's choice (log 1). -/
def Obligations.EncodedInstructionDecodes : Prop :=
  ∀ (c : Config) (i : Instr), i.wellFormed = true → decode i.port (encode c i) = .ok (i.core c)

/-- What the line decoder reads as a frame is exactly that frame's bytes: no bit is dropped (30_encoding.md R60, R69). -/
def Obligations.WireDecodingIsExact : Prop :=
  ∀ (bytes : List Byte) (i : Instr), decode .wire bytes = .ok i →
    i.wellFormed = true ∧ i.port = .wire ∧ ∀ c, encode c i = bytes

/-- What the command port decodes is a well-formed host operation, whose own encoding has as many bytes and decodes to
it again. The layout is the model's choice (log 1). -/
def Obligations.HostDecodingIsStable : Prop :=
  ∀ (bytes : List Byte) (i : Instr), decode .host bytes = .ok i →
    i.wellFormed = true ∧ i.port = .host ∧
      ∀ c, decode .host (encode c i) = .ok i ∧ (encode c i).length = bytes.length

/-- 30_encoding.md R66: the three patterns cover all values of `packet_type` and do not overlap, and each fixes the data
length; a byte string with the marker is one frame of that kind exactly when it has that many data bytes. -/
def Obligations.EveryPacketTypeIsOneFrameKind : Prop :=
  ∀ (pt addr : Byte) (rest : List Byte),
    ((∃ i, decode .wire (header pt addr ++ rest) = .ok i) ↔ rest.length = dataLength pt + 2) ∧
    (pt &&& 0x80 = 0x00 ∧ pt &&& 0xC0 ≠ 0x80 ∧ pt &&& 0xC0 ≠ 0xC0 ∧ dataLength pt = 0 ∧
        (rest.length = 2 → ∃ b l r f w, decode .wire (header pt addr ++ rest) = .ok (.frameNodata b l r f addr w)) ∨
      pt &&& 0x80 ≠ 0x00 ∧ pt &&& 0xC0 = 0x80 ∧ pt &&& 0xC0 ≠ 0xC0 ∧ dataLength pt = 4 ∧
        (rest.length = 6 → ∃ l r f d w, decode .wire (header pt addr ++ rest) = .ok (.frameSingle l r f addr d w)) ∨
      pt &&& 0x80 ≠ 0x00 ∧ pt &&& 0xC0 ≠ 0x80 ∧ pt &&& 0xC0 = 0xC0 ∧
        dataLength pt = 4 * (pt.toNat / 4 % 16) ∧
        (rest.length = dataLength pt + 2 → ∃ l r f w, decode .wire (header pt addr ++ rest) =
          .ok (.frameBatch l r f addr (rest.take (dataLength pt)) w)))

/-- Words written out from 30_encoding.md R60 to R66 and 95_test_vectors.md (F55, W01, E4, CFAD) decode to the frames
they stand for. In the last four clauses the numbers are the operation codes of R75 and R76; that `decodeTableWord`
reads a word below 16 as an operation code and not as the packet_type of a FRAME_NODATA is the model's choice (log 2),
and so is the layout by which zero bytes above the code are the operands (log 1). -/
def Obligations.SampleWordsDecode : Prop :=
  decode .wire [0x73, 0x6E, 0x70, 0x00, 0x55, 0x01, 0xA6] = .ok (.frameNodata false 0 false false 0x55 0x01A6) ∧
  decode .wire [0x73, 0x6E, 0x70, 0x01, 0xAD, 0x01, 0xFF] = .ok (.frameNodata false 0 false true 0xAD 0x01FF) ∧
  decode .wire [0x73, 0x6E, 0x70, 0x80, 0x01, 0x00, 0x00, 0x00, 0x05, 0x01, 0xD7] =
    .ok (.frameSingle 0 false false 0x01 ⟨0, 0, 0, 5⟩ 0x01D7) ∧
  decode .wire [0x73, 0x6E, 0x70, 0xC8, 0x56, 1, 2, 3, 4, 5, 6, 7, 8, 0x02, 0x93] =
    .ok (.frameBatch 2 false false 0x56 [1, 2, 3, 4, 5, 6, 7, 8] 0x0293) ∧
  decodeTableWord 8 0x3 = some (.decodeHealth ⟨0, 0, 0, 0⟩) ∧
  decodeTableWord 8 0x4 = some .recv ∧
  decodeTableWord 8 0xA = some .zeroGyros ∧
  decodeTableWord 8 0x7 = some .reserved7

/-- 30_encoding.md R75, R76: the operation codes, as the first byte of each operation's encoding. -/
def Obligations.OperationCodes : Prop :=
  ∀ (c : Config) (pt a : Byte) (l : List Byte) (x : Option Byte) (h : Bool) (d : Bytes4),
    [Instr.reserved0, .encode pt a l, .decode l x, .decodeHealth d, .recv, .writeRegister a h d, .readRegister a,
      .reserved7, .getFwVersion, .factoryReset, .zeroGyros, .setHomePosition, .setMagReference, .resetEkf,
      .flashCommit, .reservedF].map (fun i => (encode c i).head?) =
    [0x0, 0x1, 0x2, 0x3, 0x4, 0x5, 0x6, 0x7, 0x8, 0x9, 0xA, 0xB, 0xC, 0xD, 0xE, 0xF].map some

/-- 30_encoding.md R77: the numbers of the result codes; 0xE and 0xF belong to none. -/
def Obligations.ResultCodeNumbers : Prop :=
  [ResultCode.noCode, .ok, .tooShort, .noSync, .truncated, .addressMismatch, .badChecksum, .timeout, .noResponse,
      .commandFailed, .ioError, .malformedResponse, .illegalCommand, .busyReject].map ResultCode.toBits =
    [0x0, 0x1, 0x2, 0x3, 0x4, 0x5, 0x6, 0x7, 0x8, 0x9, 0xA, 0xB, 0xC, 0xD] ∧
  ∀ code : ResultCode, code.toBits ≠ 0xE ∧ code.toBits ≠ 0xF

/-! ## The codec -/

/-- 40_codec.md R90: `DataLength` by the numeric value of the byte; the result is one of 0, 4, 8, ..., 60. -/
def Obligations.DataLengthOfEveryPacketType : Prop :=
  ∀ pt : Byte,
    dataLength pt = (if pt.toNat < 128 then 0 else if pt.toNat < 192 then 4 else 4 * (pt.toNat / 4 % 16)) ∧
    dataLength pt % 4 = 0 ∧ dataLength pt ≤ 60

/-- 40_codec.md R92: for every frame the format allows the sum of R91 stays below 65536, the smallest being 337 and the
largest 16147, so a received checksum field outside that range never matches. -/
def Obligations.ChecksumNeverWraps : Prop :=
  (∀ (pt addr : Byte) (data : List Byte), structurallyValid pt data →
    (checksum pt addr data).toNat = 337 + pt.toNat + addr.toNat + (data.map BitVec.toNat).sum ∧
    337 ≤ (checksum pt addr data).toNat ∧ (checksum pt addr data).toNat ≤ 16147) ∧
  (checksum 0 0 []).toNat = 337 ∧ (checksum 0xFF 0xFF (List.replicate 60 0xFF)).toNat = 16147 ∧
  ∀ (rescan : Bool) (buf : List Byte) (expect : Option Byte) (p : Packet),
    decodeFrame rescan buf expect = .ok p → 337 ≤ p.csum.toNat ∧ p.csum.toNat ≤ 16147

/-- 40_codec.md R94: the bytes of an encoded frame, offset by offset, and its length. -/
def Obligations.EncodedFrameLayout : Prop :=
  ∀ (pt addr : Byte) (data : List Byte),
    (encodeFrame pt addr data).length = 7 + data.length ∧
    (encodeFrame pt addr data).take 5 = [0x73, 0x6E, 0x70, pt, addr] ∧
    (∀ i < data.length, (encodeFrame pt addr data)[5 + i]? = data[i]?) ∧
    ∃ hi lo : Byte, (encodeFrame pt addr data)[5 + data.length]? = some hi ∧
      (encodeFrame pt addr data)[6 + data.length]? = some lo ∧
      256 * hi.toNat + lo.toNat = (337 + pt.toNat + addr.toNat + (data.map BitVec.toNat).sum) % 65536

/-- 40_codec.md R103: the round trip, with any bytes appended and with any bytes prepended that hold no marker. -/
def Obligations.FrameRoundTrip : Prop :=
  ∀ (rescan : Bool) (pt addr : Byte) (data before after : List Byte), structurallyValid pt data →
    (∀ o, ¬ markerStandsAt before o) →
    decodeFrame rescan (before ++ encodeFrame pt addr data ++ after) none =
      .ok ⟨pt, addr, data, checksum pt addr data⟩

/-- 40_codec.md R96: `FindSync` answers the smallest offset from `start` on at which the marker stands, or none. -/
def Obligations.FindSyncFindsTheFirstMarker : Prop :=
  ∀ (buf : List Byte) (start : Nat),
    (∀ o, findSync buf start = some o ↔
      start ≤ o ∧ o + 3 ≤ buf.length ∧ markerStandsAt buf o ∧ ∀ j, start ≤ j → j < o → ¬ markerStandsAt buf j) ∧
    (findSync buf start = none ↔ ∀ j, start ≤ j → ¬ markerStandsAt buf j)

/-- 40_codec.md R97: `Decode` is the spec's loop. With the scan at offset `start`, the call answers what steps 2 to 8
answer, in that order, going back to step 2 at `o + 1` after an address mismatch only. -/
def Obligations.DecodeFollowsTheEightSteps : Prop :=
  ∀ (rescan : Bool) (buf : List Byte) (expect : Option Byte),
    decodeFrame rescan buf expect =
      (if buf.length < 7 then .error .tooShort else scan rescan expect (buf.drop 0) false) ∧
    ∀ (start : Nat) (mismatchSeen : Bool),
      scan rescan expect (buf.drop start) mismatchSeen =
        match findSync buf start with
        | none => if mismatchSeen then .error .addressMismatch else .error .noSync
        | some o =>
          if buf.length - o < 7 then .error .truncated
          else if buf.length - o < dataLength (buf.getD (o + 3) 0) + 7 then .error .truncated
          else if expect.any (fun a => buf.getD (o + 4) 0 != a) then
            if rescan then scan rescan expect (buf.drop (o + 1)) true else .error .addressMismatch
          else if checksum (buf.getD (o + 3) 0) (buf.getD (o + 4) 0)
                ((buf.drop (o + 5)).take (dataLength (buf.getD (o + 3) 0))) ≠
              be16 (buf.getD (o + 5 + dataLength (buf.getD (o + 3) 0)) 0)
                (buf.getD (o + 6 + dataLength (buf.getD (o + 3) 0)) 0) then .error .badChecksum
          else .ok ⟨buf.getD (o + 3) 0, buf.getD (o + 4) 0,
            (buf.drop (o + 5)).take (dataLength (buf.getD (o + 3) 0)),
            be16 (buf.getD (o + 5 + dataLength (buf.getD (o + 3) 0)) 0)
              (buf.getD (o + 6 + dataLength (buf.getD (o + 3) 0)) 0)⟩

/-- 60_exceptions.md R186, R187, 40_codec.md R105: TOO_SHORT exactly for the buffers of fewer than 7 bytes, NO_SYNC
exactly for the longer ones without a marker. -/
def Obligations.TooShortAndNoSyncExactly : Prop :=
  ∀ (rescan : Bool) (buf : List Byte) (expect : Option Byte),
    (decodeFrame rescan buf expect = .error .tooShort ↔ buf.length < 7) ∧
    (decodeFrame rescan buf expect = .error .noSync ↔ 7 ≤ buf.length ∧ ∀ o, ¬ markerStandsAt buf o)

/-- 40_codec.md R93, R97, R98: a decoded packet is well-formed, carries the expected address, and its frame stands in
the buffer. -/
def Obligations.DecodedPacketStandsInTheBuffer : Prop :=
  ∀ (rescan : Bool) (buf : List Byte) (expect : Option Byte) (p : Packet), decodeFrame rescan buf expect = .ok p →
    p.wellFormed ∧ (∀ a, expect = some a → p.address = a) ∧
    ∃ before after, buf = before ++ encodeFrame p.ptype p.address p.data ++ after

/-- 40_codec.md R98: the bytes after the frame that passed do not change the result. -/
def Obligations.BytesAfterTheFrameAreIgnored : Prop :=
  ∀ (rescan : Bool) (buf after : List Byte) (expect : Option Byte) (p : Packet),
    decodeFrame rescan buf expect = .ok p → decodeFrame rescan (buf ++ after) expect = .ok p

/-- 40_codec.md R104 (a), (b): a changed data byte, a changed checksum field and a changed address byte of a valid frame
are each found out, whatever follows the frame. -/
def Obligations.SingleByteCorruptionIsBadChecksum : Prop :=
  ∀ (rescan : Bool) (pt addr : Byte) (data after : List Byte), structurallyValid pt data →
    (∀ (i : Nat) (v : Byte), i < data.length → data[i]? ≠ some v →
      decodeFrame rescan (frameBytes pt addr (data.set i v) (checksum pt addr data) ++ after) none =
        .error .badChecksum) ∧
    (∀ w : Word16, w ≠ checksum pt addr data →
      decodeFrame rescan (frameBytes pt addr data w ++ after) none = .error .badChecksum) ∧
    (∀ a : Byte, a ≠ addr →
      decodeFrame rescan (frameBytes pt a data (checksum pt addr data) ++ after) none = .error .badChecksum)

/-- 40_codec.md R104 (e), 70_reset_and_hazards.md R229: no permutation of the data bytes is found out. -/
def Obligations.PermutedDataPasses : Prop :=
  ∀ (rescan : Bool) (pt addr : Byte) (data data' after : List Byte), structurallyValid pt data → data'.Perm data →
    decodeFrame rescan (frameBytes pt addr data' (checksum pt addr data) ++ after) none =
      .ok ⟨pt, addr, data', checksum pt addr data⟩

/-- 40_codec.md R99: a truncated candidate and one with a bad checksum end the call, whatever follows and however the
address is asked for. -/
def Obligations.NoRescanAfterTruncationOrBadChecksum : Prop :=
  (∀ (rescan : Bool) (pt addr : Byte) (data after : List Byte) (w : Word16), structurallyValid pt data →
    w ≠ checksum pt addr data →
    decodeFrame rescan (frameBytes pt addr data w ++ after) (some addr) = .error .badChecksum) ∧
  ∀ (rescan : Bool) (pt addr : Byte) (rest : List Byte) (expect : Option Byte), 2 ≤ rest.length →
    rest.length < dataLength pt + 2 →
    decodeFrame rescan (header pt addr ++ rest) expect = .error .truncated

/-- 40_codec.md R99: after an address mismatch the scan resumes at the next byte, three offsets further at the earliest
(70_reset_and_hazards.md R225), and never ends in NO_SYNC; without the rescan the mismatch ends the call. -/
def Obligations.AddressMismatchResumesTheScan : Prop :=
  ∀ (pt addr a : Byte) (rest : List Byte), a ≠ addr → dataLength pt + 2 ≤ rest.length →
    decodeFrame false (header pt addr ++ rest) (some a) = .error .addressMismatch ∧
    decodeFrame true (header pt addr ++ rest) (some a) = scan true (some a) (pt :: addr :: rest) true ∧
    decodeFrame true (header pt addr ++ rest) (some a) ≠ .error .noSync

/-! ## The heartbeat -/

/-- 42_heartbeat.md R151, R152: the nine fields in byte terms, at the default flag positions, of which only the gyro
flag's is in the spec's source: the others are presumed (log 11). -/
def Obligations.HeartbeatInByteTerms : Prop :=
  ∀ d : Bytes4, decodeHealthWord Config.thisHardware d =
    { gpsTimeout := d.b3.getLsbD 0, magFail := d.b3.getLsbD 1, gyroFail := d.b3.getLsbD 2,
      accelFail := d.b3.getLsbD 3, accelNorm := d.b3.getLsbD 4, magNorm := d.b3.getLsbD 5,
      uartOverflow := d.b2.getLsbD 0, satellitesInView := d.b2 >>> 2, satellitesUsed := d.b0 >>> 2 }

/-- 42_heartbeat.md R153: each count is the sum of the powers of two of its set bits, and is at most 63. -/
def Obligations.SatelliteCountsAreBinaryNumbers : Prop :=
  ∀ (c : Config) (w : Word32),
    (heartbeatView c w).satellitesInView.toNat =
      ((List.range 6).map (fun i => if w.getLsbD (10 + i) then 2 ^ i else 0)).sum ∧
    (heartbeatView c w).satellitesUsed.toNat =
      ((List.range 6).map (fun i => if w.getLsbD (26 + i) then 2 ^ i else 0)).sum ∧
    (heartbeatView c w).satellitesInView.toNat ≤ 63 ∧ (heartbeatView c w).satellitesUsed.toNat ≤ 63

/-- 42_heartbeat.md R154: bits that no field uses change none of the nine fields. -/
def Obligations.UnnamedHealthBitsAreIgnored : Prop :=
  ∀ (c : Config) (w w' : Word32), (∀ b ∈ c.hbBits, w.getLsbD b = w'.getLsbD b) →
    (∀ i < 6, w.getLsbD (10 + i) = w'.getLsbD (10 + i) ∧ w.getLsbD (26 + i) = w'.getLsbD (26 + i)) →
    heartbeatView c w = heartbeatView c w'

/-! ## Reset -/

/-- 70_reset_and_hazards.md R215: reset asserted in any state puts every element of state at the value listed, and does
not change the parameters; the Byte Source is not told (R217). -/
def Obligations.ResetAtAnyTime : Prop :=
  ∀ (s : State) (later : List Input), s.env.inputs = .assertReset :: later →
    ∃ t, step s = .next t ∧ t.cfg = s.cfg ∧ t.env = { s.env with inputs := later } ∧
      t.eng.phase = .idle ∧ t.eng.cmdOp.toBits = 0 ∧ t.eng.attempts = 0 ∧ t.eng.rxLen = 0 ∧ t.eng.txLen = 0 ∧
      t.eng.pktValid = false ∧ t.eng.hbValid = false ∧ t.eng.fwValid = false ∧
      t.eng.pkt = none ∧ t.eng.hb = none ∧ t.eng.fw = none ∧
      t.eng.status.toBits = 0 ∧ t.eng.lastErr.toBits = 0

/-- 10_state.md R27, 00_scope.md R5: the values after reset, and the parameters that R5 gives a value. -/
def Obligations.StateAfterReset : Prop :=
  State.reset.eng.phase = .idle ∧ State.reset.eng.cmdOp.toBits = 0 ∧ State.reset.eng.attempts = 0 ∧
  State.reset.eng.rxLen = 0 ∧ State.reset.eng.txLen = 0 ∧ State.reset.eng.pkt = none ∧
  State.reset.eng.status = .noCode ∧ State.reset.eng.lastErr = .noCode ∧ State.reset.eng.hb = none ∧
  State.reset.eng.fw = none ∧ State.reset.cfg.maxAttempts = 100 ∧ State.reset.cfg.addrZeroGyros = 85 ∧
  State.reset.cfg.txTerminator = true ∧ State.reset.cfg.rescan = true

/-! ## Issuing an operation -/

/-- 41_transaction.md R122: an issue while `PHASE != IDLE` changes no ENGINE state and nothing else but the answer that
the issuer gets, BUSY_REJECT. Every host operation. -/
def Obligations.IssueWhileBusyIsRejected : Prop :=
  ∀ (i : Instr) (s : State), i.port = .host → s.eng.phase ≠ .idle →
    exec i s = .next { s with env := { s.env with answer := .refused .busyReject } }

/-- Every instruction answers a next state in every state: no fault and no refusal (about the model). -/
def Obligations.EveryInstructionCompletes : Prop :=
  ∀ (i : Instr) (s : State), ∃ t, exec i s = .next t

/-- A step runs the decoded operation: an issue event at the head of the inputs, issued at once or to an idle ENGINE, is
decoded and executed with the event taken off; bytes that carry no operation are refused by name (log 16). -/
def Obligations.StepRunsTheIssuedOperation : Prop :=
  ∀ (s : State) (now : Bool) (bytes : List Byte) (later : List Input), s.env.inputs = .issue now bytes :: later →
    (now = true ∨ s.eng.phase = .idle) →
    (∀ i, decode .host bytes = .ok i → step s = exec i { s with env := { s.env with inputs := later } }) ∧
    (∀ why, decode .host bytes = .error why → step s = .refused (.notAnOperation why))

/-- A step runs the frame that comes in; bytes that are not exactly one frame wait in the inbound stream too
(20_memory.md R47). -/
def Obligations.StepRunsTheArrivingFrame : Prop :=
  ∀ (s : State) (bytes : List Byte) (later : List Input), s.env.inputs = .arrive bytes :: later →
    (∀ i, decode .wire bytes = .ok i → step s = exec i { s with env := { s.env with inputs := later } }) ∧
    (∀ why, decode .wire bytes = .error why → step s = .next
      { s with env := { s.env with
          inputs := later
          bs := { s.env.bs with inbound := s.env.bs.inbound ++ bytes } } })

/-- ENGINE's steps with inputs left. A host that waits for BUSY = 0 does not disturb ENGINE: it steps as it would with
no input (95_test_vectors.md section 7, "each issued when BUSY = 0"; log 3). In its turn ENGINE steps likewise, in every
phase, and the turn is taken off (00_scope.md R7 for the step, log 3 for the turn). A fault would be the same one. -/
def Obligations.WaitingHostLetsEngineStep : Prop :=
  ∀ s : State,
    (∀ bytes later, s.env.inputs = .issue false bytes :: later → s.eng.phase ≠ .idle →
      (∀ t, step { s with env := { s.env with inputs := [] } } = .next t →
        step s = .next { t with env := { t.env with inputs := .issue false bytes :: later } }) ∧
      ∀ f, step { s with env := { s.env with inputs := [] } } = .fault f → step s = .fault f) ∧
    ∀ later, s.env.inputs = .turn :: later →
      (∀ t, step { s with env := { s.env with inputs := [] } } = .next t →
        step s = .next { t with env := { t.env with inputs := later } }) ∧
      ∀ f, step { s with env := { s.env with inputs := [] } } = .fault f → step s = .fault f

/-! ## The operations -/

/-- The three frame kinds (30_encoding.md R60, R66): the frame's bytes join the inbound stream, in order, after what
waits there; nothing else changes. Here `HAS_DATA` and `IS_BATCH` are those of the kind, and `packet_type` holds the
free bits at the places of R62. That they wait until a receive attempt reads them is 60_exceptions.md R204. -/
def Obligations.FramesWaitInTheInboundStream : Prop :=
  ∀ (s : State) (b r f : Bool) (l : BitVec 4) (addr : Byte) (d : Bytes4) (data : List Byte) (w : Word16),
    ∃ nodata single batch : Byte,
      (hasData nodata = false ∧ isBatch nodata = b ∧ batchLength nodata = l ∧ bit1 nodata = r ∧ cf nodata = f) ∧
      (hasData single = true ∧ isBatch single = false ∧ batchLength single = l ∧ bit1 single = r ∧ cf single = f) ∧
      (hasData batch = true ∧ isBatch batch = true ∧ batchLength batch = l ∧ bit1 batch = r ∧ cf batch = f) ∧
      exec (.frameNodata b l r f addr w) s = .next { s with env := { s.env with bs := { s.env.bs with
        inbound := s.env.bs.inbound ++ [0x73, 0x6E, 0x70, nodata, addr, hiByte w, loByte w] } } } ∧
      exec (.frameSingle l r f addr d w) s = .next { s with env := { s.env with bs := { s.env.bs with
        inbound := s.env.bs.inbound ++
          [0x73, 0x6E, 0x70, single, addr, d.b0, d.b1, d.b2, d.b3, hiByte w, loByte w] } } } ∧
      exec (.frameBatch l r f addr data w) s = .next { s with env := { s.env with bs := { s.env.bs with
        inbound := s.env.bs.inbound ++ ([0x73, 0x6E, 0x70, batch, addr] ++ data ++ [hiByte w, loByte w]) } } }

/-- 40_codec.md R95: ENCODE of a structurally valid packet stores the frame at TX_BUF[0 .. 7 + n), sets TX_LEN and
completes with OK; every other byte of TX_BUF and everything else is unchanged. The host can then read the frame
(10_state.md R26). That the bytes of TX_BUF at and above TX_LEN are kept is the model's choice: U1 allows any value
(log 28). -/
def Obligations.EncodeStoresTheFrame : Prop :=
  ∀ (s : State) (pt addr : Byte) (data : List Byte), s.eng.phase = .idle → data.length = dataLength pt →
    ∃ t, exec (.encode pt addr data) s = .next t ∧
      storedAtZero (txByte s.eng) (txByte t.eng) (encodeFrame pt addr data) ∧
      t = afterAccept s { s.eng with
        cmdOp := .encode
        txBuf := t.eng.txBuf
        txLen := 7 + data.length
        status := .ok } ∧
      ∀ i b, (encodeFrame pt addr data)[i]? = some b → hostRead (.txBuf i) t = .value (.byte b)

/-- 40_codec.md R95, R101, 60_exceptions.md R196: malformed operands and reserved codes complete with ILLEGAL_COMMAND;
CMD_OP records the code and nothing else changes. -/
def Obligations.IllegalCommands : Prop :=
  ∀ s : State, s.eng.phase = .idle →
    (∀ (pt addr : Byte) (data : List Byte), data.length ≠ dataLength pt → exec (.encode pt addr data) s =
      .next (afterAccept s { s.eng with cmdOp := .encode, status := .illegalCommand })) ∧
    (∀ (buf : List Byte) (expect : Option Byte), s.cfg.rxBufSize < buf.length → exec (.decode buf expect) s =
      .next (afterAccept s { s.eng with cmdOp := .decode, status := .illegalCommand })) ∧
    exec .reserved0 s = .next (afterAccept s { s.eng with cmdOp := .reserved0, status := .illegalCommand }) ∧
    exec .reserved7 s = .next (afterAccept s { s.eng with cmdOp := .reserved7, status := .illegalCommand }) ∧
    exec .reservedF s = .next (afterAccept s { s.eng with cmdOp := .reservedF, status := .illegalCommand })

/-- 40_codec.md R101, R102, 42_heartbeat.md R155: DECODE of a buffer that fits loads it at RX_BUF[0 .. len), and commits
the packet with OK or clears PKT_VALID with the error's code; everything else is unchanged. That the bytes of RX_BUF at
and above RX_LEN are kept is the model's choice: U1 allows any value (log 28). -/
def Obligations.DecodeCommitsOrReports : Prop :=
  ∀ (s : State) (buf : List Byte) (expect : Option Byte), s.eng.phase = .idle → buf.length ≤ s.cfg.rxBufSize →
    ∃ t, exec (.decode buf expect) s = .next t ∧
      storedAtZero (rxByte s.eng) (rxByte t.eng) buf ∧
      (∀ p, decodeFrame s.cfg.rescan buf expect = .ok p →
        t = afterAccept s { s.eng with
          cmdOp := .decode
          rxBuf := t.eng.rxBuf
          rxLen := buf.length
          pkt := some p
          hb := hbAfter s.cfg p s.eng.hb
          status := .ok }) ∧
      (∀ err, decodeFrame s.cfg.rescan buf expect = .error err →
        t = afterAccept s { s.eng with
          cmdOp := .decode
          rxBuf := t.eng.rxBuf
          rxLen := buf.length
          pkt := none
          status := err.code })

/-- 42_heartbeat.md R156: DECODE_HEALTH writes the word, most significant byte first, and completes with OK; everything
else is unchanged. -/
def Obligations.DecodeHealthWritesTheWord : Prop :=
  ∀ (s : State) (d : Bytes4), s.eng.phase = .idle →
    ∃ w : Word32,
      w.toNat = 2 ^ 24 * d.b0.toNat + 2 ^ 16 * d.b1.toNat + 2 ^ 8 * d.b2.toNat + d.b3.toNat ∧
      exec (.decodeHealth d) s =
        .next (afterAccept s { s.eng with cmdOp := .decodeHealth, hb := some w, status := .ok })

/-- 41_transaction.md R140: accepting RECV. -/
def Obligations.RecvAcceptance : Prop :=
  ∀ s : State, s.eng.phase = .idle →
    exec .recv s = .next (afterAccept s { s.eng with
      cmdOp := .recv, pkt := none, status := .noCode, lastErr := .noCode, phase := .recv })

/-- 41_transaction.md R123, R124: accepting WRITE_REGISTER latches the command, stores the request at the front of
TX_BUF, and everything else is unchanged. Nothing is sent yet. That the bytes of TX_BUF at and above TX_LEN are kept is
the model's choice: U1 allows any value (log 28). -/
def Obligations.WriteRegisterAcceptance : Prop :=
  ∀ (s : State) (addr : Byte) (h : Bool) (d : Bytes4), s.eng.phase = .idle →
    ∃ t, exec (.writeRegister addr h d) s = .next t ∧
      storedAtZero (txByte s.eng) (txByte t.eng)
        (encodeFrame (if h then 0x80 else 0x00) addr (if h then [d.b0, d.b1, d.b2, d.b3] else []) ++
          (if s.cfg.txTerminator then [0x0A] else [])) ∧
      t = afterAccept s { s.eng with
        cmdOp := .writeRegister
        cmdAddr := addr
        cmdHasData := h
        cmdData := if h then d else s.eng.cmdData
        txBuf := t.eng.txBuf
        txLen := (if h then 11 else 7) + (if s.cfg.txTerminator then 1 else 0)
        attempts := 0
        pkt := none
        status := .noCode
        lastErr := .noCode
        phase := .send }

/-- 41_transaction.md R136, 43_facade.md R173, 42_heartbeat.md R159: READ_REGISTER, READ_CONFIG and POLL_HEALTH are
WRITE_REGISTER without data, but for the code left in CMD_OP; each is accepted. -/
def Obligations.ReadsAreWritesWithoutData : Prop :=
  ∀ (s : State) (addr : Byte) (d : Bytes4), s.eng.phase = .idle →
    (∃ t, exec (.writeRegister addr false d) s = .next t ∧ t.eng.phase = .send ∧
      exec (.readRegister addr) s = .next { t with eng := { t.eng with cmdOp := .readRegister } } ∧
      exec (.readConfig addr) s = .next { t with eng := { t.eng with cmdOp := .readRegister } }) ∧
    ∃ t, exec (.writeRegister s.cfg.addrHealth false d) s = .next t ∧ t.eng.phase = .send ∧
      exec .pollHealth s = .next { t with eng := { t.eng with cmdOp := .readRegister } }

/-- 43_facade.md R165 to R172: each facade operation is accepted as WRITE_REGISTER at its address without data, but for
the code left in CMD_OP; GET_FW_VERSION also clears FW_VALID. -/
def Obligations.FacadeIsWriteWithoutData : Prop :=
  ∀ (s : State) (d : Bytes4), s.eng.phase = .idle →
    (∃ t, exec (.writeRegister s.cfg.addrGetFwVersion false d) s = .next t ∧ t.eng.phase = .send ∧
      exec .getFwVersion s = .next { t with eng := { t.eng with cmdOp := .getFwVersion, fw := none } }) ∧
    (∃ t, exec (.writeRegister s.cfg.addrFactoryReset false d) s = .next t ∧ t.eng.phase = .send ∧
      exec .factoryReset s = .next { t with eng := { t.eng with cmdOp := .factoryReset } }) ∧
    (∃ t, exec (.writeRegister s.cfg.addrZeroGyros false d) s = .next t ∧ t.eng.phase = .send ∧
      exec .zeroGyros s = .next { t with eng := { t.eng with cmdOp := .zeroGyros } }) ∧
    (∃ t, exec (.writeRegister s.cfg.addrSetHomePosition false d) s = .next t ∧ t.eng.phase = .send ∧
      exec .setHomePosition s = .next { t with eng := { t.eng with cmdOp := .setHomePosition } }) ∧
    (∃ t, exec (.writeRegister s.cfg.addrSetMagReference false d) s = .next t ∧ t.eng.phase = .send ∧
      exec .setMagReference s = .next { t with eng := { t.eng with cmdOp := .setMagReference } }) ∧
    (∃ t, exec (.writeRegister s.cfg.addrResetEkf false d) s = .next t ∧ t.eng.phase = .send ∧
      exec .resetEkf s = .next { t with eng := { t.eng with cmdOp := .resetEkf } }) ∧
    ∃ t, exec (.writeRegister s.cfg.addrFlashCommit false d) s = .next t ∧ t.eng.phase = .send ∧
      exec .flashCommit s = .next { t with eng := { t.eng with cmdOp := .flashCommit } }

/-! ## ENGINE's own steps -/

/-- 20_memory.md R46, poll by poll: with no poll left the attempt is a Timeout; a Failure ends it at once with an I/O
error; a read that hands over at least one byte ends it with exactly those bytes, off the front of the inbound stream;
an empty read leaves the attempt with one poll fewer. In all: at least one byte and at most RX_BUF_SIZE by one read, or a
Timeout after every poll was empty, nothing taken, or an I/O error. It answers if the Byte Source answers every poll;
that it does not answer before that is log 15. That a Failure takes no waiting byte is the model's choice (log 27). -/
def Obligations.ReceiveAttemptShape : Prop :=
  ∀ (max polls : Nat) (b : ByteSource),
    rxAttempt max 0 b = some (.timeout, b) ∧
    (b.readAnswers = [] → rxAttempt max (polls + 1) b = none) ∧
    (∀ later, b.readAnswers = .failure :: later →
      rxAttempt max (polls + 1) b = some (.ioError, { b with readAnswers := later })) ∧
    (∀ k later, b.readAnswers = .upTo k :: later →
      (1 ≤ min k max → b.inbound ≠ [] →
        rxAttempt max (polls + 1) b = some (.bytes (b.inbound.take (min k max)),
          { b with readAnswers := later, inbound := b.inbound.drop (min k max) })) ∧
      (min k max = 0 ∨ b.inbound = [] →
        rxAttempt max (polls + 1) b = rxAttempt max polls { b with readAnswers := later })) ∧
    (polls ≤ b.readAnswers.length → (rxAttempt max polls b).isSome = true) ∧
    ∀ (r : RxResult) (b' : ByteSource), rxAttempt max polls b = some (r, b') →
      b'.outbound = b.outbound ∧ b'.writeAnswers = b.writeAnswers ∧
      match r with
      | .bytes bytes => 1 ≤ bytes.length ∧ bytes.length ≤ max ∧ b.inbound = bytes ++ b'.inbound
      | .timeout => b'.inbound = b.inbound ∧ b.readAnswers.length = b'.readAnswers.length + polls
      | .ioError => b'.inbound = b.inbound ∧ b'.readAnswers.length < b.readAnswers.length

/-- 41_transaction.md R125: step SEND. The answer Count(TX_LEN) goes on to RECV; a short count and a failure end the
operation with IO_ERROR; ATTEMPTS counts the attempt either way, and the bytes counted are appended to the outbound
stream. With no answer nothing happens (R134): that the attempt is not counted before the answer is log 15. That a
Failure leaves the outbound stream as it was is the model's choice (log 6). -/
def Obligations.SendStep : Prop :=
  ∀ (s : State) (request : List Byte), s.env.inputs = [] → s.eng.phase = .send → loadTx s.eng = some request →
    (∀ k later, s.env.bs.writeAnswers = .upTo k :: later → request.length ≤ k →
      step s = .next { s with
        eng := { s.eng with attempts := s.eng.attempts + 1, phase := .recv }
        env := { s.env with bs := { s.env.bs with
          writeAnswers := later, outbound := s.env.bs.outbound ++ request } } }) ∧
    (∀ k later, s.env.bs.writeAnswers = .upTo k :: later → k < request.length →
      step s = .next { s with
        eng := { s.eng with attempts := s.eng.attempts + 1, status := .ioError, phase := .idle }
        env := { s.env with bs := { s.env.bs with
          writeAnswers := later, outbound := s.env.bs.outbound ++ request.take k } } }) ∧
    (∀ later, s.env.bs.writeAnswers = .failure :: later →
      step s = .next { s with
        eng := { s.eng with attempts := s.eng.attempts + 1, status := .ioError, phase := .idle }
        env := { s.env with bs := { s.env.bs with writeAnswers := later } } }) ∧
    (s.env.bs.writeAnswers = [] → step s = .next s)

/-- 41_transaction.md R128: `fail_attempt`, all three cases, everything else unchanged. -/
def Obligations.FailedAttempt : Prop :=
  ∀ (c : Config) (code : ResultCode) (e : Engine),
    (e.cmdOp = .recv → failAttempt c code e = { e with lastErr := code, status := code, phase := .idle }) ∧
    (e.cmdOp ≠ .recv → e.attempts = c.maxAttempts →
      failAttempt c code e = { e with lastErr := code, status := .noResponse, phase := .idle }) ∧
    (e.cmdOp ≠ .recv → e.attempts ≠ c.maxAttempts →
      failAttempt c code e = { e with lastErr := code, phase := .send })

/-- 41_transaction.md R126: step RECV, by the result of the receive attempt. That with no answer the step changes
nothing is DEDUCED from R134 (log 15). That a Failure takes no waiting byte, in the third clause, is the model's choice
(log 27), and so is that the bytes of RX_BUF at and above RX_LEN are kept, all of them after a Timeout: U1 allows any
value (log 28). -/
def Obligations.ReceiveStep : Prop :=
  ∀ s : State, s.env.inputs = [] → s.eng.phase = .recv →
    (∀ bytes b, rxAttempt s.cfg.rxBufSize s.cfg.pollLimit s.env.bs = some (.bytes bytes, b) →
      ∃ t, step s = .next t ∧ storedAtZero (rxByte s.eng) (rxByte t.eng) bytes ∧
        t = { s with
          eng := { s.eng with rxBuf := t.eng.rxBuf, rxLen := bytes.length, phase := .check }
          env := { s.env with bs := b } }) ∧
    (∀ b, rxAttempt s.cfg.rxBufSize s.cfg.pollLimit s.env.bs = some (.timeout, b) →
      step s = .next { s with
        eng :=
          if s.eng.cmdOp = .recv then
            { s.eng with rxLen := 0, lastErr := .timeout, status := .timeout, phase := .idle }
          else if s.eng.attempts = s.cfg.maxAttempts then
            { s.eng with rxLen := 0, lastErr := .timeout, status := .noResponse, phase := .idle }
          else { s.eng with rxLen := 0, lastErr := .timeout, phase := .send }
        env := { s.env with bs := b } }) ∧
    (∀ b, rxAttempt s.cfg.rxBufSize s.cfg.pollLimit s.env.bs = some (.ioError, b) →
      step s = .next { s with
        eng := { s.eng with status := .ioError, phase := .idle }
        env := { s.env with bs := b } }) ∧
    (rxAttempt s.cfg.rxBufSize s.cfg.pollLimit s.env.bs = none → step s = .next s)

/-- 41_transaction.md R127 to R131, 43_facade.md R166: step CHECK of a transaction. The expected address is CMD_ADDR; an
error fails the attempt; a packet is committed, and CF, the operation and the data length decide the code. -/
def Obligations.CheckStepOfTransaction : Prop :=
  ∀ (s : State) (buf : List Byte), s.env.inputs = [] → s.eng.phase = .check → loadRx s.cfg s.eng = some buf →
    s.eng.cmdOp.isTransaction = true →
    (∀ err, decodeFrame s.cfg.rescan buf (some s.eng.cmdAddr) = .error err →
      step s = .next { s with eng :=
        if s.eng.attempts = s.cfg.maxAttempts then
          { s.eng with lastErr := err.code, status := .noResponse, phase := .idle }
        else { s.eng with lastErr := err.code, phase := .send } }) ∧
    ∀ p, decodeFrame s.cfg.rescan buf (some s.eng.cmdAddr) = .ok p →
      step s = .next { s with eng := { s.eng with
        pkt := some p
        hb := hbAfter s.cfg p s.eng.hb
        fw := if p.ptype.getLsbD 0 = false ∧ s.eng.cmdOp = .getFwVersion ∧ 4 ≤ p.data.length then
            some ⟨p.data.getD 0 0, p.data.getD 1 0, p.data.getD 2 0, p.data.getD 3 0⟩
          else s.eng.fw
        status := if p.ptype.getLsbD 0 = true then .commandFailed
          else if s.eng.cmdOp = .getFwVersion ∧ p.data.length < 4 then .malformedResponse else .ok
        phase := .idle } }

/-- 41_transaction.md R142: step CHECK of RECV. No address is expected, CF is only a bit, nothing is retried. -/
def Obligations.CheckStepOfRecv : Prop :=
  ∀ (s : State) (buf : List Byte), s.env.inputs = [] → s.eng.phase = .check → loadRx s.cfg s.eng = some buf →
    s.eng.cmdOp = .recv →
    (∀ err, decodeFrame s.cfg.rescan buf none = .error err → err ≠ .addressMismatch ∧
      step s = .next { s with eng :=
        { s.eng with lastErr := err.code, status := err.code, phase := .idle } }) ∧
    ∀ p, decodeFrame s.cfg.rescan buf none = .ok p →
      step s = .next { s with eng :=
        { s.eng with pkt := some p, hb := hbAfter s.cfg p s.eng.hb, status := .ok, phase := .idle } }

/-- 41_transaction.md R134: a Byte Source that never answers leaves ENGINE stuck in SEND or RECV with BUSY = 1, for any
number of steps. That it waits with every register unchanged is log 15. -/
def Obligations.SilentByteSourceLeavesEngineStuck : Prop :=
  ∀ (s : State) (n : Nat), s.env.inputs = [] →
    (s.eng.phase = .send ∧ (loadTx s.eng).isSome = true ∧ s.env.bs.writeAnswers = [] ∨
      s.eng.phase = .recv ∧ 1 ≤ s.cfg.pollLimit ∧ s.env.bs.readAnswers = []) →
    run n s = .next s ∧ s.eng.busy = true

/-! ## Whole operations -/

/-- 41_transaction.md R132: a transaction accepted in any state runs to what `Transact` answers from the same answers of
the Byte Source, and consumes exactly those. The bound of three steps an attempt is R134's; the code is `finalCode`, in
which GET_FW_VERSION's MALFORMED_RESPONSE comes from R129 and 43_facade.md R166. What a Failure leaves of the two streams
is the model's choice (log 6, log 27). -/
def Obligations.TransactionComputesTransact : Prop :=
  ∀ (s : State) (r : TransactResult) (b : ByteSource), s.cfg.valid → s.env.inputs = [] → s.eng.phase = .send →
    s.eng.cmdOp.isTransaction = true → s.eng.attempts = 0 → s.eng.pkt = none →
    loadTx s.eng = some (buildRequest s.cfg.txTerminator s.eng.cmdAddr s.eng.cmdHasData s.eng.cmdData) →
    transact s.cfg s.eng.cmdAddr s.eng.cmdHasData s.eng.cmdData s.env.bs = some (r, b) →
    ∃ n t, n ≤ 3 * s.cfg.maxAttempts ∧ run n s = .next t ∧ t.eng.phase = .idle ∧
      t.eng.status = finalCode s.eng.cmdOp r ∧ t.eng.attempts = r.attempts ∧ t.eng.pkt = r.response ∧
      t.eng.cmdAddr = s.eng.cmdAddr ∧ t.env.bs = b

/-- 41_transaction.md R133: against a Byte Source whose every write takes the whole request and whose every receive
attempt is a Timeout (nothing waits, or every read hands over nothing), a transaction makes exactly MAX_ATTEMPTS writes
of the full request and as many receive attempts of POLL_LIMIT polls each, then completes with NO_RESPONSE. That
RX_BUF is kept where RX_LEN is 0 is the model's choice: U1 allows any value (log 28). -/
def Obligations.SilentSensorGivesExactlyMaxAttempts : Prop :=
  ∀ (s : State) (request : List Byte) (writes reads : List Nat), s.cfg.valid → s.env.inputs = [] →
    s.eng.phase = .send → s.eng.cmdOp.isTransaction = true → s.eng.attempts = 0 → loadTx s.eng = some request →
    s.env.bs.writeAnswers = writes.map .upTo → writes.length = s.cfg.maxAttempts →
    (∀ k ∈ writes, request.length ≤ k) →
    s.env.bs.readAnswers = reads.map .upTo → reads.length = s.cfg.maxAttempts * s.cfg.pollLimit →
    (s.env.bs.inbound = [] ∨ ∀ k ∈ reads, k = 0) →
    run (2 * s.cfg.maxAttempts) s = .next { s with
      eng := { s.eng with
        attempts := s.cfg.maxAttempts, rxLen := 0, lastErr := .timeout, status := .noResponse, phase := .idle }
      env := { s.env with bs := {
        inbound := s.env.bs.inbound
        outbound := s.env.bs.outbound ++ (List.replicate s.cfg.maxAttempts request).flatten
        writeAnswers := []
        readAnswers := [] } } }

/-- 41_transaction.md R141, R134: RECV accepted in any state ends, in at most two further steps, with what `Recv`
answers, its packet in `PKT_*`, consuming exactly one receive attempt (what a Failure leaves of the inbound stream is
the model's choice, log 27). -/
def Obligations.RecvComputesRecv : Prop :=
  ∀ (s : State) (x : RxResult) (b : ByteSource), s.env.inputs = [] → s.eng.phase = .recv → s.eng.cmdOp = .recv →
    s.eng.pkt = none → rxAttempt s.cfg.rxBufSize s.cfg.pollLimit s.env.bs = some (x, b) →
    ∃ n t, n ≤ 2 ∧ run n s = .next t ∧ t.eng.phase = .idle ∧
      (t.eng.status, t.eng.pkt) = recvResult s.cfg x ∧ t.eng.attempts = s.eng.attempts ∧
      t.eng.cmdAddr = s.eng.cmdAddr ∧ t.eng.txBuf = s.eng.txBuf ∧ t.env.bs = b

/-- 60_exceptions.md R204, 41_transaction.md R141: a well-formed frame that comes in while ENGINE is idle, with nothing
waiting, is what the next RECV delivers. Four steps: arrival, acceptance, RECV, CHECK. -/
def Obligations.ArrivedFrameIsReceived : Prop :=
  ∀ (s : State) (p : Packet) (k : Nat) (later : List ReadAnswer), s.cfg.valid → s.eng.phase = .idle →
    p.wellFormed →
    s.env.inputs = [.arrive (frameBytes p.ptype p.address p.data p.csum), .issue true (encode s.cfg .recv)] →
    s.env.bs.inbound = [] → s.env.bs.readAnswers = .upTo k :: later → 67 ≤ k →
    ∃ t, run 4 s = .next t ∧ t.eng.phase = .idle ∧ t.eng.status = .ok ∧ t.eng.pkt = some p ∧
      t.eng.hb = hbAfter s.cfg p s.eng.hb ∧ t.env.bs.inbound = [] ∧ t.env.inputs = []

/-! ## The whole machine -/

/-- The invariant holds right after reset. -/
def Obligations.InvariantAtReset : Prop :=
  State.reset.Inv

/-- Every step from a state that meets the invariant leads to one that meets it. Each clause of the invariant cites its
rule in Safety.lean. -/
def Obligations.StepKeepsInvariant : Prop :=
  ∀ s t : State, s.Inv → step s = .next t → t.Inv

/-- From a state that meets the invariant no step faults; a refusal is only that of an issue event whose bytes carry no
operation. -/
def Obligations.InvariantRulesOutFaults : Prop :=
  ∀ s : State, s.Inv → (∀ f, step s ≠ .fault f) ∧
    ∀ r, step s = .refused r → ∃ now bytes later why,
      s.env.inputs = .issue now bytes :: later ∧ decode .host bytes = .error why ∧ r = .notAnOperation why

/-- 10_state.md R29, 20_memory.md R40, R47, R50: no step changes the parameters; a step takes bytes only off the front of
the inbound stream and adds only at its end, and only adds to the end of the outbound stream. That a stream keeps its
order is presumed, with the spec (log 21). -/
def Obligations.StreamsAreFirstInFirstOut : Prop :=
  ∀ s t : State, step s = .next t →
    t.cfg = s.cfg ∧
    (∃ x, t.env.bs.outbound = s.env.bs.outbound ++ x) ∧
    ∃ taken kept added, s.env.bs.inbound = taken ++ kept ∧ t.env.bs.inbound = kept ++ added ∧
      (added ≠ [] → taken = [])

/-- 41_transaction.md R125, 20_memory.md R52: only SEND transmits, and what a step transmits is the front of
TX_BUF[0 .. TX_LEN). -/
def Obligations.OnlySendTransmits : Prop :=
  ∀ s t : State, step s = .next t → t.env.bs.outbound ≠ s.env.bs.outbound →
    s.eng.phase = .send ∧ ∃ request k, loadTx s.eng = some request ∧
      t.env.bs.outbound = s.env.bs.outbound ++ request.take k

/-- 10_state.md R13, 20_memory.md R55: while ENGINE is busy nothing but reset changes the command latch or the request,
so every attempt of a transaction transmits the same bytes (41_transaction.md R125). For the bytes of TX_BUF at and above
TX_LEN it is the model's choice: U1 allows any value (log 28). -/
def Obligations.CommandIsHeldWhileBusy : Prop :=
  ∀ s t : State, s.eng.phase ≠ .idle → step s = .next t → s.env.inputs.head? ≠ some .assertReset →
    t.eng.cmdOp = s.eng.cmdOp ∧ t.eng.cmdAddr = s.eng.cmdAddr ∧ t.eng.cmdHasData = s.eng.cmdHasData ∧
    t.eng.cmdData = s.eng.cmdData ∧ t.eng.txBuf = s.eng.txBuf ∧ t.eng.txLen = s.eng.txLen

/-- 42_heartbeat.md R157: HB_WORD and HB_VALID change only by the commit of a health packet (R155), by DECODE_HEALTH
(R156) and by reset. In the last case it is this step that commits the packet: step CHECK decodes it from RX_BUF and
completes, or an accepted DECODE decodes it from its operand. -/
def Obligations.HeartbeatPersists : Prop :=
  ∀ s t : State, step s = .next t →
    t.eng.hb = s.eng.hb ∨
    s.env.inputs.head? = some .assertReset ∨
    (∃ now bytes d, s.env.inputs.head? = some (.issue now bytes) ∧ decode .host bytes = .ok (.decodeHealth d) ∧
      s.eng.phase = .idle ∧ t.eng.hb = some (be32 d)) ∨
    ∃ p, t.eng.pkt = some p ∧ p.address = s.cfg.addrHealth ∧ 4 ≤ p.data.length ∧ p.ptype.getLsbD 0 = false ∧
      t.eng.hb = some (be32 ⟨p.data.getD 0 0, p.data.getD 1 0, p.data.getD 2 0, p.data.getD 3 0⟩) ∧
      ((s.eng.phase = .check ∧ t.eng.phase = .idle ∧ ∃ buf, loadRx s.cfg s.eng = some buf ∧
          decodeFrame s.cfg.rescan buf (if s.eng.cmdOp = .recv then none else some s.eng.cmdAddr) = .ok p) ∨
        ∃ now bytes buf expect, s.env.inputs.head? = some (.issue now bytes) ∧
          decode .host bytes = .ok (.decode buf expect) ∧ s.eng.phase = .idle ∧
          decodeFrame s.cfg.rescan buf expect = .ok p)

/-- 60_exceptions.md R201, 43_facade.md R166: FW_VERSION changes only by reset, by accepting GET_FW_VERSION (it holds no
value then) and by the OK completion of GET_FW_VERSION (it holds the response's first four bytes then). -/
def Obligations.FirmwareVersionPersists : Prop :=
  ∀ s t : State, step s = .next t →
    t.eng.fw = s.eng.fw ∨
    s.env.inputs.head? = some .assertReset ∨
    (s.eng.phase = .idle ∧ t.eng.cmdOp = .getFwVersion ∧ t.eng.phase = .send ∧ t.eng.fw = none) ∨
    s.eng.phase = .check ∧ s.eng.cmdOp = .getFwVersion ∧ t.eng.status = .ok ∧ t.eng.phase = .idle ∧
      ∃ p, t.eng.pkt = some p ∧ 4 ≤ p.data.length ∧
        t.eng.fw = some ⟨p.data.getD 0 0, p.data.getD 1 0, p.data.getD 2 0, p.data.getD 3 0⟩

/-- 10_state.md R23, R25, R26: BUSY can always be read; while `BUSY = 1` no other element that the host can read is to be
relied on; while `BUSY = 0` each reads as it stands, the nine heartbeat fields being those of HB_WORD, and one whose
valid bit is 0 answers no value. A byte of PKT_DATA at and above the data length has no meaning (R18): any value.
RX_BUF, RX_LEN and TX_LEN can never be read, TX_BUF[0 .. TX_LEN) only after ENCODE: for how long, and that an ENCODE with
ILLEGAL_COMMAND does not count, is the model's choice (log 26). -/
def Obligations.HostReads : Prop :=
  ∀ s : State,
    hostRead .busy s = .value (.flag s.eng.busy) ∧
    (s.eng.busy = true → ∀ r : HostReg, r ≠ .busy → r ≠ .rxLen → r ≠ .txLen → (∀ i, r ≠ .rxBuf i ∧ r ≠ .txBuf i) →
      hostRead r s = .unreliable) ∧
    (s.eng.busy = false →
      (∀ x ∈ [(HostReg.phase, HostValue.phase s.eng.phase), (.cmdOp, .op s.eng.cmdOp), (.cmdAddr, .byte s.eng.cmdAddr),
          (.cmdHasData, .flag s.eng.cmdHasData), (.cmdData 0, .byte s.eng.cmdData.b0),
          (.cmdData 1, .byte s.eng.cmdData.b1), (.cmdData 2, .byte s.eng.cmdData.b2),
          (.cmdData 3, .byte s.eng.cmdData.b3), (.attempts, .count s.eng.attempts), (.status, .code s.eng.status),
          (.lastErr, .code s.eng.lastErr), (.pktValid, .flag s.eng.pkt.isSome), (.hbValid, .flag s.eng.hb.isSome),
          (.fwValid, .flag s.eng.fw.isSome)],
        hostRead x.1 s = .value x.2) ∧
      (∀ p, s.eng.pkt = some p →
        hostRead .pktType s = .value (.byte p.ptype) ∧ hostRead .pktAddr s = .value (.byte p.address) ∧
        hostRead .pktCsum s = .value (.half p.csum) ∧
        ∀ i, (∀ b, p.data[i.val]? = some b → hostRead (.pktData i) s = .value (.byte b)) ∧
          (p.data.length ≤ i.val → hostRead (.pktData i) s = .unreliable)) ∧
      (s.eng.pkt = none → ∀ i, ∀ r ∈ [HostReg.pktType, .pktAddr, .pktData i, .pktCsum], hostRead r s = .noValue) ∧
      (∀ w, s.eng.hb = some w →
        ∀ x ∈ [(HostReg.hbWord, HostValue.word w), (.gpsTimeout, .flag (heartbeatView s.cfg w).gpsTimeout),
          (.magFail, .flag (heartbeatView s.cfg w).magFail), (.gyroFail, .flag (heartbeatView s.cfg w).gyroFail),
          (.accelFail, .flag (heartbeatView s.cfg w).accelFail), (.accelNorm, .flag (heartbeatView s.cfg w).accelNorm),
          (.magNorm, .flag (heartbeatView s.cfg w).magNorm),
          (.uartOverflow, .flag (heartbeatView s.cfg w).uartOverflow),
          (.satellitesInView, .byte (heartbeatView s.cfg w).satellitesInView),
          (.satellitesUsed, .byte (heartbeatView s.cfg w).satellitesUsed)],
        hostRead x.1 s = .value x.2) ∧
      (s.eng.hb = none → ∀ r ∈ [HostReg.hbWord, .gpsTimeout, .magFail, .gyroFail, .accelFail, .accelNorm, .magNorm,
        .uartOverflow, .satellitesInView, .satellitesUsed], hostRead r s = .noValue) ∧
      (∀ d, s.eng.fw = some d → hostRead (.fwVersion 0) s = .value (.byte d.b0) ∧
        hostRead (.fwVersion 1) s = .value (.byte d.b1) ∧ hostRead (.fwVersion 2) s = .value (.byte d.b2) ∧
        hostRead (.fwVersion 3) s = .value (.byte d.b3)) ∧
      (s.eng.fw = none → ∀ i, hostRead (.fwVersion i) s = .noValue)) ∧
    hostRead .rxLen s = .notReadable ∧ hostRead .txLen s = .notReadable ∧
    ∀ i, hostRead (.rxBuf i) s = .notReadable ∧
      hostRead (.txBuf i) s =
        if s.eng.phase = .idle ∧ s.eng.cmdOp = .encode ∧ s.eng.status = .ok ∧ i < s.eng.txLen then
          .value (.byte (txByte s.eng i))
        else .notReadable
end

