-- ==== Sys2Proof/Laws/State.lean ====
section
/-! SUPPORT. The small lemmas of the state: one per field per named update, each true by rfl, so that no proof unfolds a
record update. -/

namespace Sys2Proof.Machine

@[simp] theorem State.withEng_cfg (s : State) (e : Engine) : (s.withEng e).cfg = s.cfg := rfl
@[simp] theorem State.withEng_eng (s : State) (e : Engine) : (s.withEng e).eng = e := rfl
@[simp] theorem State.withEng_inputs (s : State) (e : Engine) : (s.withEng e).env.inputs = s.env.inputs := rfl
@[simp] theorem State.withEng_answer (s : State) (e : Engine) : (s.withEng e).env.answer = s.env.answer := rfl
@[simp] theorem State.withEng_bs (s : State) (e : Engine) : (s.withEng e).env.bs = s.env.bs := rfl

@[simp] theorem State.withInputs_cfg (s : State) (l : List Input) : (s.withInputs l).cfg = s.cfg := rfl
@[simp] theorem State.withInputs_eng (s : State) (l : List Input) : (s.withInputs l).eng = s.eng := rfl
@[simp] theorem State.withInputs_inputs (s : State) (l : List Input) : (s.withInputs l).env.inputs = l := rfl
@[simp] theorem State.withInputs_answer (s : State) (l : List Input) : (s.withInputs l).env.answer = s.env.answer := rfl
@[simp] theorem State.withInputs_bs (s : State) (l : List Input) : (s.withInputs l).env.bs = s.env.bs := rfl

@[simp] theorem State.withBs_cfg (s : State) (b : ByteSource) : (s.withBs b).cfg = s.cfg := rfl
@[simp] theorem State.withBs_eng (s : State) (b : ByteSource) : (s.withBs b).eng = s.eng := rfl
@[simp] theorem State.withBs_inputs (s : State) (b : ByteSource) : (s.withBs b).env.inputs = s.env.inputs := rfl
@[simp] theorem State.withBs_answer (s : State) (b : ByteSource) : (s.withBs b).env.answer = s.env.answer := rfl
@[simp] theorem State.withBs_bs (s : State) (b : ByteSource) : (s.withBs b).env.bs = b := rfl

@[simp] theorem State.withAnswer_cfg (s : State) (a : HostAnswer) : (s.withAnswer a).cfg = s.cfg := rfl
@[simp] theorem State.withAnswer_eng (s : State) (a : HostAnswer) : (s.withAnswer a).eng = s.eng := rfl
@[simp] theorem State.withAnswer_inputs (s : State) (a : HostAnswer) : (s.withAnswer a).env.inputs = s.env.inputs := rfl
@[simp] theorem State.withAnswer_answer (s : State) (a : HostAnswer) : (s.withAnswer a).env.answer = a := rfl
@[simp] theorem State.withAnswer_bs (s : State) (a : HostAnswer) : (s.withAnswer a).env.bs = s.env.bs := rfl

@[simp] theorem busyReject_cfg (s : State) : (busyReject s).cfg = s.cfg := rfl
@[simp] theorem busyReject_eng (s : State) : (busyReject s).eng = s.eng := rfl
@[simp] theorem busyReject_inputs (s : State) : (busyReject s).env.inputs = s.env.inputs := rfl
@[simp] theorem busyReject_answer (s : State) : (busyReject s).env.answer = .refused .busyReject := rfl
@[simp] theorem busyReject_bs (s : State) : (busyReject s).env.bs = s.env.bs := rfl

@[simp] theorem latchOp_cfg (s : State) (op : OpCode) : (latchOp op s).cfg = s.cfg := rfl
@[simp] theorem latchOp_eng (s : State) (op : OpCode) : (latchOp op s).eng = { s.eng with cmdOp := op } := rfl
@[simp] theorem latchOp_inputs (s : State) (op : OpCode) : (latchOp op s).env.inputs = s.env.inputs := rfl
@[simp] theorem latchOp_answer (s : State) (op : OpCode) : (latchOp op s).env.answer = .accepted := rfl
@[simp] theorem latchOp_bs (s : State) (op : OpCode) : (latchOp op s).env.bs = s.env.bs := rfl

@[simp] theorem lineIn_cfg (s : State) (bytes : List Byte) : (lineIn bytes s).cfg = s.cfg := rfl
@[simp] theorem lineIn_eng (s : State) (bytes : List Byte) : (lineIn bytes s).eng = s.eng := rfl
@[simp] theorem lineIn_inputs (s : State) (bytes : List Byte) : (lineIn bytes s).env.inputs = s.env.inputs := rfl
@[simp] theorem lineIn_answer (s : State) (bytes : List Byte) : (lineIn bytes s).env.answer = s.env.answer := rfl
@[simp] theorem lineIn_bs (s : State) (bytes : List Byte) : (lineIn bytes s).env.bs = { s.env.bs with inbound := s.env.bs.inbound ++ bytes } := rfl

@[simp] theorem assertReset_cfg (s : State) : (assertReset s).cfg = s.cfg := rfl
@[simp] theorem assertReset_eng (s : State) :
    (assertReset s).eng = { Engine.reset with resets := s.eng.resets + 1 } := rfl
@[simp] theorem assertReset_inputs (s : State) : (assertReset s).env.inputs = s.env.inputs := rfl
@[simp] theorem assertReset_answer (s : State) : (assertReset s).env.answer = s.env.answer := rfl
@[simp] theorem assertReset_bs (s : State) : (assertReset s).env.bs = s.env.bs := rfl

@[simp] theorem complete_phase (e : Engine) (code : ResultCode) : (complete code e).phase = .idle := rfl
@[simp] theorem complete_cmdOp (e : Engine) (code : ResultCode) : (complete code e).cmdOp = e.cmdOp := rfl
@[simp] theorem complete_cmdAddr (e : Engine) (code : ResultCode) : (complete code e).cmdAddr = e.cmdAddr := rfl
@[simp] theorem complete_cmdHasData (e : Engine) (code : ResultCode) : (complete code e).cmdHasData = e.cmdHasData := rfl
@[simp] theorem complete_cmdData (e : Engine) (code : ResultCode) : (complete code e).cmdData = e.cmdData := rfl
@[simp] theorem complete_attempts (e : Engine) (code : ResultCode) : (complete code e).attempts = e.attempts := rfl
@[simp] theorem complete_rxBuf (e : Engine) (code : ResultCode) : (complete code e).rxBuf = e.rxBuf := rfl
@[simp] theorem complete_rxLen (e : Engine) (code : ResultCode) : (complete code e).rxLen = e.rxLen := rfl
@[simp] theorem complete_txBuf (e : Engine) (code : ResultCode) : (complete code e).txBuf = e.txBuf := rfl
@[simp] theorem complete_txLen (e : Engine) (code : ResultCode) : (complete code e).txLen = e.txLen := rfl
@[simp] theorem complete_pkt (e : Engine) (code : ResultCode) : (complete code e).pkt = e.pkt := rfl
@[simp] theorem complete_status (e : Engine) (code : ResultCode) : (complete code e).status = code := rfl
@[simp] theorem complete_lastErr (e : Engine) (code : ResultCode) : (complete code e).lastErr = e.lastErr := rfl
@[simp] theorem complete_hb (e : Engine) (code : ResultCode) : (complete code e).hb = e.hb := rfl
@[simp] theorem complete_fw (e : Engine) (code : ResultCode) : (complete code e).fw = e.fw := rfl

@[simp] theorem latchTransaction_phase (e : Engine) (addr : Byte) (hasData : Bool) (d4 : Bytes4) : (latchTransaction addr hasData d4 e).phase = .send := rfl
@[simp] theorem latchTransaction_cmdOp (e : Engine) (addr : Byte) (hasData : Bool) (d4 : Bytes4) : (latchTransaction addr hasData d4 e).cmdOp = e.cmdOp := rfl
@[simp] theorem latchTransaction_cmdAddr (e : Engine) (addr : Byte) (hasData : Bool) (d4 : Bytes4) : (latchTransaction addr hasData d4 e).cmdAddr = addr := rfl
@[simp] theorem latchTransaction_cmdHasData (e : Engine) (addr : Byte) (hasData : Bool) (d4 : Bytes4) : (latchTransaction addr hasData d4 e).cmdHasData = hasData := rfl
@[simp] theorem latchTransaction_cmdData (e : Engine) (addr : Byte) (hasData : Bool) (d4 : Bytes4) : (latchTransaction addr hasData d4 e).cmdData = (if hasData then d4 else e.cmdData) := rfl
@[simp] theorem latchTransaction_attempts (e : Engine) (addr : Byte) (hasData : Bool) (d4 : Bytes4) : (latchTransaction addr hasData d4 e).attempts = 0 := rfl
@[simp] theorem latchTransaction_rxBuf (e : Engine) (addr : Byte) (hasData : Bool) (d4 : Bytes4) : (latchTransaction addr hasData d4 e).rxBuf = e.rxBuf := rfl
@[simp] theorem latchTransaction_rxLen (e : Engine) (addr : Byte) (hasData : Bool) (d4 : Bytes4) : (latchTransaction addr hasData d4 e).rxLen = e.rxLen := rfl
@[simp] theorem latchTransaction_txBuf (e : Engine) (addr : Byte) (hasData : Bool) (d4 : Bytes4) : (latchTransaction addr hasData d4 e).txBuf = e.txBuf := rfl
@[simp] theorem latchTransaction_txLen (e : Engine) (addr : Byte) (hasData : Bool) (d4 : Bytes4) : (latchTransaction addr hasData d4 e).txLen = e.txLen := rfl
@[simp] theorem latchTransaction_pkt (e : Engine) (addr : Byte) (hasData : Bool) (d4 : Bytes4) : (latchTransaction addr hasData d4 e).pkt = none := rfl
@[simp] theorem latchTransaction_status (e : Engine) (addr : Byte) (hasData : Bool) (d4 : Bytes4) : (latchTransaction addr hasData d4 e).status = .noCode := rfl
@[simp] theorem latchTransaction_lastErr (e : Engine) (addr : Byte) (hasData : Bool) (d4 : Bytes4) : (latchTransaction addr hasData d4 e).lastErr = .noCode := rfl
@[simp] theorem latchTransaction_hb (e : Engine) (addr : Byte) (hasData : Bool) (d4 : Bytes4) : (latchTransaction addr hasData d4 e).hb = e.hb := rfl
@[simp] theorem latchTransaction_fw (e : Engine) (addr : Byte) (hasData : Bool) (d4 : Bytes4) : (latchTransaction addr hasData d4 e).fw = (if e.cmdOp = .getFwVersion then none else e.fw) := rfl

end Sys2Proof.Machine
end

