-- ==== Sys2Proof/Laws/Memory.lean ====
section
/-! SUPPORT. The laws of the buffers: reads after writes, the canonical form, and what a store and a load do. -/

namespace Sys2Proof.Machine

theorem Memory.find_write (m : Memory) (i j : Nat) (v : Byte) :
    Memory.find (Memory.write m i v) j = if j = i then some v else Memory.find m j := by
  induction m with
  | nil => simp only [Memory.write, Memory.find, eq_comm]
  | cons cell m ih =>
    obtain ⟨a, b⟩ := cell
    rw [Memory.write]
    split
    · simp only [Memory.find, eq_comm]
    · split
      · subst i
        by_cases h : j = a
        · simp [Memory.find, h]
        · simp [Memory.find, h, Ne.symm h]
      · simp only [Memory.find]
        rw [ih]
        by_cases h : a = j
        · subst h
          have : a ≠ i := by omega
          simp [this]
        · simp [h]

theorem Memory.read_write (free : Nat → Byte) (m : Memory) (i j : Nat) (v : Byte) :
    Memory.read free (Memory.write m i v) j = if j = i then v else Memory.read free m j := by
  unfold Memory.read
  rw [Memory.find_write]
  split <;> rfl

theorem Memory.mem_write {m : Memory} {i : Nat} {v : Byte} {cell : Host.Cell}
    (h : cell ∈ Memory.write m i v) : cell = (i, v) ∨ cell ∈ m := by
  induction m with
  | nil => simpa [Memory.write] using h
  | cons c m ih =>
    obtain ⟨a, b⟩ := c
    rw [Memory.write] at h
    split at h
    · simpa using h
    · split at h
      · rcases List.mem_cons.1 h with h | h
        · exact .inl h
        · exact .inr (List.mem_cons_of_mem _ h)
      · rcases List.mem_cons.1 h with h | h
        · exact .inr (h ▸ List.mem_cons_self)
        · exact (ih h).imp id (List.mem_cons_of_mem _)

/-- A write keeps the canonical form. -/
theorem Memory.wf_write {m : Memory} (i : Nat) (v : Byte) (h : Memory.wf m) : Memory.wf (Memory.write m i v) := by
  induction m with
  | nil => simp [Memory.write, Memory.wf]
  | cons c m ih =>
    obtain ⟨a, b⟩ := c
    obtain ⟨h1, h2⟩ := List.pairwise_cons.1 h
    rw [Memory.write]
    split
    · rename_i hlt
      refine List.pairwise_cons.2 ⟨?_, h⟩
      intro d hd
      rcases List.mem_cons.1 hd with rfl | hd
      · exact hlt
      · exact Nat.lt_trans hlt (h1 d hd)
    · split
      · rename_i heq
        subst heq
        exact List.pairwise_cons.2 ⟨h1, h2⟩
      · refine List.pairwise_cons.2 ⟨?_, ih h2⟩
        intro d hd
        rcases Memory.mem_write hd with rfl | hd
        · show a < i
          omega
        · exact h1 d hd

theorem Memory.find_writeBytes (bs : List Byte) (m : Memory) (i j : Nat) :
    Memory.find (Memory.writeBytes m i bs) j =
      if i ≤ j ∧ j < i + bs.length then bs[j - i]? else Memory.find m j := by
  induction bs generalizing m i with
  | nil => simp [Memory.writeBytes]
  | cons b bs ih =>
    rw [Memory.writeBytes, ih, Memory.find_write]
    rcases Nat.lt_trichotomy j i with h | h | h
    · have h1 : ¬(i + 1 ≤ j ∧ j < i + 1 + bs.length) := by omega
      have h2 : ¬(i ≤ j ∧ j < i + (b :: bs).length) := by simp; omega
      have h3 : j ≠ i := by omega
      rw [if_neg h1, if_neg h2, if_neg h3]
    · subst h
      simp
    · have h3 : j ≠ i := by omega
      obtain ⟨k, rfl⟩ : ∃ k, j = i + 1 + k := ⟨j - (i + 1), by omega⟩
      have h4 : i + 1 + k - i = k + 1 := by omega
      have h5 : i + 1 + k - (i + 1) = k := by omega
      rw [h4, h5, List.getElem?_cons_succ]
      by_cases h6 : k < bs.length
      · rw [if_pos (by omega), if_pos (by simp only [List.length_cons]; omega)]
      · rw [if_neg (by omega), if_neg h3, if_neg (by simp only [List.length_cons]; omega)]

theorem Memory.read_writeBytes (free : Nat → Byte) (bs : List Byte) (m : Memory) (j : Nat) :
    Memory.read free (Memory.writeBytes m 0 bs) j = bs.getD j (Memory.read free m j) := by
  unfold Memory.read
  rw [Memory.find_writeBytes, List.getD_eq_getElem?_getD]
  by_cases h : j < bs.length
  · rw [if_pos (by omega), Nat.sub_zero, List.getElem?_eq_getElem h]; rfl
  · rw [if_neg (by omega), List.getElem?_eq_none (by omega)]; rfl

theorem Memory.wf_writeBytes (bs : List Byte) {m : Memory} (i : Nat) (h : Memory.wf m) :
    Memory.wf (Memory.writeBytes m i bs) := by
  induction bs generalizing m i with
  | nil => exact h
  | cons b bs ih => exact ih (i + 1) (Memory.wf_write i b h)

theorem Memory.mem_writeBytes {bs : List Byte} {m : Memory} {i : Nat} {cell : Host.Cell}
    (h : cell ∈ Memory.writeBytes m i bs) : cell.1 < i + bs.length ∨ cell ∈ m := by
  induction bs generalizing m i with
  | nil => exact .inr h
  | cons b bs ih =>
    rcases ih h with h | h
    · left; simp; omega
    · rcases Memory.mem_write h with rfl | h
      · left; simp
      · exact .inr h

/-- The buffers of the reset state are in canonical form. -/
theorem Memory.wf_reset : Memory.wf State.reset.eng.rxBuf ∧ Memory.wf State.reset.eng.txBuf :=
  ⟨List.Pairwise.nil, List.Pairwise.nil⟩

/-- What reading `n` bytes answers: one read each. -/
theorem Memory.readBytes_spec (free : Nat → Byte) (m : Memory) (i n : Nat) :
    (Memory.readBytes free m i n).length = n ∧
      ∀ k < n, (Memory.readBytes free m i n)[k]? = some (Memory.read free m (i + k)) := by
  induction n generalizing i with
  | zero => exact ⟨rfl, fun k hk => absurd hk (by omega)⟩
  | succ n ih =>
    obtain ⟨h1, h2⟩ := ih (i + 1)
    refine ⟨by rw [Memory.readBytes, List.length_cons, h1], fun k hk => ?_⟩
    cases k with
    | zero => rfl
    | succ k =>
      rw [Memory.readBytes, List.getElem?_cons_succ, h2 k (by omega)]
      congr 2; omega

/-- Everything a store can do: it fits, the bytes stand at offset 0 and up, all else is as before, and the form holds. -/
theorem storeBytes_spec {size : Nat} {m m' : Memory} {bytes : List Byte} (h : storeBytes size m bytes = some m') :
    bytes.length ≤ size ∧ m' = Memory.writeBytes m 0 bytes ∧
    (∀ a, Memory.find m' a = if a < bytes.length then bytes[a]? else Memory.find m a) ∧
    (∀ free a, Memory.read free m' a = bytes.getD a (Memory.read free m a)) ∧
    (Memory.wf m → Memory.wf m') ∧
    ((∀ cell ∈ m, cell.1 < size) → ∀ cell ∈ m', cell.1 < size) := by
  unfold storeBytes at h
  split at h
  · rename_i hle
    obtain rfl := Option.some.inj h
    refine ⟨hle, rfl, ?_, fun free a => Memory.read_writeBytes free bytes m a, Memory.wf_writeBytes bytes 0, ?_⟩
    · intro a
      simpa using Memory.find_writeBytes bytes m 0 a
    · intro hm cell hc
      rcases Memory.mem_writeBytes hc with h | h
      · omega
      · exact hm cell h
  · exact absurd h (by simp)

theorem storeBytes_fits {size : Nat} (m : Memory) {bytes : List Byte} (h : bytes.length ≤ size) :
    storeBytes size m bytes = some (Memory.writeBytes m 0 bytes) := by
  unfold storeBytes; rw [if_pos h]

/-- Everything a load can do: it is refused exactly beyond the size, and answers one read each. -/
theorem loadBytes_spec {size n : Nat} {free : Nat → Byte} {m : Memory} {bytes : List Byte} :
    loadBytes size free m n = some bytes ↔
      n ≤ size ∧ bytes.length = n ∧ ∀ k < n, bytes[k]? = some (Memory.read free m k) := by
  obtain ⟨h1, h2⟩ := Memory.readBytes_spec free m 0 n
  simp only [Nat.zero_add] at h2
  unfold loadBytes
  split
  · rename_i hle
    constructor
    · intro h
      obtain rfl := Option.some.inj h
      exact ⟨hle, h1, h2⟩
    · rintro ⟨-, h3, h4⟩
      refine congrArg some (List.ext_getElem? fun k => ?_)
      by_cases hk : k < n
      · rw [h2 k hk, h4 k hk]
      · rw [List.getElem?_eq_none (by omega), List.getElem?_eq_none (by omega)]
  · simp; omega

/-- A load of what was stored gives it back, whatever the free contents. -/
theorem loadBytes_storeBytes {size : Nat} {m m' : Memory} {bytes : List Byte} (free : Nat → Byte)
    (h : storeBytes size m bytes = some m') : loadBytes size free m' bytes.length = some bytes := by
  obtain ⟨h1, -, -, h2, -, -⟩ := storeBytes_spec h
  refine loadBytes_spec.2 ⟨h1, rfl, fun k hk => ?_⟩
  rw [h2 free k, List.getD_eq_getElem?_getD, List.getElem?_eq_getElem hk]; rfl

/-- A load inside the size always answers. -/
theorem loadBytes_fits {size n : Nat} (free : Nat → Byte) (m : Memory) (h : n ≤ size) :
    loadBytes size free m n = some (Memory.readBytes free m 0 n) := by
  unfold loadBytes; rw [if_pos h]

/-- Everything `storeTx` can do. -/
theorem storeTx_spec {bytes : List Byte} {e e' : Engine} (h : storeTx bytes e = some e') :
    ∃ m, storeBytes txBufSize e.txBuf bytes = some m ∧ e' = { e with txBuf := m, txLen := bytes.length } := by
  unfold storeTx at h
  obtain ⟨m, hm, rfl⟩ := Option.map_eq_some_iff.1 h
  exact ⟨m, hm, rfl⟩

theorem storeTx_fits (e : Engine) {bytes : List Byte} (h : bytes.length ≤ txBufSize) :
    storeTx bytes e = some { e with txBuf := Memory.writeBytes e.txBuf 0 bytes, txLen := bytes.length } := by
  unfold storeTx; rw [storeBytes_fits _ h]; rfl

/-- Everything `storeRx` can do. -/
theorem storeRx_spec {c : Config} {bytes : List Byte} {e e' : Engine} (h : storeRx c bytes e = some e') :
    ∃ m, storeBytes c.rxBufSize e.rxBuf bytes = some m ∧ e' = { e with rxBuf := m, rxLen := bytes.length } := by
  unfold storeRx at h
  obtain ⟨m, hm, rfl⟩ := Option.map_eq_some_iff.1 h
  exact ⟨m, hm, rfl⟩

theorem storeRx_fits (c : Config) (e : Engine) {bytes : List Byte} (h : bytes.length ≤ c.rxBufSize) :
    storeRx c bytes e = some { e with rxBuf := Memory.writeBytes e.rxBuf 0 bytes, rxLen := bytes.length } := by
  unfold storeRx; rw [storeBytes_fits _ h]; rfl

/-- The bytes loaded for transmission are TX_LEN many. -/
theorem loadTx_length {e : Engine} {bytes : List Byte} (h : loadTx e = some bytes) : bytes.length = e.txLen :=
  (loadBytes_spec.1 h).2.1

/-- The bytes loaded for decoding are RX_LEN many. -/
theorem loadRx_length {c : Config} {e : Engine} {bytes : List Byte} (h : loadRx c e = some bytes) :
    bytes.length = e.rxLen :=
  (loadBytes_spec.1 h).2.1

end Sys2Proof.Machine
end

