-- ==== Sys2Proof/Laws/Codec.lean ====
section
/-! SUPPORT. The laws of operand fields and of the codec's building blocks. -/

namespace Sys2Proof

/-! ## Byte order and the fields of `packet_type` -/

@[simp] theorem be16_hi_lo (w : Word16) : be16 (hiByte w) (loByte w) = w := by
  unfold be16 hiByte loByte
  ext i hi
  simp only [BitVec.getElem_append, BitVec.getElem_extractLsb']
  split
  · simp [BitVec.getLsbD_eq_getElem hi]
  · rw [show 8 + (i - 8) = i by omega, BitVec.getLsbD_eq_getElem hi]

@[simp] theorem hiByte_be16 (h l : Byte) : hiByte (be16 h l) = h := by
  unfold be16 hiByte
  ext i hi
  rw [BitVec.getElem_extractLsb']
  refine (BitVec.getLsbD_append (x := h) (y := l)).trans ?_
  rw [if_neg (by omega), show 8 + i - 8 = i by omega, BitVec.getLsbD_eq_getElem hi]

@[simp] theorem loByte_be16 (h l : Byte) : loByte (be16 h l) = l := by
  unfold be16 loByte
  ext i hi
  rw [BitVec.getElem_extractLsb']
  refine (BitVec.getLsbD_append (x := h) (y := l)).trans ?_
  rw [if_pos (by omega), show 0 + i = i by omega, BitVec.getLsbD_eq_getElem hi]

@[simp] theorem hasData_packetType (d b : Bool) (l : BitVec 4) (r f : Bool) : hasData (packetType d b l r f) = d := by
  revert d b l r f; decide

@[simp] theorem isBatch_packetType (d b : Bool) (l : BitVec 4) (r f : Bool) : isBatch (packetType d b l r f) = b := by
  revert d b l r f; decide

@[simp] theorem batchLength_packetType (d b : Bool) (l : BitVec 4) (r f : Bool) :
    batchLength (packetType d b l r f) = l := by
  revert d b l r f; decide

@[simp] theorem bit1_packetType (d b : Bool) (l : BitVec 4) (r f : Bool) : bit1 (packetType d b l r f) = r := by
  revert d b l r f; decide

@[simp] theorem cf_packetType (d b : Bool) (l : BitVec 4) (r f : Bool) : cf (packetType d b l r f) = f := by
  revert d b l r f; decide

/-- A `packet_type` byte is its five fields. -/
theorem packetType_fields (pt : Byte) :
    packetType (hasData pt) (isBatch pt) (batchLength pt) (bit1 pt) (cf pt) = pt := by
  revert pt; decide

theorem dataLength_le (pt : Byte) : dataLength pt ≤ 60 := by
  revert pt; decide

@[simp] theorem Bytes4.toList_length (d : Bytes4) : d.toList.length = 4 := rfl

/-- The first four bytes exist exactly when there are four. -/
theorem firstFour_eq_none {data : List Byte} : firstFour data = none ↔ data.length < 4 := by
  match data with
  | [] => simp [firstFour]
  | [_] => simp [firstFour]
  | [_, _] => simp [firstFour]
  | [_, _, _] => simp [firstFour]
  | _ :: _ :: _ :: _ :: _ => simp [firstFour]

/-- Which four bytes they are. -/
theorem firstFour_of_length {data : List Byte} (h : 4 ≤ data.length) :
    firstFour data = some ⟨data.getD 0 0, data.getD 1 0, data.getD 2 0, data.getD 3 0⟩ := by
  match data with
  | [] => simp at h
  | [_] => simp at h
  | [_, _] => simp at h
  | [_, _, _] => simp at h
  | _ :: _ :: _ :: _ :: _ => rfl

@[simp] theorem OpCode.ofCode_toBits (op : OpCode) : OpCode.ofCode op.toBits.toNat = op := by
  cases op <;> rfl

@[simp] theorem OpCode.toByte_toNat (op : OpCode) : op.toByte.toNat = op.toBits.toNat := by
  cases op <;> rfl

@[simp] theorem bitOfByte_byteOfBit (b : Bool) : bitOfByte (byteOfBit b) = some b := by
  cases b <;> rfl

@[simp] theorem frameBytes_length (pt addr : Byte) (data : List Byte) (csum : Word16) :
    (frameBytes pt addr data csum).length = data.length + 7 := by
  simp [frameBytes, header, marker]

/-- A frame as a list of its bytes. -/
theorem frameBytes_eq (pt addr : Byte) (data : List Byte) (csum : Word16) :
    frameBytes pt addr data csum = 0x73 :: 0x6E :: 0x70 :: pt :: addr :: (data ++ [hiByte csum, loByte csum]) := by
  simp [frameBytes, header, marker]

namespace Machine

/-! ## The checksum -/

@[simp] theorem byteSum_append (a b : List Byte) : byteSum (a ++ b) = byteSum a + byteSum b := by
  induction a with
  | nil => simp [byteSum]
  | cons x xs ih => simp [byteSum, ih, BitVec.add_assoc]

/-- The checksum split into what the header and what the data contribute (R91). -/
theorem checksum_eq (pt addr : Byte) (data : List Byte) :
    checksum pt addr data = 337 + pt.setWidth 16 + addr.setWidth 16 + byteSum data := by
  have h : ∀ a b c : Word16, (0x73 : Word16) + (0x6E + (0x70 + (a + (b + 0)))) + c = 337 + a + b + c := by
    intro a b c
    have : (337 : Word16) = 0x73 + 0x6E + 0x70 := by decide
    rw [this]
    have z : (b + 0 : Word16) = b := BitVec.add_zero b
    rw [z]
    simp only [BitVec.add_assoc]
  rw [checksum, byteSum_append]
  exact h _ _ _

/-- The sum of the bytes as numbers, modulo 65536. -/
theorem byteSum_toNat (l : List Byte) : (byteSum l).toNat = (l.map BitVec.toNat).sum % 65536 := by
  induction l with
  | nil => rfl
  | cons x xs ih =>
    simp only [byteSum, BitVec.toNat_add, ih, List.map_cons, List.sum_cons, BitVec.toNat_setWidth]
    omega

@[simp] theorem encodeFrame_length (pt addr : Byte) (data : List Byte) :
    (encodeFrame pt addr data).length = data.length + 7 := by
  simp [encodeFrame]

/-- A request has at most 12 bytes (00_scope.md R6). -/
theorem buildRequest_length (t : Bool) (addr : Byte) (h : Bool) (d4 : Bytes4) :
    (buildRequest t addr h d4).length = (if h then 11 else 7) + (if t then 1 else 0) := by
  cases t <;> cases h <;> simp [buildRequest]

theorem buildRequest_fits (t : Bool) (addr : Byte) (h : Bool) (d4 : Bytes4) :
    (buildRequest t addr h d4).length ≤ txBufSize := by
  rw [buildRequest_length]; cases t <;> cases h <;> decide

/-- Without data the operand `d4` does not matter (41_transaction.md R135). -/
theorem buildRequest_noData (t : Bool) (addr : Byte) (d d' : Bytes4) :
    buildRequest t addr false d = buildRequest t addr false d' := rfl

/-! ## The scan -/

theorem markerAt_eq_true {l : List Byte} :
    markerAt l = true ↔ ∃ rest, l = 0x73 :: 0x6E :: 0x70 :: rest := by
  constructor
  · intro h
    match l with
    | [] => simp [markerAt] at h
    | [_] => simp [markerAt] at h
    | [_, _] => simp [markerAt] at h
    | a :: b :: c :: rest =>
      simp only [markerAt, marker, beq_iff_eq, List.cons.injEq, and_true] at h
      obtain ⟨rfl, rfl, rfl⟩ := h
      exact ⟨rest, rfl⟩
  · rintro ⟨rest, rfl⟩; rfl

/-- The marker's three bytes differ from each other, so no two markers overlap in fewer than three offsets. -/
theorem markerAt_cons_of_ne {b : Byte} {l : List Byte} (h : b ≠ 0x73) : markerAt (b :: l) = false := by
  match l with
  | [] => rfl
  | [_] => rfl
  | c :: d :: rest =>
    simp only [markerAt, marker, beq_eq_false_iff_ne, ne_eq, List.cons.injEq, not_and]
    exact fun hb => absurd hb h

/-- The scan at a candidate (R97). -/
theorem scan_marker (rescan : Bool) (expect : Option Byte) (rest : List Byte) (seen : Bool) :
    scan rescan expect (0x73 :: 0x6E :: 0x70 :: rest) seen =
      match tryCandidate expect (0x73 :: 0x6E :: 0x70 :: rest) with
      | .ends r => r
      | .otherAddress =>
        if rescan then scan rescan expect (0x6E :: 0x70 :: rest) true else .error .addressMismatch := by
  rw [scan]
  exact if_pos rfl

/-- The scan where no marker stands (R97). -/
theorem scan_skip (rescan : Bool) (expect : Option Byte) (b : Byte) (rest : List Byte) (seen : Bool)
    (h : markerAt (b :: rest) = false) : scan rescan expect (b :: rest) seen = scan rescan expect rest seen := by
  rw [scan, if_neg (by simp [h])]

/-- Everything a candidate can come to (R97 steps 3 to 8), by its bytes after the header. -/
theorem tryCandidate_eq (expect : Option Byte) (pt addr : Byte) (rest : List Byte) :
    tryCandidate expect (0x73 :: 0x6E :: 0x70 :: pt :: addr :: rest) =
      if rest.length < dataLength pt + 2 then .ends (.error .truncated)
      else if expect ≠ none ∧ expect ≠ some addr then .otherAddress
      else if checksum pt addr (rest.take (dataLength pt)) =
          be16 (rest.getD (dataLength pt) 0) (rest.getD (dataLength pt + 1) 0) then
        .ends (.ok ⟨pt, addr, rest.take (dataLength pt),
          be16 (rest.getD (dataLength pt) 0) (rest.getD (dataLength pt + 1) 0)⟩)
      else .ends (.error .badChecksum) := by
  unfold tryCandidate
  simp only [List.length_cons, List.getD_cons_succ, List.getD_cons_zero, List.drop_succ_cons, List.drop_zero]
  by_cases h : rest.length < 2
  · rw [if_pos (by omega), if_pos (by omega)]
  · rw [if_neg (by omega)]
    by_cases h2 : rest.length < dataLength pt + 2
    · rw [if_pos (by omega), if_pos h2]
    · rw [if_neg (by omega), if_neg h2]

/-- A candidate with fewer than five bytes is truncated. -/
theorem tryCandidate_short (expect : Option Byte) {cand : List Byte} (h : cand.length < 7) :
    tryCandidate expect cand = .ends (.error .truncated) := by
  unfold tryCandidate; rw [if_pos h]

/-- A packet that the scan answers is one its candidate answered. -/
theorem tryCandidate_ok {expect : Option Byte} {cand : List Byte} {p : Packet}
    (h : tryCandidate expect cand = .ends (.ok p)) :
    p.data.length = dataLength p.ptype ∧ p.csum = checksum p.ptype p.address p.data ∧
      (∀ a, expect = some a → p.address = a) := by
  unfold tryCandidate at h
  split at h
  · simp at h
  · simp only at h
    split at h
    · simp at h
    · split at h
      · simp at h
      · split at h
        · rename_i h1 h2 h3 h4
          simp only [Candidate.ends.injEq, Except.ok.injEq] at h
          subst h
          refine ⟨?_, h4.symm, ?_⟩
          · simp only [List.length_take, List.length_drop]; omega
          · intro a ha
            subst ha
            by_contra hne
            exact h3 ⟨by simp, by simpa using Ne.symm hne⟩
        · simp at h

/-- Every packet `Decode` answers is well-formed and carries the expected address (R93, R97). -/
theorem scan_ok {rescan : Bool} {expect : Option Byte} {buf : List Byte} {seen : Bool} {p : Packet}
    (h : scan rescan expect buf seen = .ok p) :
    p.data.length = dataLength p.ptype ∧ p.csum = checksum p.ptype p.address p.data ∧
      (∀ a, expect = some a → p.address = a) := by
  induction buf generalizing seen with
  | nil => simp [scan] at h
  | cons b rest ih =>
    rw [scan] at h
    split at h
    · split at h
      · rename_i r hr
        subst h
        exact tryCandidate_ok hr
      · split at h
        · exact ih h
        · simp at h
    · exact ih h

theorem decodeFrame_ok {rescan : Bool} {expect : Option Byte} {buf : List Byte} {p : Packet}
    (h : decodeFrame rescan buf expect = .ok p) :
    p.data.length = dataLength p.ptype ∧ p.csum = checksum p.ptype p.address p.data ∧
      (∀ a, expect = some a → p.address = a) := by
  unfold decodeFrame at h
  split at h
  · simp at h
  · exact scan_ok h

end Machine

end Sys2Proof
end

