-- ==== Sys2Proof/Laws/Ops.lean ====
section
/-! SUPPORT. For each shared operation one lemma that says once everything it can do. -/

namespace Sys2Proof.Machine

/-! ## The Byte Source -/

/-- Everything `BS.write` can do. -/
theorem ByteSource.write_spec {bytes : List Byte} {b b' : ByteSource} {r : WriteResult}
    (h : ByteSource.write bytes b = some (r, b')) :
    b'.inbound = b.inbound ∧ b'.readAnswers = b.readAnswers ∧
    ((∃ k later, b.writeAnswers = .upTo k :: later ∧ b'.writeAnswers = later ∧ r = .count (min k bytes.length) ∧
        b'.outbound = b.outbound ++ bytes.take k) ∨
      (∃ later, b.writeAnswers = .failure :: later ∧ b'.writeAnswers = later ∧ r = .failure ∧
        b'.outbound = b.outbound)) := by
  unfold ByteSource.write at h
  split at h
  · simp at h
  · rename_i later heq
    simp only [Option.some.injEq, Prod.mk.injEq] at h
    obtain ⟨rfl, rfl⟩ := h
    exact ⟨rfl, rfl, .inr ⟨later, heq, rfl, rfl, rfl⟩⟩
  · rename_i k later heq
    simp only [Option.some.injEq, Prod.mk.injEq] at h
    obtain ⟨rfl, rfl⟩ := h
    exact ⟨rfl, rfl, .inl ⟨k, later, heq, rfl, rfl, rfl⟩⟩

/-- Everything `BS.read` can do. -/
theorem ByteSource.read_spec {max : Nat} {b b' : ByteSource} {r : ReadResult}
    (h : ByteSource.read max b = some (r, b')) :
    b'.outbound = b.outbound ∧ b'.writeAnswers = b.writeAnswers ∧
    ((∃ bytes, r = .bytes bytes ∧ bytes.length ≤ max ∧ b.inbound = bytes ++ b'.inbound) ∨
      (r = .failure ∧ b'.inbound = b.inbound)) ∧
    b.readAnswers.length = b'.readAnswers.length + 1 := by
  unfold ByteSource.read at h
  split at h
  · simp at h
  · rename_i later heq
    simp only [Option.some.injEq, Prod.mk.injEq] at h
    obtain ⟨rfl, rfl⟩ := h
    exact ⟨rfl, rfl, .inr ⟨rfl, rfl⟩, by simp [heq]⟩
  · rename_i k later heq
    simp only [Option.some.injEq, Prod.mk.injEq] at h
    obtain ⟨rfl, rfl⟩ := h
    refine ⟨rfl, rfl, .inl ⟨_, rfl, ?_, ?_⟩, by simp [heq]⟩
    · simp only [List.length_take]; omega
    · simp

/-- One poll of a receive attempt (20_memory.md R46). -/
theorem rxAttempt_succ (max polls : Nat) (b : ByteSource) :
    rxAttempt max (polls + 1) b =
      match ByteSource.read max b with
      | none => none
      | some (.failure, b') => some (.ioError, b')
      | some (.bytes [], b') => rxAttempt max polls b'
      | some (.bytes (x :: xs), b') => some (.bytes (x :: xs), b') := rfl

/-! ## Completion and commit -/

/-- Everything `HealthUpdate` can do: the heartbeat register, and nothing else. -/
theorem healthUpdate_spec (c : Config) (p : Packet) (e : Engine) :
    ∃ h, healthUpdate c p e = { e with hb := h } ∧
      (h = e.hb ∨ p.address = c.addrHealth ∧ p.cf = false ∧ ∃ d, firstFour p.data = some d ∧ h = some (be32 d)) := by
  unfold healthUpdate
  split
  · rename_i d hd
    split
    · rename_i hc
      exact ⟨_, rfl, .inr ⟨hc.1, hc.2, d, hd, rfl⟩⟩
    · exact ⟨e.hb, rfl, .inl rfl⟩
  · exact ⟨e.hb, rfl, .inl rfl⟩

/-- Everything `CommitPacket` can do: the packet and the heartbeat, and nothing else. -/
theorem commitPacket_spec (c : Config) (p : Packet) (e : Engine) :
    ∃ h, commitPacket c p e = { e with pkt := some p, hb := h } ∧
      (h = e.hb ∨ p.address = c.addrHealth ∧ p.cf = false ∧ ∃ d, firstFour p.data = some d ∧ h = some (be32 d)) :=
  healthUpdate_spec c p { e with pkt := some p }

/-- Everything `fw_post` can do. -/
theorem fwPost_spec (p : Packet) (e : Engine) :
    (∃ d, firstFour p.data = some d ∧ fwPost p e = complete .ok { e with fw := some d }) ∨
    (p.data.length < 4 ∧ fwPost p e = complete .malformedResponse e) := by
  unfold fwPost
  split
  · rename_i d hd
    exact .inl ⟨d, hd, rfl⟩
  · rename_i hd
    exact .inr ⟨firstFour_eq_none.1 hd, rfl⟩

/-- Everything `finish_ok` can do. -/
theorem finishOk_spec (p : Packet) (e : Engine) :
    finishOk p e = complete .ok e ∨
    (e.cmdOp = .getFwVersion ∧ ∃ d, finishOk p e = complete .ok { e with fw := some d }) ∨
    (e.cmdOp = .getFwVersion ∧ p.data.length < 4 ∧ finishOk p e = complete .malformedResponse e) := by
  unfold finishOk
  split
  · rename_i hop
    rcases fwPost_spec p e with ⟨d, _, h⟩ | ⟨hd, h⟩
    · exact .inr (.inl ⟨hop, d, h⟩)
    · exact .inr (.inr ⟨hop, hd, h⟩)
  · exact .inl rfl

/-- Everything `fail_attempt` can do: LAST_ERR is written, and the operation completes or sends again. -/
theorem failAttempt_spec (c : Config) (code : ResultCode) (e : Engine) :
    (e.cmdOp = .recv ∧ failAttempt c code e = { e with lastErr := code, status := code, phase := .idle }) ∨
    (e.cmdOp ≠ .recv ∧ e.attempts = c.maxAttempts ∧
      failAttempt c code e = { e with lastErr := code, status := .noResponse, phase := .idle }) ∨
    (e.cmdOp ≠ .recv ∧ e.attempts ≠ c.maxAttempts ∧
      failAttempt c code e = { e with lastErr := code, phase := .send }) := by
  unfold failAttempt
  split
  · rename_i h
    exact .inl ⟨h, rfl⟩
  · rename_i h
    split
    · rename_i h2
      exact .inr (.inl ⟨h, h2, rfl⟩)
    · rename_i h2
      exact .inr (.inr ⟨h, h2, rfl⟩)

/-! ## Acceptance and refusal -/

/-- An issue to an idle ENGINE is accepted (41_transaction.md R121). -/
theorem issue_idle {op : OpCode} {first : State → Result} {s : State} (h : s.eng.phase = .idle) :
    issue op first s = first (latchOp op s) := by
  unfold issue; rw [if_pos h]

/-- An issue while BUSY is refused (41_transaction.md R122). -/
theorem issue_busy {op : OpCode} {first : State → Result} {s : State} (h : s.eng.phase ≠ .idle) :
    issue op first s = .next (busyReject s) := by
  unfold issue; rw [if_neg h]

/-- What an issue that answers a next state did: it was refused, or its first step ran. -/
theorem issue_spec {op : OpCode} {first : State → Result} {s t : State} (h : issue op first s = .next t) :
    (s.eng.phase ≠ .idle ∧ t = busyReject s) ∨ (s.eng.phase = .idle ∧ first (latchOp op s) = .next t) := by
  by_cases hi : s.eng.phase = .idle
  · rw [issue_idle hi] at h; exact .inr ⟨hi, h⟩
  · rw [issue_busy hi] at h; exact .inl ⟨hi, (Host.Outcome.next.inj h).symm⟩

/-- Accepting a transaction always succeeds: a request fits the TX buffer (41_transaction.md R124). -/
theorem acceptTransaction_next (addr : Byte) (hasData : Bool) (d4 : Bytes4) (s : State) :
    ∃ m, storeBytes txBufSize s.eng.txBuf (buildRequest s.cfg.txTerminator addr hasData d4) = some m ∧
      acceptTransaction addr hasData d4 s = .next (s.withEng (latchTransaction addr hasData d4
        { s.eng with
          txBuf := m
          txLen := (buildRequest s.cfg.txTerminator addr hasData d4).length })) := by
  have hfit := buildRequest_fits s.cfg.txTerminator addr hasData d4
  refine ⟨_, storeBytes_fits s.eng.txBuf hfit, ?_⟩
  unfold acceptTransaction
  rw [storeTx_fits s.eng hfit]

/-- The one step of ENCODE always answers a next state: a frame fits the TX buffer (40_codec.md R95). -/
theorem encodeStep_next (pt addr : Byte) (data : List Byte) (s : State) :
    (data.length ≠ dataLength pt ∧
      encodeStep pt addr data s = .next (s.withEng (complete .illegalCommand s.eng))) ∨
    (data.length = dataLength pt ∧ ∃ m, storeBytes txBufSize s.eng.txBuf (encodeFrame pt addr data) = some m ∧
      encodeStep pt addr data s =
        .next (s.withEng (complete .ok { s.eng with txBuf := m, txLen := (encodeFrame pt addr data).length }))) := by
  unfold encodeStep
  by_cases h : data.length = dataLength pt
  · right
    have hfit : (encodeFrame pt addr data).length ≤ txBufSize := by
      have := dataLength_le pt
      rw [encodeFrame_length, h]
      unfold txBufSize; omega
    refine ⟨h, _, storeBytes_fits s.eng.txBuf hfit, ?_⟩
    rw [if_neg (by simp [h]), storeTx_fits s.eng hfit]
  · left
    exact ⟨h, by rw [if_pos h]; rfl⟩

/-- The one step of DECODE always answers a next state (40_codec.md R101). -/
theorem decodeStep_next (buf : List Byte) (expect : Option Byte) (s : State) :
    (s.cfg.rxBufSize < buf.length ∧
      decodeStep buf expect s = .next (s.withEng (complete .illegalCommand s.eng))) ∨
    (buf.length ≤ s.cfg.rxBufSize ∧ ∃ m, storeBytes s.cfg.rxBufSize s.eng.rxBuf buf = some m ∧
      decodeStep buf expect s = .next (s.withEng (settleDecode s.cfg (decodeFrame s.cfg.rescan buf expect)
        { s.eng with rxBuf := m, rxLen := buf.length }))) := by
  unfold decodeStep
  by_cases h : s.cfg.rxBufSize < buf.length
  · left
    exact ⟨h, by rw [if_pos h]; rfl⟩
  · right
    refine ⟨by omega, _, storeBytes_fits s.eng.rxBuf (by omega), ?_⟩
    rw [if_neg h, storeRx_fits s.cfg s.eng (by omega)]

end Sys2Proof.Machine
end

