-- ==== Sys2Proof/Laws/PerInstr.lean ====
section
/-! SUPPORT. The family `Header` over all instructions: how the encoding of each begins. -/

namespace Sys2Proof.Laws.Header

/-- The bytes of a frame begin with the sync marker and are at least seven (30_encoding.md R60, R61); the bytes of a
host operation begin with one of the sixteen operation codes (30_encoding.md R74, R75). -/
def Statement (i : Instr) : Prop :=
  ∀ c : Config,
    (i.port = .wire → (Sys2Proof.encode c i).take 3 = marker ∧ 7 ≤ (Sys2Proof.encode c i).length) ∧
    (i.port = .host → ∃ op : OpCode, (Sys2Proof.encode c i).head? = some op.toByte)

theorem of_frame {i : Instr} (hp : i.port = .wire)
    (h : ∀ c, ∃ pt addr data csum, Sys2Proof.encode c i = frameBytes pt addr data csum) : Statement i := by
  intro c
  obtain ⟨pt, addr, data, csum, e⟩ := h c
  refine ⟨fun _ => ?_, fun hh => absurd (hp.symm.trans hh) (by decide)⟩
  rw [e]
  exact ⟨rfl, by rw [frameBytes_length]; omega⟩

theorem of_operation {i : Instr} (hp : i.port = .host)
    (h : ∀ c, ∃ op : OpCode, (Sys2Proof.encode c i).head? = some op.toByte) : Statement i :=
  fun c => ⟨fun hh => absurd (hp.symm.trans hh) (by decide), fun _ => h c⟩

theorem frameNodata (b : Bool) (l : BitVec 4) (r f : Bool) (addr : Byte) (csum : Word16) :
    Statement (.frameNodata b l r f addr csum) := of_frame rfl fun _ => ⟨_, _, _, _, rfl⟩
theorem frameSingle (l : BitVec 4) (r f : Bool) (addr : Byte) (data : Bytes4) (csum : Word16) :
    Statement (.frameSingle l r f addr data csum) := of_frame rfl fun _ => ⟨_, _, _, _, rfl⟩
theorem frameBatch (l : BitVec 4) (r f : Bool) (addr : Byte) (data : List Byte) (csum : Word16) :
    Statement (.frameBatch l r f addr data csum) := of_frame rfl fun _ => ⟨_, _, _, _, rfl⟩
theorem encode (pt addr : Byte) (data : List Byte) : Statement (.encode pt addr data) :=
  of_operation rfl fun _ => ⟨.encode, rfl⟩
theorem decode (buf : List Byte) (expect : Option Byte) : Statement (.decode buf expect) :=
  of_operation rfl fun _ => ⟨.decode, by cases expect <;> rfl⟩
theorem decodeHealth (d4 : Bytes4) : Statement (.decodeHealth d4) := of_operation rfl fun _ => ⟨.decodeHealth, rfl⟩
theorem recv : Statement .recv := of_operation rfl fun _ => ⟨.recv, rfl⟩
theorem writeRegister (addr : Byte) (hasData : Bool) (d4 : Bytes4) : Statement (.writeRegister addr hasData d4) :=
  of_operation rfl fun _ => ⟨.writeRegister, rfl⟩
theorem readRegister (addr : Byte) : Statement (.readRegister addr) := of_operation rfl fun _ => ⟨.readRegister, rfl⟩
theorem getFwVersion : Statement .getFwVersion := of_operation rfl fun _ => ⟨.getFwVersion, rfl⟩
theorem factoryReset : Statement .factoryReset := of_operation rfl fun _ => ⟨.factoryReset, rfl⟩
theorem zeroGyros : Statement .zeroGyros := of_operation rfl fun _ => ⟨.zeroGyros, rfl⟩
theorem setHomePosition : Statement .setHomePosition := of_operation rfl fun _ => ⟨.setHomePosition, rfl⟩
theorem setMagReference : Statement .setMagReference := of_operation rfl fun _ => ⟨.setMagReference, rfl⟩
theorem resetEkf : Statement .resetEkf := of_operation rfl fun _ => ⟨.resetEkf, rfl⟩
theorem flashCommit : Statement .flashCommit := of_operation rfl fun _ => ⟨.flashCommit, rfl⟩
theorem reserved0 : Statement .reserved0 := of_operation rfl fun _ => ⟨.reserved0, rfl⟩
theorem reserved7 : Statement .reserved7 := of_operation rfl fun _ => ⟨.reserved7, rfl⟩
theorem reservedF : Statement .reservedF := of_operation rfl fun _ => ⟨.reservedF, rfl⟩
theorem readConfig (addr : Byte) : Statement (.readConfig addr) := of_operation rfl fun _ => ⟨.readRegister, rfl⟩
theorem pollHealth : Statement .pollHealth := of_operation rfl fun _ => ⟨.readRegister, rfl⟩

end Sys2Proof.Laws.Header
end

