-- ==== Sys2Proof/Laws/Step.lean ====
section
/-! SUPPORT. Lemmas over the terms of Safety.lean and over single steps and runs. -/

namespace Sys2Proof.Machine

/-! ## The codec in terms of offsets -/

/-- The marker stands at an offset exactly when it is at the front of the bytes from there on. -/
theorem markerAt_drop (buf : List Byte) (o : Nat) : markerAt (buf.drop o) = true ↔ markerStandsAt buf o := by
  rw [markerAt_eq_true]
  have g : ∀ k, buf[o + k]? = (buf.drop o)[k]? := fun k => List.getElem?_drop.symm
  constructor
  · rintro ⟨rest, h⟩
    refine ⟨?_, ?_, ?_⟩
    · rw [show o = o + 0 from rfl, g, h]; rfl
    · rw [g, h]; rfl
    · rw [g, h]; rfl
  · rintro ⟨h1, h2, h3⟩
    obtain ⟨l1, e1⟩ := List.getElem?_eq_some_iff.1 h1
    obtain ⟨l2, e2⟩ := List.getElem?_eq_some_iff.1 h2
    obtain ⟨l3, e3⟩ := List.getElem?_eq_some_iff.1 h3
    refine ⟨buf.drop (o + 3), ?_⟩
    rw [List.drop_eq_getElem_cons l1, List.drop_eq_getElem_cons l2, List.drop_eq_getElem_cons l3, e1, e2, e3]

/-- Three bytes decide whether the marker stands at the front. -/
theorem markerAt_append {l : List Byte} (after : List Byte) (h : 3 ≤ l.length) :
    markerAt (l ++ after) = markerAt l := by
  match l with
  | [] => simp at h
  | [_] => simp at h
  | [_, _] => simp at h
  | _ :: _ :: _ :: _ => rfl

/-! ## The heartbeat -/

/-- `HealthUpdate` in the term that claims use. -/
theorem healthUpdate_eq (c : Config) (p : Packet) (e : Engine) :
    healthUpdate c p e = { e with hb := hbAfter c p e.hb } := by
  unfold healthUpdate hbAfter
  by_cases h : 4 ≤ p.data.length
  · rw [firstFour_of_length h]
    by_cases hc : p.address = c.addrHealth ∧ p.ptype.getLsbD 0 = false
    · rw [if_pos ⟨hc.1, h, hc.2⟩]; exact if_pos hc
    · rw [if_neg (fun hn => hc ⟨hn.1, hn.2.2⟩)]; exact if_neg hc
  · rw [firstFour_eq_none.2 (by omega)]
    simp [h]

/-- `CommitPacket` in the term that claims use. -/
theorem commitPacket_eq (c : Config) (p : Packet) (e : Engine) :
    commitPacket c p e = { e with pkt := some p, hb := hbAfter c p e.hb } :=
  healthUpdate_eq c p { e with pkt := some p }

/-! ## Receive attempts -/

/-- The bytes that a receive attempt answers are at least one and at most the buffer's size. -/
theorem rxAttempt_bytes_length {max polls : Nat} {b b' : ByteSource} {bytes : List Byte}
    (h : rxAttempt max polls b = some (.bytes bytes, b')) : 1 ≤ bytes.length ∧ bytes.length ≤ max := by
  induction polls generalizing b with
  | zero => simp [rxAttempt] at h
  | succ n ih =>
    rw [rxAttempt_succ] at h
    cases hr : ByteSource.read max b with
    | none => simp [hr] at h
    | some answer =>
      obtain ⟨r, b1⟩ := answer
      rw [hr] at h
      have hspec := (ByteSource.read_spec hr).2.2.1
      cases r with
      | failure => simp at h
      | bytes l =>
        cases l with
        | nil => exact ih h
        | cons x xs =>
          simp only [Option.some.injEq, Prod.mk.injEq, RxResult.bytes.injEq] at h
          obtain ⟨rfl, rfl⟩ := h
          simp only [ReadResult.bytes.injEq, exists_eq_left', reduceCtorEq, false_and, or_false] at hspec
          exact ⟨by simp, hspec.1⟩

/-! ## Steps and runs -/

/-- With no input left ENGINE steps. -/
theorem step_noInputs {s : State} (h : s.env.inputs = []) : step s = engineStep s := by
  unfold step nextMove; rw [h]

/-- A run in two parts. -/
theorem run_add (m n : Nat) (s : State) :
    run (m + n) s =
      match run m s with
      | .next t => run n t
      | .fault f => .fault f
      | .refused r => .refused r := by
  induction m generalizing s with
  | zero => simp [run]
  | succ m ih =>
    rw [Nat.succ_add, run, run]
    cases step s with
    | next t => exact ih t
    | fault f => rfl
    | refused r => rfl

/-- A run whose first step answers a next state. -/
theorem run_succ_of_step {s t : State} (n : Nat) (h : step s = .next t) : run (n + 1) s = run n t := by
  rw [run, h]

end Sys2Proof.Machine
end

