-- ==== Sys2Proof/Tests/Slice0.lean ====
section
/-! SUPPORT. Tests of the model and witnesses of the statements. The expected bytes and codes are those of
95_test_vectors.md (the vector is named) and of the encoding tables of 30_encoding.md. -/

namespace Sys2Proof.Tests

open Sys2Proof.Machine

/-! ## Small states -/

/-- The parameters of the vectors: three attempts, and the addresses of 95_test_vectors.md sections 4 and 6. -/
def cfg : Config where
  maxAttempts := 3
  rxBufSize := 100
  pollLimit := 2
  pollInterval := 0
  txTerminator := true
  rescan := true
  addrHealth := 0x55
  addrGetFwVersion := 0xAA
  addrFactoryReset := 0xAC
  addrZeroGyros := 0x55
  addrSetHomePosition := 0xAE
  addrSetMagReference := 0xB0
  addrResetEkf := 0xB3
  addrFlashCommit := 0xAB
  hbBitGps := 0
  hbBitMag := 1
  hbBitGyro := 2
  hbBitAccel := 3
  hbBitAccNorm := 4
  hbBitMagNorm := 5
  hbBitOvf := 8

/-- A state with this ENGINE, these inputs, these bytes waiting and these answers to come. -/
def stateOf (e : Engine) (inputs : List Input) (inbound : List Byte) (ws : List WriteAnswer) (rs : List ReadAnswer) :
    State := ⟨cfg, e, ⟨inputs, .noIssue, ⟨inbound, [], ws, rs⟩⟩⟩

def idle : State := stateOf Engine.reset [] [] [] []

def frameF55 : List Byte := [0x73, 0x6E, 0x70, 0x00, 0x55, 0x01, 0xA6]
def frameR56 : List Byte := [0x73, 0x6E, 0x70, 0x80, 0x56, 0x3F, 0x80, 0x00, 0x00, 0x02, 0xE6]
def frameHB4 : List Byte := [0x73, 0x6E, 0x70, 0x80, 0x55, 0x00, 0x00, 0x00, 0x04, 0x02, 0x2A]
def frameCFAD : List Byte := [0x73, 0x6E, 0x70, 0x01, 0xAD, 0x01, 0xFF]
def requestR56 : List Byte := [0x73, 0x6E, 0x70, 0x00, 0x56, 0x01, 0xA7, 0x0A]
def packetF55 : Packet := ⟨0x00, 0x55, [], 0x01A6⟩
def packetR56 : Packet := ⟨0x80, 0x56, [0x3F, 0x80, 0x00, 0x00], 0x02E6⟩

/-- READ_REGISTER 0x56 in the middle: so many attempts made, this phase, these bytes received. -/
def reading (phase : Phase) (attempts : Nat) (received : List Byte) : Engine :=
  { Engine.reset with
    phase := phase
    cmdOp := .readRegister
    cmdAddr := 0x56
    attempts := attempts
    txBuf := Memory.writeBytes [] 0 requestR56
    txLen := 8
    rxBuf := Memory.writeBytes [] 0 received
    rxLen := received.length }

/-- RECV in the middle. -/
def receiving (phase : Phase) (received : List Byte) : Engine :=
  { Engine.reset with
    phase := phase
    cmdOp := .recv
    rxBuf := Memory.writeBytes [] 0 received
    rxLen := received.length }

def sendState : State := stateOf (reading .send 0 []) [] [] [.upTo 8] []

/-- What an outcome's next state shows. -/
def seen {α : Type} (r : Result) (f : State → α) : Option α :=
  match r with
  | .next t => some (f t)
  | .fault _ => none
  | .refused _ => none

/-! ## Well-formed terms -/

/-- 30_encoding.md R64: a batch of two registers has eight data bytes, not seven. -/
theorem test_wellFormed_refuses_batch_of_wrong_length :
    (Instr.frameBatch 2 false false 0x56 [1, 2, 3, 4, 5, 6, 7] 0).wellFormed = false := by decide
theorem test_wellFormed_accepts_batch :
    (Instr.frameBatch 2 false false 0x56 [1, 2, 3, 4, 5, 6, 7, 8] 0).wellFormed = true := by decide

/-! ## Decoding: words written out from 30_encoding.md R60 to R66, R75, R76 -/

/-- `0bllllrc` with b = 1, l = 15, r = 1, c = 1 (vector K25). -/
theorem test_decode_frameNodata :
    decode .wire [0x73, 0x6E, 0x70, 0x7F, 0x10, 0x01, 0xE0] = .ok (.frameNodata true 15 true true 0x10 0x01E0) := by
  decide
/-- `10llllrc` (W01). -/
theorem test_decode_frameSingle :
    decode .wire [0x73, 0x6E, 0x70, 0x80, 0x01, 0x00, 0x00, 0x00, 0x05, 0x01, 0xD7] =
      .ok (.frameSingle 0 false false 0x01 ⟨0, 0, 0, 5⟩ 0x01D7) := by decide
/-- `11llllrc` (E4). -/
theorem test_decode_frameBatch :
    decode .wire [0x73, 0x6E, 0x70, 0xC8, 0x56, 1, 2, 3, 4, 5, 6, 7, 8, 0x02, 0x93] =
      .ok (.frameBatch 2 false false 0x56 [1, 2, 3, 4, 5, 6, 7, 8] 0x0293) := by decide
theorem test_decode_encode : decode .host [0x1, 0x80, 0x01, 0, 0, 0, 5] = .ok (.encode 0x80 0x01 [0, 0, 0, 5]) := by
  decide
theorem test_decode_decode : decode .host [0x2, 1, 0x57, 0x73, 0x6E] = .ok (.decode [0x73, 0x6E] (some 0x57)) := by
  decide
theorem test_decode_decodeHealth : decode .host [0x3, 0xA4, 0, 0x2C, 0] = .ok (.decodeHealth ⟨0xA4, 0, 0x2C, 0⟩) := by
  decide
theorem test_decode_recv : decode .host [0x4] = .ok .recv := by decide
theorem test_decode_writeRegister :
    decode .host [0x5, 0x01, 1, 0, 0, 0, 5] = .ok (.writeRegister 0x01 true ⟨0, 0, 0, 5⟩) := by decide
theorem test_decode_readRegister : decode .host [0x6, 0x56] = .ok (.readRegister 0x56) := by decide
theorem test_decode_facade :
    [[0x8], [0x9], [0xA], [0xB], [0xC], [0xD], [0xE]].map (decode .host) =
      [.ok .getFwVersion, .ok .factoryReset, .ok .zeroGyros, .ok .setHomePosition, .ok .setMagReference, .ok .resetEkf,
        .ok .flashCommit] := by decide
theorem test_decode_reserved :
    [[0x0], [0x7], [0xF]].map (decode .host) = [.ok .reserved0, .ok .reserved7, .ok .reservedF] := by decide
/-- A pseudo-operation has no word of its own: its bytes are READ_REGISTER's (30_encoding.md R79). -/
theorem test_encode_pseudo :
    encode cfg (.readConfig 0x56) = [0x6, 0x56] ∧ encode cfg .pollHealth = [0x6, 0x55] := by decide
theorem test_decode_refuses :
    decode .host [] = .error .noBytes ∧ decode .host [0x10] = .error (.notAnOpCode 0x10) ∧
    decode .host [0x4, 0] = .error (.operandCount .recv) ∧
    decode .host [0x5, 1, 2, 0, 0, 0, 0] = .error (.operandBit 2) ∧
    decode .wire [0x73, 0x6E, 0x70, 0x80, 0x01, 0x00] = .error .notAFrame := by decide

/-! ## The host's table words -/

/-- The first instruction after reset. -/
theorem test_fetch_zeroGyros : step (State.reset.withFetchWord 8 0xA) = exec .zeroGyros State.reset := rfl
theorem test_fetch_frameBatch :
    step (State.reset.withFetchWord 8 0xC0) = exec (.frameBatch 0 false false 0 [] 0) State.reset := rfl

/-! ## The codec -/

/-- Table L of 95_test_vectors.md. -/
theorem test_dataLength :
    [0x00, 0x01, 0x02, 0x3C, 0x40, 0x7F, 0x80, 0x81, 0xBC, 0xC0, 0xC4, 0xC8, 0xFC, 0xFF].map dataLength =
      [0, 0, 0, 0, 0, 0, 4, 4, 4, 0, 4, 8, 60, 60] := by decide
/-- K2, K3, K4, K6, K7. -/
theorem test_decodeFrame_scan :
    decodeFrame true [0x73, 0x6E, 0x70, 0x00, 0x55, 0x01] none = .error .tooShort ∧
    decodeFrame true frameF55 none = .ok packetF55 ∧
    decodeFrame true [0, 0, 0, 0, 0, 0, 0] none = .error .noSync ∧
    decodeFrame true [0, 0, 0, 0, 0x73, 0x6E, 0x70] none = .error .truncated ∧
    decodeFrame true ([0x00, 0xFF] ++ frameF55 ++ [0x0A]) none = .ok packetF55 := by decide
/-- The last attempt of X2: the broadcast is passed over for its address, the response is taken; without the rescan
the first mismatch ends the call. -/
theorem test_decodeFrame_rescan :
    decodeFrame true (frameHB4 ++ frameR56) (some 0x56) = .ok packetR56 ∧
    decodeFrame true frameHB4 (some 0x56) = .error .addressMismatch ∧
    decodeFrame false (frameHB4 ++ frameR56) (some 0x56) = .error .addressMismatch := by decide
/-- P6 step 3 and step 4: a changed byte is found out, an exchange of two is not. -/
theorem test_decodeFrame_checksum :
    decodeFrame true [0x73, 0x6E, 0x70, 0xC8, 0x56, 9, 2, 3, 4, 5, 6, 7, 8, 0x02, 0x93] none = .error .badChecksum ∧
    decodeFrame true [0x73, 0x6E, 0x70, 0xC8, 0x56, 2, 1, 3, 4, 5, 6, 7, 8, 0x02, 0x93] none =
      .ok ⟨0xC8, 0x56, [2, 1, 3, 4, 5, 6, 7, 8], 0x0293⟩ := by decide

/-! ## One step of each instruction -/

theorem test_frameNodata :
    seen (exec (.frameNodata false 0 false false 0x55 0x01A6) idle) (·.env.bs.inbound) = some frameF55 := by decide
theorem test_frameSingle :
    seen (exec (.frameSingle 0 false false 0x55 ⟨0, 0, 0, 4⟩ 0x022A) idle) (·.env.bs.inbound) = some frameHB4 := by
  decide
/-- H23, after what already waits. -/
theorem test_frameBatch :
    seen (exec (.frameBatch 2 false false 0x55 [0, 0, 1, 4, 0x11, 0x22, 0x33, 0x44] 0x031D)
      (stateOf Engine.reset [] [0x0A] [] [])) (·.env.bs.inbound) =
      some [0x0A, 0x73, 0x6E, 0x70, 0xC8, 0x55, 0, 0, 1, 4, 0x11, 0x22, 0x33, 0x44, 0x03, 0x1D] := by decide
/-- E2. -/
theorem test_encode :
    seen (exec (.encode 0x80 0x01 [0, 0, 0, 5]) idle) (fun t => (loadTx t.eng, t.eng.txLen, t.eng.status)) =
      some (some [0x73, 0x6E, 0x70, 0x80, 0x01, 0x00, 0x00, 0x00, 0x05, 0x01, 0xD7], 11, .ok) := by decide
/-- E2: the host reads the last byte of the frame, and no byte after it. -/
theorem test_encode_hostRead :
    seen (exec (.encode 0x80 0x01 [0, 0, 0, 5]) idle)
      (fun t => (hostRead (.txBuf 10) t, hostRead (.txBuf 11) t, hostRead (.rxBuf 0) t)) =
      some (.value (.byte 0xD7), .notReadable, .notReadable) := by decide
/-- E12. -/
theorem test_encode_illegal :
    seen (exec (.encode 0x80 0x01 [0, 0, 5]) idle) (fun t => (t.eng.txLen, t.eng.status)) =
      some (0, .illegalCommand) := by decide
/-- H20 by DECODE. -/
theorem test_decode :
    seen (exec (.decode frameHB4 none) idle) (fun t => (t.eng.pkt, t.eng.hb, t.eng.status)) =
      some (some ⟨0x80, 0x55, [0, 0, 0, 4], 0x022A⟩, some 0x00000004, .ok) := by decide
/-- P6 step 6: the old packet is gone. -/
theorem test_decode_error :
    seen (exec (.decode frameR56 (some 0x57)) (stateOf { Engine.reset with pkt := some packetF55 } [] [] [] []))
      (fun t => (t.eng.pkt, t.eng.status, t.eng.lastErr)) = some (none, .addressMismatch, .noCode) := by decide
/-- H13. -/
theorem test_decodeHealth :
    seen (exec (.decodeHealth ⟨0xA4, 0x00, 0x2C, 0x00⟩) idle) (fun t => (t.eng.hb, t.eng.status)) =
      some (some 0xA4002C00, .ok) ∧
    (heartbeatView cfg 0xA4002C00).satellitesInView = 11 ∧ (heartbeatView cfg 0xA4002C00).satellitesUsed = 41 := by
  decide
/-- H16: gyro_fail and uart_overflow. -/
theorem test_heartbeat_flags :
    heartbeatView cfg 0x00000104 = ⟨false, false, true, false, false, false, true, 0, 0⟩ := by decide
theorem test_recv :
    seen (exec .recv (stateOf { Engine.reset with pkt := some packetF55, status := .ok } [] [] [] []))
      (fun t => (t.eng.phase, t.eng.pkt, t.eng.status)) = some (.recv, none, .noCode) := by decide
/-- X1's request. -/
theorem test_writeRegister :
    seen (exec (.writeRegister 0x01 true ⟨0, 0, 0, 5⟩) idle) (fun t => (loadTx t.eng, t.eng.phase, t.eng.cmdAddr)) =
      some (some [0x73, 0x6E, 0x70, 0x80, 0x01, 0x00, 0x00, 0x00, 0x05, 0x01, 0xD7, 0x0A], .send, 0x01) := by decide
/-- X2's request. -/
theorem test_readRegister :
    seen (exec (.readRegister 0x56) idle) (fun t => (loadTx t.eng, t.eng.phase)) = some (some requestR56, .send) := by
  decide
/-- F1 to F7. -/
theorem test_facade_requests :
    [Instr.zeroGyros, .getFwVersion, .flashCommit, .factoryReset, .setHomePosition, .setMagReference, .resetEkf].map
      (fun i => seen (exec i idle) (fun t => loadTx t.eng)) =
    [[0x73, 0x6E, 0x70, 0x00, 0x55, 0x01, 0xA6, 0x0A], [0x73, 0x6E, 0x70, 0x00, 0xAA, 0x01, 0xFB, 0x0A],
      [0x73, 0x6E, 0x70, 0x00, 0xAB, 0x01, 0xFC, 0x0A], [0x73, 0x6E, 0x70, 0x00, 0xAC, 0x01, 0xFD, 0x0A],
      [0x73, 0x6E, 0x70, 0x00, 0xAE, 0x01, 0xFF, 0x0A], [0x73, 0x6E, 0x70, 0x00, 0xB0, 0x02, 0x01, 0x0A],
      [0x73, 0x6E, 0x70, 0x00, 0xB3, 0x02, 0x04, 0x0A]].map (fun l => some (some l)) := by decide
/-- F12: accepting GET_FW_VERSION takes the old version away; no other facade operation does. -/
theorem test_getFwVersion_clears :
    seen (exec .getFwVersion (stateOf { Engine.reset with fw := some ⟨1, 2, 3, 4⟩ } [] [] [] [])) (·.eng.fw) =
      some none ∧
    seen (exec .factoryReset (stateOf { Engine.reset with fw := some ⟨1, 2, 3, 4⟩ } [] [] [] [])) (·.eng.fw) =
      some (some ⟨1, 2, 3, 4⟩) := by decide
/-- F14. -/
theorem test_reserved :
    [Instr.reserved0, .reserved7, .reservedF].map (fun i => seen (exec i idle) (fun t => (t.eng.cmdOp, t.eng.status))) =
      [some (.reserved0, .illegalCommand), some (.reserved7, .illegalCommand), some (.reservedF, .illegalCommand)] := by
  decide
theorem test_pseudo :
    seen (exec (.readConfig 0x56) idle) (fun t => (loadTx t.eng, t.eng.cmdOp)) = some (some requestR56, .readRegister) ∧
    seen (exec .pollHealth idle) (fun t => (t.eng.cmdAddr, t.eng.cmdOp)) = some (0x55, .readRegister) := by decide
/-- X13, F15. -/
theorem test_busyReject :
    seen (exec (.readRegister 0x01) sendState) (fun t => (t.eng, t.env.answer)) =
      some (sendState.eng, .refused .busyReject) := by decide

/-! ## ENGINE's steps -/

/-- P2, attempt 1: SEND. -/
theorem test_send :
    seen (step sendState) (fun t => (t.eng.phase, t.eng.attempts, t.env.bs.outbound)) =
      some (.recv, 1, requestR56) := by decide
/-- X6: a count one short. -/
theorem test_send_short :
    seen (step (stateOf (reading .send 0 []) [] [] [.upTo 7] [])) (fun t => (t.eng.phase, t.eng.status, t.eng.attempts)) =
      some (.idle, .ioError, 1) := by decide
/-- P2, attempt 1: RECV, every poll empty. -/
theorem test_receive_timeout :
    seen (step (stateOf (reading .recv 1 []) [] [] [] [.upTo 100, .upTo 100]))
      (fun t => (t.eng.phase, t.eng.lastErr, t.eng.rxLen)) = some (.send, .timeout, 0) := by decide
/-- P2, attempt 3: RECV, the second poll finds bytes. -/
theorem test_receive_bytes :
    seen (step (stateOf (reading .recv 3 []) [] (frameHB4 ++ frameR56) [] [.upTo 0, .upTo 100]))
      (fun t => (t.eng.phase, t.eng.rxLen, loadRx cfg t.eng)) = some (.check, 22, some (frameHB4 ++ frameR56)) := by
  decide
/-- P2, attempt 3: CHECK; the skipped heartbeat changes nothing. -/
theorem test_check :
    seen (step (stateOf (reading .check 3 (frameHB4 ++ frameR56)) [] [] [] []))
      (fun t => (t.eng.status, t.eng.pkt, t.eng.hb, t.eng.attempts)) = some (.ok, some packetR56, none, 3) := by decide
/-- X4 and P3: the last permitted attempt fails. -/
theorem test_check_noResponse :
    seen (step (stateOf (reading .check 3 frameHB4) [] [] [] [])) (fun t => (t.eng.status, t.eng.lastErr)) =
      some (.noResponse, .addressMismatch) := by decide
/-- V6: in RECV the CF bit is only a bit. -/
theorem test_check_recv :
    seen (step (stateOf (receiving .check frameCFAD) [] [] [] [])) (fun t => (t.eng.status, t.eng.pkt)) =
      some (.ok, some ⟨0x01, 0xAD, [], 0x01FF⟩) := by decide

/-! ## Witnesses: for each statement with hypotheses, a state and operands that meet them all. Where a statement has
several clauses, one for each. -/

theorem witness_EncodedInstructionDecodes :
    (Instr.frameBatch 15 true true 0xFF (List.replicate 60 0xFF) 0x3F13).wellFormed = true ∧
    Instr.pollHealth.wellFormed = true := by decide
theorem witness_WireDecodingIsExact :
    decode .wire frameHB4 = .ok (.frameSingle 0 false false 0x55 ⟨0, 0, 0, 4⟩ 0x022A) := by decide
theorem witness_HostDecodingIsStable : decode .host [0x2, 0, 0x99, 1, 2] = .ok (.decode [1, 2] none) := by decide
/-- The clauses at the ends of their ranges: 0x00, 0x7F; 0x80, 0xBF; 0xC0, 0xFF. -/
theorem witness_EveryPacketTypeIsOneFrameKind :
    (∀ pt ∈ [(0x00 : Byte), 0x7F], pt &&& 0x80 = 0x00 ∧ dataLength pt = 0) ∧
    (∀ pt ∈ [(0x80 : Byte), 0xBF], pt &&& 0xC0 = 0x80 ∧ dataLength pt = 4) ∧
    (0xC0 : Byte) &&& 0xC0 = 0xC0 ∧ dataLength 0xC0 = 0 ∧ (0xFF : Byte) &&& 0xC0 = 0xC0 ∧ dataLength 0xFF = 60 ∧
    [(0 : Byte), 0].length = dataLength 0xC0 + 2 := by decide
theorem witness_ChecksumNeverWraps :
    structurallyValid 0xFF (List.replicate 60 0xFF) ∧ decodeFrame true frameF55 none = .ok packetF55 := by decide
theorem witness_EncodedFrameLayout : 7 < [(1 : Byte), 2, 3, 4, 5, 6, 7, 8].length := by decide
theorem witness_FrameRoundTrip :
    structurallyValid 0xC8 [1, 2, 3, 4, 5, 6, 7, 8] ∧ ∀ o, ¬ markerStandsAt [0x00, 0x73, 0x6E] o := by
  refine ⟨by decide, fun o h => ?_⟩
  have h1 := h.2.2
  match o, h1 with
  | 0, h1 => exact absurd h1 (by decide)
  | o + 1, h1 => simp at h1
theorem witness_FindSyncFindsTheFirstMarker : findSync ([0x73] ++ frameF55) 0 = some 1 ∧ findSync frameF55 1 = none := by
  decide
theorem witness_DecodeFollowsTheEightSteps : findSync (frameHB4 ++ frameR56) 1 = some 11 := by decide
theorem witness_DecodedPacketStandsInTheBuffer :
    decodeFrame true (frameHB4 ++ frameR56 ++ [0x0A]) (some 0x56) = .ok packetR56 := by decide
theorem witness_BytesAfterTheFrameAreIgnored :
    decodeFrame true (frameHB4 ++ frameR56) (some 0x56) = .ok packetR56 := by decide
theorem witness_SingleByteCorruptionIsBadChecksum :
    structurallyValid 0x80 [0, 0, 0, 4] ∧ 3 < [(0 : Byte), 0, 0, 4].length ∧
    [(0 : Byte), 0, 0, 4][3]? ≠ some 0x05 ∧ (0x022B : Word16) ≠ checksum 0x80 0x55 [0, 0, 0, 4] ∧
    (0x54 : Byte) ≠ 0x55 := by decide
theorem witness_PermutedDataPasses :
    structurallyValid 0x80 [1, 2, 3, 4] ∧ [(2 : Byte), 1, 3, 4].Perm [1, 2, 3, 4] ∧
    [(2 : Byte), 1, 3, 4] ≠ [1, 2, 3, 4] := ⟨by decide, .swap 1 2 [3, 4], by decide⟩
/-- The second clause at both ends of its range, 2 and `dataLength pt + 1` bytes. -/
theorem witness_NoRescanAfterTruncationOrBadChecksum :
    structurallyValid 0x00 [] ∧ (0x00F0 : Word16) ≠ checksum 0x00 0x55 [] ∧
    (2 ≤ [(0 : Byte), 0].length ∧ [(0 : Byte), 0].length < dataLength 0x80 + 2) ∧
    [(0 : Byte), 0, 0, 0, 0].length < dataLength 0x80 + 2 := by decide
theorem witness_AddressMismatchResumesTheScan :
    (0x56 : Byte) ≠ 0x55 ∧ dataLength 0x00 + 2 ≤ ([0x01, 0xA6] : List Byte).length := by decide
theorem witness_UnnamedHealthBitsAreIgnored :
    (∀ b ∈ cfg.hbBits, (0x00000004 : Word32).getLsbD b = (0x03FF02C4 : Word32).getLsbD b) ∧
    ∀ i < 6, (0x00000004 : Word32).getLsbD (10 + i) = (0x03FF02C4 : Word32).getLsbD (10 + i) ∧
      (0x00000004 : Word32).getLsbD (26 + i) = (0x03FF02C4 : Word32).getLsbD (26 + i) := by decide
theorem witness_ResetAtAnyTime :
    (stateOf (reading .check 2 frameHB4) [.assertReset, .turn] [] [] []).env.inputs = .assertReset :: [.turn] := rfl
theorem witness_IssueWhileBusyIsRejected : Instr.recv.port = .host ∧ sendState.eng.phase ≠ .idle := by decide
/-- An operation issued at once, one that waited for an idle ENGINE, and bytes without an operation. -/
theorem witness_StepRunsTheIssuedOperation :
    (stateOf Engine.reset [.issue true [0x4]] [] [] []).env.inputs = .issue true [0x4] :: [] ∧
    decode .host [0x4] = .ok .recv ∧ (stateOf Engine.reset [.issue false [0x4]] [] [] []).eng.phase = .idle ∧
    decode .host [0x99] = .error (.notAnOpCode 0x99) := by decide
theorem witness_StepRunsTheArrivingFrame :
    (stateOf Engine.reset [.arrive frameF55] [] [] []).env.inputs = .arrive frameF55 :: [] ∧
    decode .wire frameF55 = .ok (.frameNodata false 0 false false 0x55 0x01A6) ∧
    decode .wire [0xFF] = .error .notAFrame := by decide
/-- A host that waits while ENGINE sends, ENGINE's own turn, and (the fault clauses) a CHECK that no rule enables. -/
theorem witness_WaitingHostLetsEngineStep :
    (stateOf (reading .send 0 []) [.issue false [0x4]] [] [.upTo 8] []).env.inputs = .issue false [0x4] :: [] ∧
    (reading .send 0 []).phase ≠ .idle ∧ (seen (step sendState) (fun _ => ())).isSome = true ∧
    (stateOf (reading .send 0 []) [.turn, .arrive [1]] [] [.upTo 8] []).env.inputs = .turn :: [.arrive [1]] ∧
    seen (step (stateOf (reading .send 0 []) [.turn, .arrive [1]] [] [.upTo 8] []))
      (fun t => (t.eng.phase, t.env.inputs)) = some (.recv, [.arrive [1]]) ∧
    step (stateOf { Engine.reset with phase := .check } [] [] [] []) = .fault .noStepEnabled :=
  ⟨rfl, by decide, by decide, rfl, by decide, rfl⟩
theorem witness_EncodeStoresTheFrame :
    idle.eng.phase = .idle ∧ ([1, 2, 3, 4, 5, 6, 7, 8] : List Byte).length = dataLength 0xC8 := by decide
/-- The operands just past what fits: five data bytes for four, and one byte more than RX_BUF_SIZE. -/
theorem witness_IllegalCommands :
    idle.eng.phase = .idle ∧ ([0, 0, 0, 0, 0] : List Byte).length ≠ dataLength 0x80 ∧
    idle.cfg.rxBufSize < (List.replicate 101 (0 : Byte)).length := by decide
/-- A buffer of RX_BUF_SIZE bytes, one that holds a packet, one that does not. -/
theorem witness_DecodeCommitsOrReports :
    idle.eng.phase = .idle ∧ (List.replicate 100 (0 : Byte)).length ≤ idle.cfg.rxBufSize ∧
    decodeFrame idle.cfg.rescan frameF55 none = .ok packetF55 ∧
    decodeFrame idle.cfg.rescan [0, 0, 0, 0, 0, 0, 0] none = .error .noSync := by decide
/-- For DecodeHealthWritesTheWord, RecvAcceptance, WriteRegisterAcceptance, ReadsAreWritesWithoutData and
FacadeIsWriteWithoutData: an idle ENGINE. -/
theorem witness_idle : idle.eng.phase = .idle ∧ State.reset.eng.phase = .idle := ⟨rfl, rfl⟩
/-- A receive attempt with each of its three results; the clauses of one poll at their borders: one byte of many, an
answer of no byte with bytes waiting, an answer of many with none waiting, and a buffer of no byte. -/
theorem witness_ReceiveAttemptShape :
    (rxAttempt 100 2 ⟨[1, 2], [], [], [.upTo 0, .upTo 1]⟩).map (·.1) = some (.bytes [1]) ∧
    (rxAttempt 100 2 ⟨[], [], [], [.upTo 5, .upTo 5]⟩).map (·.1) = some .timeout ∧
    (rxAttempt 100 2 ⟨[1], [], [], [.failure]⟩).map (·.1) = some .ioError ∧
    2 ≤ ([.upTo 0, .upTo 1] : List ReadAnswer).length ∧
    rxAttempt 100 1 ⟨[1, 2], [], [], [.upTo 1, .failure]⟩ = some (.bytes [1], ⟨[2], [], [], [.failure]⟩) ∧
    rxAttempt 100 2 ⟨[1], [], [], [.upTo 0, .failure]⟩ = some (.ioError, ⟨[1], [], [], []⟩) ∧
    rxAttempt 100 1 ⟨[], [], [], [.upTo 9]⟩ = some (.timeout, ⟨[], [], [], []⟩) ∧
    rxAttempt 0 1 ⟨[1], [], [], [.upTo 9]⟩ = some (.timeout, ⟨[1], [], [], []⟩) ∧
    rxAttempt 100 1 ⟨[1], [], [], []⟩ = none := by decide
/-- The counts at the border between a full and a short write, a failure, and no answer. -/
theorem witness_SendStep :
    sendState.env.inputs = [] ∧ sendState.eng.phase = .send ∧ loadTx sendState.eng = some requestR56 ∧
    sendState.env.bs.writeAnswers = .upTo 8 :: [] ∧ requestR56.length ≤ 8 ∧ 7 < requestR56.length ∧
    (stateOf (reading .send 0 []) [] [] [.upTo 7] []).env.bs.writeAnswers = .upTo 7 :: [] ∧
    (stateOf (reading .send 0 []) [] [] [.failure] []).env.bs.writeAnswers = .failure :: [] ∧
    (stateOf (reading .send 0 []) [] [] [] []).env.bs.writeAnswers = [] := by decide
theorem witness_FailedAttempt :
    (receiving .check []).cmdOp = .recv ∧ (reading .check 3 []).cmdOp ≠ .recv ∧
    (reading .check 3 []).attempts = cfg.maxAttempts ∧ (reading .check 2 []).attempts ≠ cfg.maxAttempts := by decide
theorem witness_ReceiveStep :
    (stateOf (reading .recv 1 []) [] [] [] []).env.inputs = [] ∧ (reading .recv 1 []).phase = .recv ∧
    (rxAttempt cfg.rxBufSize cfg.pollLimit ⟨[1, 2], [], [], [.upTo 100]⟩).map (·.1) = some (.bytes [1, 2]) ∧
    (rxAttempt cfg.rxBufSize cfg.pollLimit ⟨[], [], [], [.upTo 1, .upTo 1]⟩).map (·.1) = some .timeout ∧
    (rxAttempt cfg.rxBufSize cfg.pollLimit ⟨[], [], [], [.upTo 1, .failure]⟩).map (·.1) = some .ioError ∧
    rxAttempt cfg.rxBufSize cfg.pollLimit ⟨[1], [], [], []⟩ = none := by decide
theorem witness_CheckStepOfTransaction :
    (stateOf (reading .check 2 frameR56) [] [] [] []).env.inputs = [] ∧ (reading .check 2 frameR56).phase = .check ∧
    loadRx cfg (reading .check 2 frameR56) = some frameR56 ∧
    (reading .check 2 frameR56).cmdOp.isTransaction = true ∧
    decodeFrame cfg.rescan frameR56 (some (reading .check 2 frameR56).cmdAddr) = .ok packetR56 ∧
    decodeFrame cfg.rescan frameHB4 (some (reading .check 2 frameHB4).cmdAddr) = .error .addressMismatch := by decide
theorem witness_CheckStepOfRecv :
    (stateOf (receiving .check frameCFAD) [] [] [] []).env.inputs = [] ∧ (receiving .check frameCFAD).phase = .check ∧
    loadRx cfg (receiving .check frameCFAD) = some frameCFAD ∧ (receiving .check frameCFAD).cmdOp = .recv ∧
    decodeFrame cfg.rescan frameCFAD none = .ok ⟨0x01, 0xAD, [], 0x01FF⟩ ∧
    decodeFrame cfg.rescan [0x73] none = .error .tooShort := by decide
theorem witness_SilentByteSourceLeavesEngineStuck :
    (stateOf (reading .send 0 []) [] [] [] []).env.inputs = [] ∧ (reading .send 0 []).phase = .send ∧
    (loadTx (reading .send 0 [])).isSome = true ∧ (reading .recv 1 []).phase = .recv ∧ 1 ≤ cfg.pollLimit := by decide
theorem witness_valid : cfg.valid := by decide
/-- X2 as a whole: a Timeout, a bad checksum, and the response behind a broadcast. -/
theorem witness_TransactionComputesTransact :
    ∃ (s : State) (r : TransactResult) (b : ByteSource), s.cfg.valid ∧ s.env.inputs = [] ∧ s.eng.phase = .send ∧
      s.eng.cmdOp.isTransaction = true ∧ s.eng.attempts = 0 ∧ s.eng.pkt = none ∧
      loadTx s.eng = some (buildRequest s.cfg.txTerminator s.eng.cmdAddr s.eng.cmdHasData s.eng.cmdData) ∧
      transact s.cfg s.eng.cmdAddr s.eng.cmdHasData s.eng.cmdData s.env.bs = some (r, b) ∧
      r = ⟨.ok, 3, some packetR56⟩ :=
  ⟨stateOf (reading .send 0 []) [] (frameR56.set 10 0xE7 ++ frameHB4 ++ frameR56) [.upTo 8, .upTo 8, .upTo 8]
    [.upTo 0, .upTo 0, .upTo 11, .upTo 100], _, _, witness_valid, rfl, rfl, rfl, rfl, rfl, by decide, rfl, rfl⟩
/-- P3 with three attempts of two polls each. -/
theorem witness_SilentSensorGivesExactlyMaxAttempts :
    ∃ (s : State) (request : List Byte) (writes reads : List Nat), s.cfg.valid ∧ s.env.inputs = [] ∧
      s.eng.phase = .send ∧ s.eng.cmdOp.isTransaction = true ∧ s.eng.attempts = 0 ∧ loadTx s.eng = some request ∧
      s.env.bs.writeAnswers = writes.map .upTo ∧ writes.length = s.cfg.maxAttempts ∧
      (∀ k ∈ writes, request.length ≤ k) ∧
      s.env.bs.readAnswers = reads.map .upTo ∧ reads.length = s.cfg.maxAttempts * s.cfg.pollLimit ∧
      (s.env.bs.inbound = [] ∨ ∀ k ∈ reads, k = 0) :=
  ⟨stateOf (reading .send 0 []) [] [] [.upTo 8, .upTo 9, .upTo 100]
      [.upTo 0, .upTo 1, .upTo 2, .upTo 3, .upTo 4, .upTo 5],
    requestR56, [8, 9, 100], [0, 1, 2, 3, 4, 5], witness_valid, rfl, rfl, rfl, rfl, by decide, rfl, rfl, by decide, rfl,
    rfl, .inl rfl⟩
theorem witness_RecvComputesRecv :
    ∃ (s : State) (b : ByteSource), s.env.inputs = [] ∧ s.eng.phase = .recv ∧ s.eng.cmdOp = .recv ∧ s.eng.pkt = none ∧
      rxAttempt s.cfg.rxBufSize s.cfg.pollLimit s.env.bs = some (.bytes frameHB4, b) :=
  ⟨stateOf (receiving .recv []) [] frameHB4 [] [.upTo 100], _, rfl, rfl, rfl, rfl, rfl⟩
theorem witness_ArrivedFrameIsReceived :
    ∃ (s : State) (p : Packet) (k : Nat) (later : List ReadAnswer), s.cfg.valid ∧ s.eng.phase = .idle ∧ p.wellFormed ∧
      s.env.inputs = [.arrive (frameBytes p.ptype p.address p.data p.csum), .issue true (encode s.cfg .recv)] ∧
      s.env.bs.inbound = [] ∧ s.env.bs.readAnswers = .upTo k :: later ∧ 67 ≤ k :=
  ⟨stateOf Engine.reset [.arrive frameR56, .issue true [0x4]] [] [] [.upTo 67], packetR56, 67, [], witness_valid, rfl,
    by decide, by decide, rfl, rfl, by decide⟩
/-- A state in the middle of a transaction meets the invariant. -/
theorem witness_StepKeepsInvariant : sendState.Inv ∧ (seen (step sendState) (fun _ => ())).isSome = true := by
  refine ⟨⟨witness_valid, ?_⟩, by decide⟩
  constructor
  · decide
  · decide
  · decide
  · decide
  · decide
  · decide
  · decide
  · decide
  · decide
  · decide
  · decide
  · decide
  · decide
  · exact fun h => absurd h (by decide)
  · exact fun h => absurd h (by decide)
/-- The same state for InvariantRulesOutFaults, and one whose next input carries no operation. -/
theorem witness_InvariantRulesOutFaults :
    sendState.Inv ∧ step (stateOf Engine.reset [.issue true [0x99]] [] [] []) =
      .refused (.notAnOperation (.notAnOpCode 0x99)) := ⟨witness_StepKeepsInvariant.1, rfl⟩
/-- A step that takes bytes off the inbound stream, and one that adds some. -/
theorem witness_StreamsAreFirstInFirstOut :
    seen (step (stateOf (receiving .recv []) [] frameHB4 [] [.upTo 4])) (·.env.bs.inbound) = some (frameHB4.drop 4) ∧
    seen (step (stateOf Engine.reset [.arrive [1]] [0] [] [])) (·.env.bs.inbound) = some [0, 1] := by decide
theorem witness_OnlySendTransmits :
    seen (step sendState) (·.env.bs.outbound) = some requestR56 ∧ requestR56 ≠ sendState.env.bs.outbound := by decide
theorem witness_CommandIsHeldWhileBusy :
    sendState.eng.phase ≠ .idle ∧ (seen (step sendState) (fun _ => ())).isSome = true ∧
    sendState.env.inputs.head? ≠ some .assertReset := by decide
/-- The heartbeat changed by DECODE_HEALTH, by step CHECK of RECV and of a transaction, by DECODE and by reset. -/
theorem witness_HeartbeatPersists :
    seen (step (stateOf Engine.reset [.issue true [0x3, 0, 0, 4, 1]] [] [] [])) (·.eng.hb) = some (some 0x00000401) ∧
    seen (step (stateOf (receiving .check frameHB4) [] [] [] [])) (·.eng.hb) = some (some 0x00000004) ∧
    seen (step (stateOf { reading .check 1 frameHB4 with cmdAddr := 0x55 } [] [] [] []))
      (fun t => (t.eng.hb, t.eng.phase)) = some (some 0x00000004, .idle) ∧
    seen (step (stateOf Engine.reset [.issue false ([0x2, 0, 0] ++ frameHB4)] [] [] [])) (·.eng.hb) =
      some (some 0x00000004) ∧
    seen (step (stateOf { Engine.reset with hb := some 4 } [.assertReset] [] [] [])) (·.eng.hb) = some none := by decide
/-- F10 and F12: a version stored at completion, and taken away at acceptance. -/
theorem witness_FirmwareVersionPersists :
    seen (step (stateOf { reading .check 1 [0x73, 0x6E, 0x70, 0x80, 0xAA, 0x55, 0x37, 0x31, 0x43, 0x03, 0x7B] with
      cmdOp := .getFwVersion, cmdAddr := 0xAA } [] [] [] [])) (fun t => (t.eng.fw, t.eng.status)) =
      some (some ⟨0x55, 0x37, 0x31, 0x43⟩, .ok) ∧
    seen (step (stateOf { Engine.reset with fw := some ⟨0x55, 0x37, 0x31, 0x43⟩ } [.issue true [0x8]] [] [] []))
      (·.eng.fw) = some none := by decide
/-- An idle ENGINE that holds a packet, a heartbeat and a version, after an ENCODE of F55 with OK. -/
def full : State := stateOf
  { Engine.reset with
    cmdOp := .encode, pkt := some packetR56, status := .ok, hb := some 0xA4002C00, fw := some ⟨1, 2, 3, 4⟩
    txBuf := Memory.writeBytes [] 0 frameF55, txLen := 7 } [] [] [] []
/-- A busy ENGINE; an idle one without a packet, a heartbeat and a version; and one with each, at the last data byte of
the packet and the first that has no meaning, and at the last byte of the frame and the first after it. -/
theorem witness_HostReads :
    sendState.eng.busy = true ∧ idle.eng.busy = false ∧ idle.eng.pkt = none ∧ idle.eng.hb = none ∧
    idle.eng.fw = none ∧ full.eng.busy = false ∧ full.eng.pkt = some packetR56 ∧ full.eng.hb = some 0xA4002C00 ∧
    full.eng.fw = some ⟨1, 2, 3, 4⟩ ∧ hostRead .satellitesUsed full = .value (.byte 41) ∧
    hostRead (.pktData 3) full = .value (.byte 0x00) ∧ hostRead (.pktData 4) full = .unreliable ∧
    hostRead (.txBuf 6) full = .value (.byte 0xA6) ∧ hostRead (.txBuf 7) full = .notReadable ∧
    hostRead (.fwVersion 3) full = .value (.byte 4) ∧ hostRead .pktAddr sendState = .unreliable := by decide

end Sys2Proof.Tests
end

section
/-! SUPPORT. O30: ENGINE's step does not see the list of inputs. -/

namespace Sys2Proof.Machine

/-! ## The list of inputs and the other updates of the state -/

@[simp] theorem State.withInputs_withInputs (s : State) (l l' : List Input) :
    (s.withInputs l).withInputs l' = s.withInputs l' := rfl

theorem State.withInputs_self {s : State} {l : List Input} (h : s.env.inputs = l) : s.withInputs l = s := by
  subst h; rfl

theorem State.withInputs_withBs (s : State) (l : List Input) (b : ByteSource) :
    (s.withInputs l).withBs b = (s.withBs b).withInputs l := rfl

theorem State.withInputs_withEng (s : State) (l : List Input) (e : Engine) :
    (s.withInputs l).withEng e = (s.withEng e).withInputs l := rfl

/-- A step's result with another list of inputs in its next state; a fault or a refusal carries none. -/
def resultWithInputs (l : List Input) : Result → Result
  | .next t => .next (t.withInputs l)
  | .fault f => .fault f
  | .refused r => .refused r

@[simp] theorem resultWithInputs_next (l : List Input) (t : State) :
    resultWithInputs l (.next t) = .next (t.withInputs l) := rfl

@[simp] theorem resultWithInputs_fault (l : List Input) (f : Fault) :
    resultWithInputs l (.fault f) = .fault f := rfl

/-! ## ENGINE's stages neither read nor change the list of inputs -/

theorem stepSend_withInputs (s : State) (l : List Input) :
    stepSend (s.withInputs l) = resultWithInputs l (stepSend s) := by
  unfold stepSend
  simp only [State.withInputs_eng, State.withInputs_bs, State.withInputs_withBs, State.withInputs_withEng]
  cases loadTx s.eng with
  | none => rfl
  | some request =>
    cases hw : ByteSource.write request s.env.bs with
    | none => simp [hw]
    | some answer => simp [hw]

theorem stepRecv_withInputs (s : State) (l : List Input) :
    stepRecv (s.withInputs l) = resultWithInputs l (stepRecv s) := by
  unfold stepRecv
  simp only [State.withInputs_eng, State.withInputs_cfg, State.withInputs_bs, State.withInputs_withBs,
    State.withInputs_withEng]
  cases rxAttempt s.cfg.rxBufSize s.cfg.pollLimit s.env.bs with
  | none => rfl
  | some answer =>
    obtain ⟨result, b⟩ := answer
    cases result with
    | ioError => rfl
    | timeout => rfl
    | bytes received =>
      cases hs : storeRx s.cfg received s.eng with
      | none => simp [hs]
      | some e => simp [hs]

theorem stepCheck_withInputs (s : State) (l : List Input) :
    stepCheck (s.withInputs l) = resultWithInputs l (stepCheck s) := by
  unfold stepCheck
  simp only [State.withInputs_eng, State.withInputs_cfg, State.withInputs_withEng]
  cases loadRx s.cfg s.eng with
  | none => rfl
  | some buf =>
    by_cases hrecv : s.eng.cmdOp = .recv
    · simp [hrecv]
    · by_cases htrans : s.eng.cmdOp.isTransaction = true
      · simp [hrecv, htrans]
      · simp [hrecv, htrans]

theorem engineStep_withInputs (s : State) (l : List Input) :
    engineStep (s.withInputs l) = resultWithInputs l (engineStep s) := by
  unfold engineStep
  rw [State.withInputs_eng]
  cases s.eng.phase with
  | idle => rfl
  | send => exact stepSend_withInputs s l
  | recv => exact stepRecv_withInputs s l
  | check => exact stepCheck_withInputs s l

/-! ## The moves that are ENGINE's -/

/-- In its turn ENGINE steps, the turn taken off. -/
theorem step_turn {s : State} {later : List Input} (h : s.env.inputs = .turn :: later) :
    step s = engineStep (s.withInputs later) := by
  unfold step nextMove; rw [h]

/-- While a host waits for BUSY = 0 ENGINE steps, the event still waiting. -/
theorem step_waiting {s : State} {bytes : List Byte} {later : List Input}
    (h : s.env.inputs = .issue false bytes :: later) (hbusy : s.eng.phase ≠ .idle) : step s = engineStep s := by
  unfold step nextMove; simp [h, hbusy]

/-- ENGINE's step with any inputs placed, by the machine's step with none. -/
theorem engineStep_withInputs_eq_step (s : State) (l : List Input) :
    engineStep (s.withInputs l) = resultWithInputs l (step (s.withInputs [])) :=
  calc engineStep (s.withInputs l)
      = engineStep ((s.withInputs []).withInputs l) := by rw [State.withInputs_withInputs]
    _ = resultWithInputs l (engineStep (s.withInputs [])) := engineStep_withInputs _ l
    _ = resultWithInputs l (step (s.withInputs [])) := by rw [step_noInputs (State.withInputs_inputs s [])]

/-- What both clauses of O30 say of a step that leaves the inputs `l`. -/
theorem step_outcomes_of_eq_resultWithInputs {s s₀ : State} {l : List Input}
    (h : step s = resultWithInputs l (step s₀)) :
    (∀ t, step s₀ = .next t → step s = .next (t.withInputs l)) ∧ ∀ f, step s₀ = .fault f → step s = .fault f :=
  ⟨fun t ht => by rw [h, ht, resultWithInputs_next], fun f hf => by rw [h, hf, resultWithInputs_fault]⟩

/-- Settles O30: ENGINE's step commutes with placing inputs (`engineStep_withInputs`), and both moves are ENGINE's,
with the event still at the head or with the turn taken off. -/
theorem waitingHostLetsEngineStep : Obligations.WaitingHostLetsEngineStep := by
  intro s
  constructor
  · intro bytes later hinputs hbusy
    apply step_outcomes_of_eq_resultWithInputs
    calc step s
        = engineStep s := step_waiting hinputs hbusy
      _ = engineStep (s.withInputs (.issue false bytes :: later)) := by rw [State.withInputs_self hinputs]
      _ = resultWithInputs (.issue false bytes :: later) (step (s.withInputs [])) := engineStep_withInputs_eq_step s _
  · intro later hinputs
    apply step_outcomes_of_eq_resultWithInputs
    exact (step_turn hinputs).trans (engineStep_withInputs_eq_step s later)

end Sys2Proof.Machine
end

section
/-! SUPPORT. What a step does: one inversion lemma for an accepted operation, for ENGINE's own stages, and for the whole
machine. Each says everything that can have happened, so that no claim over steps unfolds `step` again. -/

namespace Sys2Proof.Machine

/-! ## An executed instruction -/

/-- What the one step of an accepted operation makes of ENGINE, `e` being ENGINE with CMD_OP written
(41_transaction.md R121). -/
inductive Accepted (c : Config) (e : Engine) : Engine → Prop
  /-- malformed operands or a reserved code (60_exceptions.md R196) -/
  | illegal (hop : e.cmdOp.isTransaction = false) : Accepted c e (complete .illegalCommand e)
  /-- ENCODE (40_codec.md R95) -/
  | encode {pt addr : Byte} {data : List Byte} {m : Memory} (hop : e.cmdOp = .encode)
      (hstore : storeBytes txBufSize e.txBuf (encodeFrame pt addr data) = some m) :
      Accepted c e (complete .ok { e with txBuf := m, txLen := (encodeFrame pt addr data).length })
  /-- DECODE (40_codec.md R101) -/
  | decode {buf : List Byte} {expect : Option Byte} {m : Memory} (hop : e.cmdOp = .decode)
      (hstore : storeBytes c.rxBufSize e.rxBuf buf = some m) :
      Accepted c e (settleDecode c (decodeFrame c.rescan buf expect) { e with rxBuf := m, rxLen := buf.length })
  /-- DECODE_HEALTH (42_heartbeat.md R156) -/
  | decodeHealth {w : Word32} (hop : e.cmdOp = .decodeHealth) : Accepted c e (complete .ok { e with hb := some w })
  /-- a transaction (41_transaction.md R124) -/
  | transaction {addr : Byte} {hasData : Bool} {d4 : Bytes4} {m : Memory} (hop : e.cmdOp.isTransaction = true)
      (hstore : storeBytes txBufSize e.txBuf (buildRequest c.txTerminator addr hasData d4) = some m) :
      Accepted c e (latchTransaction addr hasData d4
        { e with txBuf := m, txLen := (buildRequest c.txTerminator addr hasData d4).length })
  /-- RECV (41_transaction.md R140) -/
  | recv (hop : e.cmdOp = .recv) :
      Accepted c e { e with pkt := none, status := .noCode, lastErr := .noCode, phase := .recv }

/-- What an instruction makes of the machine: a frame joins the inbound stream, or an operation is rejected while BUSY
(41_transaction.md R122) or accepted (R121). -/
inductive Executed (s : State) : State → Prop
  | line (bytes : List Byte) : Executed s (lineIn bytes s)
  | rejected (hbusy : s.eng.phase ≠ .idle) : Executed s (busyReject s)
  | accepted {op : OpCode} {e : Engine} (hidle : s.eng.phase = .idle)
      (haccepted : Accepted s.cfg { s.eng with cmdOp := op } e) : Executed s ((latchOp op s).withEng e)

/-- The operation's first step, CMD_OP written, answers a next state in which ENGINE has made the step of an accepted
operation, and nothing else has changed. -/
def FirstStepAccepts (op : OpCode) (first : State → Result) (s : State) : Prop :=
  ∃ e, first (latchOp op s) = .next ((latchOp op s).withEng e) ∧ Accepted s.cfg { s.eng with cmdOp := op } e

theorem executed_of_issue {op : OpCode} {first : State → Result} {s t : State}
    (hfirst : FirstStepAccepts op first s) (h : issue op first s = .next t) : Executed s t := by
  obtain ⟨e, hnext, haccepted⟩ := hfirst
  rcases issue_spec h with ⟨hbusy, rfl⟩ | ⟨hidle, hrun⟩
  · exact .rejected hbusy
  · obtain rfl := Host.Outcome.next.inj (hnext.symm.trans hrun)
    exact .accepted hidle haccepted

theorem encodeStep_accepts (pt addr : Byte) (data : List Byte) (s : State) :
    FirstStepAccepts .encode (encodeStep pt addr data) s := by
  rcases encodeStep_next pt addr data (latchOp .encode s) with ⟨-, hnext⟩ | ⟨-, m, hstore, hnext⟩
  · exact ⟨_, hnext, .illegal rfl⟩
  · exact ⟨_, hnext, .encode rfl hstore⟩

theorem decodeStep_accepts (buf : List Byte) (expect : Option Byte) (s : State) :
    FirstStepAccepts .decode (decodeStep buf expect) s := by
  rcases decodeStep_next buf expect (latchOp .decode s) with ⟨-, hnext⟩ | ⟨-, m, hstore, hnext⟩
  · exact ⟨_, hnext, .illegal rfl⟩
  · exact ⟨_, hnext, .decode rfl hstore⟩

theorem acceptTransaction_accepts {op : OpCode} (hop : op.isTransaction = true) (addr : Byte) (hasData : Bool)
    (d4 : Bytes4) (s : State) : FirstStepAccepts op (acceptTransaction addr hasData d4) s := by
  obtain ⟨m, hstore, hnext⟩ := acceptTransaction_next addr hasData d4 (latchOp op s)
  exact ⟨_, hnext, .transaction hop hstore⟩

theorem completeIllegal_accepts {op : OpCode} (hop : op.isTransaction = false) (s : State) :
    FirstStepAccepts op (completeOnly .illegalCommand) s := ⟨_, rfl, .illegal hop⟩

/-- Everything an instruction can do. -/
theorem exec_executed {i : Instr} {s t : State} (h : exec i s = .next t) : Executed s t := by
  cases i with
  | frameNodata => obtain rfl := Host.Outcome.next.inj h; exact .line _
  | frameSingle => obtain rfl := Host.Outcome.next.inj h; exact .line _
  | frameBatch => obtain rfl := Host.Outcome.next.inj h; exact .line _
  | encode pt addr data => exact executed_of_issue (encodeStep_accepts pt addr data s) h
  | decode buf expect => exact executed_of_issue (decodeStep_accepts buf expect s) h
  | decodeHealth d4 => exact executed_of_issue (first := decodeHealthStep d4) ⟨_, rfl, .decodeHealth rfl⟩ h
  | recv => exact executed_of_issue (first := acceptRecv) ⟨_, rfl, .recv rfl⟩ h
  | reserved0 => exact executed_of_issue (op := .reserved0) (completeIllegal_accepts rfl s) h
  | reserved7 => exact executed_of_issue (op := .reserved7) (completeIllegal_accepts rfl s) h
  | reservedF => exact executed_of_issue (op := .reservedF) (completeIllegal_accepts rfl s) h
  | writeRegister => exact executed_of_issue (op := .writeRegister) (acceptTransaction_accepts rfl _ _ _ s) h
  | readRegister => exact executed_of_issue (op := .readRegister) (acceptTransaction_accepts rfl _ _ _ s) h
  | readConfig => exact executed_of_issue (op := .readRegister) (acceptTransaction_accepts rfl _ _ _ s) h
  | pollHealth => exact executed_of_issue (op := .readRegister) (acceptTransaction_accepts rfl _ _ _ s) h
  | getFwVersion => exact executed_of_issue (op := .getFwVersion) (acceptTransaction_accepts rfl _ _ _ s) h
  | factoryReset => exact executed_of_issue (op := .factoryReset) (acceptTransaction_accepts rfl _ _ _ s) h
  | zeroGyros => exact executed_of_issue (op := .zeroGyros) (acceptTransaction_accepts rfl _ _ _ s) h
  | setHomePosition => exact executed_of_issue (op := .setHomePosition) (acceptTransaction_accepts rfl _ _ _ s) h
  | setMagReference => exact executed_of_issue (op := .setMagReference) (acceptTransaction_accepts rfl _ _ _ s) h
  | resetEkf => exact executed_of_issue (op := .resetEkf) (acceptTransaction_accepts rfl _ _ _ s) h
  | flashCommit => exact executed_of_issue (op := .flashCommit) (acceptTransaction_accepts rfl _ _ _ s) h

/-! ## The byte streams -/

/-- How the byte streams move in one step: `b'` has bytes taken off the front of the inbound stream or added at its end,
and bytes added to the end of the outbound stream (20_memory.md R40, R47, R50). -/
def ByteSource.Follows (b b' : ByteSource) : Prop :=
  (∃ sent, b'.outbound = b.outbound ++ sent) ∧
  ∃ taken kept added, b.inbound = taken ++ kept ∧ b'.inbound = kept ++ added ∧ (added ≠ [] → taken = [])

@[refl] theorem ByteSource.Follows.refl (b : ByteSource) : b.Follows b :=
  ⟨⟨[], by simp⟩, [], b.inbound, [], rfl, by simp, fun _ => rfl⟩

theorem ByteSource.follows_arrive (b : ByteSource) (bytes : List Byte) :
    b.Follows { b with inbound := b.inbound ++ bytes } :=
  ⟨⟨[], by simp⟩, [], b.inbound, bytes, rfl, rfl, fun _ => rfl⟩

theorem ByteSource.follows_of_taken {b b' : ByteSource} {sent taken : List Byte}
    (hout : b'.outbound = b.outbound ++ sent) (hin : b.inbound = taken ++ b'.inbound) : b.Follows b' :=
  ⟨⟨sent, hout⟩, taken, b'.inbound, [], hin, by simp, fun h => absurd rfl h⟩

theorem ByteSource.follows_write {bytes : List Byte} {b b' : ByteSource} {r : WriteResult}
    (h : ByteSource.write bytes b = some (r, b')) : b.Follows b' := by
  obtain ⟨hin, -, ⟨k, later, -, -, -, hout⟩ | ⟨later, -, -, -, hout⟩⟩ := ByteSource.write_spec h
  · exact follows_of_taken (taken := []) hout (by simp [hin])
  · exact follows_of_taken (sent := []) (taken := []) (by simp [hout]) (by simp [hin])

/-- A receive attempt only takes bytes off the front of the inbound stream. -/
theorem rxAttempt_taken {max polls : Nat} {b b' : ByteSource} {r : RxResult}
    (h : rxAttempt max polls b = some (r, b')) :
    b'.outbound = b.outbound ∧ ∃ taken, b.inbound = taken ++ b'.inbound := by
  induction polls generalizing b with
  | zero =>
    simp only [rxAttempt, Option.some.injEq, Prod.mk.injEq] at h
    obtain ⟨-, rfl⟩ := h
    exact ⟨rfl, [], rfl⟩
  | succ polls ih =>
    rw [rxAttempt_succ] at h
    cases hread : ByteSource.read max b with
    | none => simp [hread] at h
    | some answer =>
      obtain ⟨result, b₁⟩ := answer
      obtain ⟨hout, -, hin, -⟩ := ByteSource.read_spec hread
      rw [hread] at h
      cases result with
      | failure =>
        simp only [Option.some.injEq, Prod.mk.injEq] at h
        obtain ⟨-, rfl⟩ := h
        exact ⟨hout, [], by simpa [eq_comm] using hin⟩
      | bytes received =>
        simp only [ReadResult.bytes.injEq, exists_eq_left', reduceCtorEq, false_and, or_false] at hin
        cases received with
        | nil =>
          obtain ⟨hout', taken, hin'⟩ := ih h
          exact ⟨hout'.trans hout, taken, by simpa [hin'] using hin.2⟩
        | cons x xs =>
          simp only [Option.some.injEq, Prod.mk.injEq] at h
          obtain ⟨-, rfl⟩ := h
          exact ⟨hout, x :: xs, hin.2⟩

theorem ByteSource.follows_rxAttempt {max polls : Nat} {b b' : ByteSource} {r : RxResult}
    (h : rxAttempt max polls b = some (r, b')) : b.Follows b' := by
  obtain ⟨hout, taken, hin⟩ := rxAttempt_taken h
  exact follows_of_taken (sent := []) (by simpa using hout) hin

/-! ## ENGINE's own step -/

/-- What ENGINE's own step makes of ENGINE, stage by stage. -/
inductive StageStep (c : Config) (e : Engine) : Engine → Prop
  /-- ENGINE is idle, or the Byte Source has not answered (60_exceptions.md R209, log 15) -/
  | wait : StageStep c e e
  /-- SEND (41_transaction.md R125) -/
  | send (hphase : e.phase = .send) (r : WriteResult) :
      StageStep c e (settleSend e.txLen r { e with attempts := e.attempts + 1 })
  /-- RECV, the attempt failed at the Byte Source (41_transaction.md R126) -/
  | recvIoError (hphase : e.phase = .recv) : StageStep c e (complete .ioError e)
  /-- RECV, nothing came in (41_transaction.md R126) -/
  | recvTimeout (hphase : e.phase = .recv) : StageStep c e (failAttempt c .timeout { e with rxLen := 0 })
  /-- RECV, bytes came in (41_transaction.md R126) -/
  | received {bytes : List Byte} {m : Memory} (hphase : e.phase = .recv) (hsome : 1 ≤ bytes.length)
      (hstore : storeBytes c.rxBufSize e.rxBuf bytes = some m) :
      StageStep c e { e with rxBuf := m, rxLen := bytes.length, phase := .check }
  /-- CHECK of RECV (41_transaction.md R142) -/
  | checkRecv {buf : List Byte} (hphase : e.phase = .check) (hload : loadRx c e = some buf) (hop : e.cmdOp = .recv) :
      StageStep c e (settleRecv c (decodeFrame c.rescan buf none) e)
  /-- CHECK of a transaction (41_transaction.md R127) -/
  | checkTransaction {buf : List Byte} (hphase : e.phase = .check) (hload : loadRx c e = some buf)
      (hop : e.cmdOp ≠ .recv) (htrans : e.cmdOp.isTransaction = true) :
      StageStep c e (settleTransaction c (decodeFrame c.rescan buf (some e.cmdAddr)) e)

/-- The next state of ENGINE's own step: nothing but ENGINE and the Byte Source has changed. -/
def EngineStepped (s t : State) : Prop :=
  ∃ b e, t = (s.withBs b).withEng e ∧ s.env.bs.Follows b ∧ StageStep s.cfg s.eng e

theorem EngineStepped.refl (s : State) : EngineStepped s s := ⟨s.env.bs, s.eng, rfl, .refl _, .wait⟩

theorem stepSend_stepped {s t : State} (hphase : s.eng.phase = .send) (h : stepSend s = .next t) :
    EngineStepped s t := by
  unfold stepSend at h
  cases hload : loadTx s.eng with
  | none => simp [hload] at h
  | some request =>
    cases hwrite : ByteSource.write request s.env.bs with
    | none =>
      simp only [hload, hwrite, Host.Outcome.next.injEq] at h
      exact h ▸ .refl s
    | some answer =>
      simp only [hload, hwrite, Host.Outcome.next.injEq] at h
      exact ⟨_, _, h.symm, ByteSource.follows_write hwrite, .send hphase _⟩

theorem stepRecv_stepped {s t : State} (hphase : s.eng.phase = .recv) (h : stepRecv s = .next t) :
    EngineStepped s t := by
  unfold stepRecv at h
  cases hattempt : rxAttempt s.cfg.rxBufSize s.cfg.pollLimit s.env.bs with
  | none =>
    simp only [hattempt, Host.Outcome.next.injEq] at h
    exact h ▸ .refl s
  | some answer =>
    obtain ⟨result, b⟩ := answer
    have hfollows := ByteSource.follows_rxAttempt hattempt
    cases result with
    | ioError =>
      simp only [hattempt, Host.Outcome.next.injEq] at h
      exact ⟨_, _, h.symm, hfollows, .recvIoError hphase⟩
    | timeout =>
      simp only [hattempt, Host.Outcome.next.injEq] at h
      exact ⟨_, _, h.symm, hfollows, .recvTimeout hphase⟩
    | bytes received =>
      obtain ⟨hsome, hfits⟩ := rxAttempt_bytes_length hattempt
      simp only [hattempt, storeRx_fits s.cfg s.eng hfits, Host.Outcome.next.injEq] at h
      exact ⟨_, _, h.symm, hfollows, .received hphase hsome (storeBytes_fits _ hfits)⟩

theorem stepCheck_stepped {s t : State} (hphase : s.eng.phase = .check) (h : stepCheck s = .next t) :
    EngineStepped s t := by
  unfold stepCheck at h
  cases hload : loadRx s.cfg s.eng with
  | none => simp [hload] at h
  | some buf =>
    simp only [hload] at h
    by_cases hrecv : s.eng.cmdOp = .recv
    · rw [if_pos hrecv] at h
      exact ⟨s.env.bs, _, (Host.Outcome.next.inj h).symm, .refl _, .checkRecv hphase hload hrecv⟩
    · rw [if_neg hrecv] at h
      by_cases htrans : s.eng.cmdOp.isTransaction = true
      · rw [if_pos htrans] at h
        exact ⟨s.env.bs, _, (Host.Outcome.next.inj h).symm, .refl _, .checkTransaction hphase hload hrecv htrans⟩
      · simp [htrans] at h

/-- Everything ENGINE's own step can do. -/
theorem engineStep_stepped {s t : State} (h : engineStep s = .next t) : EngineStepped s t := by
  unfold engineStep at h
  cases hphase : s.eng.phase with
  | idle =>
    simp only [hphase, Host.Outcome.next.injEq] at h
    exact h ▸ .refl s
  | send => exact stepSend_stepped hphase (by simpa only [hphase] using h)
  | recv => exact stepRecv_stepped hphase (by simpa only [hphase] using h)
  | check => exact stepCheck_stepped hphase (by simpa only [hphase] using h)

/-! ## The step of the machine -/

/-- Everything a step can do: a reset, a move of HOST or of the line, or ENGINE's own step. `l` are the inputs left. -/
theorem step_cases {s t : State} (h : step s = .next t) :
    (∃ l, s.env.inputs = .assertReset :: l ∧ t = assertReset (s.withInputs l)) ∨
    (∃ l, Executed (s.withInputs l) t) ∨
    ∃ l, EngineStepped (s.withInputs l) t := by
  unfold step nextMove at h
  cases hinputs : s.env.inputs with
  | nil =>
    simp only [hinputs] at h
    exact .inr (.inr ⟨[], by rw [State.withInputs_self hinputs]; exact engineStep_stepped h⟩)
  | cons input later =>
    cases input with
    | turn =>
      simp only [hinputs] at h
      exact .inr (.inr ⟨later, engineStep_stepped h⟩)
    | assertReset =>
      simp only [hinputs, Host.Outcome.next.injEq] at h
      exact .inl ⟨later, rfl, h.symm⟩
    | arrive bytes =>
      simp only [hinputs, moveOfArrival] at h
      cases hdecode : Sys2Proof.decode .wire bytes with
      | ok i =>
        simp only [hdecode] at h
        exact .inr (.inl ⟨later, exec_executed h⟩)
      | error why =>
        simp only [hdecode, Host.Outcome.next.injEq] at h
        exact .inr (.inl ⟨later, h ▸ .line bytes⟩)
    | issue now bytes =>
      simp only [hinputs] at h
      by_cases hready : now = true ∨ s.eng.phase = .idle
      · simp only [if_pos hready, moveOfIssue] at h
        cases hdecode : Sys2Proof.decode .host bytes with
        | ok i =>
          simp only [hdecode] at h
          exact .inr (.inl ⟨later, exec_executed h⟩)
        | error why => simp [hdecode] at h
      · simp only [if_neg hready] at h
        exact .inr (.inr ⟨_, by rw [State.withInputs_self hinputs]; exact engineStep_stepped h⟩)

/-- What a step makes of ENGINE, resets left aside. -/
inductive EngineMoved (c : Config) (e : Engine) : Engine → Prop
  /-- nothing: bytes came in, or an operation was rejected -/
  | kept : EngineMoved c e e
  | accepted {op : OpCode} {e' : Engine} (hidle : e.phase = .idle) (haccepted : Accepted c { e with cmdOp := op } e') :
      EngineMoved c e e'
  | stage {e' : Engine} (hstage : StageStep c e e') : EngineMoved c e e'

theorem Executed.engineMoved {s t : State} (h : Executed s t) : EngineMoved s.cfg s.eng t.eng := by
  cases h with
  | line bytes => exact .kept
  | rejected hbusy => exact .kept
  | accepted hidle haccepted => exact .accepted hidle haccepted

/-- What a step makes of ENGINE. -/
theorem step_engine {s t : State} (h : step s = .next t) :
    (s.env.inputs.head? = some .assertReset ∧ t.eng = { Engine.reset with resets := s.eng.resets + 1 }) ∨
    EngineMoved s.cfg s.eng t.eng := by
  rcases step_cases h with ⟨l, hinputs, rfl⟩ | ⟨l, hexec⟩ | ⟨l, b, e, rfl, -, hstage⟩
  · exact .inl ⟨by rw [hinputs]; rfl, rfl⟩
  · exact .inr hexec.engineMoved
  · exact .inr (.stage hstage)

theorem Executed.cfg_follows {s t : State} (h : Executed s t) : t.cfg = s.cfg ∧ s.env.bs.Follows t.env.bs := by
  cases h with
  | line bytes => exact ⟨rfl, ByteSource.follows_arrive _ bytes⟩
  | rejected hbusy => exact ⟨rfl, .refl _⟩
  | accepted hidle haccepted => exact ⟨rfl, .refl _⟩

/-- What a step makes of the parameters and of the byte streams. -/
theorem step_cfg_follows {s t : State} (h : step s = .next t) : t.cfg = s.cfg ∧ s.env.bs.Follows t.env.bs := by
  rcases step_cases h with ⟨l, -, rfl⟩ | ⟨l, hexec⟩ | ⟨l, b, e, rfl, hfollows, -⟩
  · exact ⟨rfl, .refl _⟩
  · exact hexec.cfg_follows
  · exact ⟨rfl, hfollows⟩

/-- Settles O54: it is what `step_cfg_follows` says, with `ByteSource.Follows` written out. -/
theorem streamsAreFirstInFirstOut : Obligations.StreamsAreFirstInFirstOut := by
  intro s t h
  exact step_cfg_follows h

end Sys2Proof.Machine
end

section
/-! SUPPORT. O51, O52: the invariant of ENGINE. Its clauses fall into those about the registers, those about the code an
operation completes with, and those about a running operation; a completion has to meet the first two, a running stage
the first and the last. -/

namespace Sys2Proof.Machine

/-! ## Buffers and codes -/

theorem bufferOk_empty (size : Nat) : bufferOk size [] 0 :=
  ⟨.nil, Nat.zero_le _, by simp, by simp⟩

theorem bufferOk_zero {size len : Nat} {m : Memory} (h : bufferOk size m len) : bufferOk size m 0 := by
  obtain ⟨hwf, -, hcells, -⟩ := h
  exact ⟨hwf, Nat.zero_le _, hcells, by simp⟩

/-- A store leaves a buffer whose bytes below the new length are all written. -/
theorem bufferOk_store {size len : Nat} {m m' : Memory} {bytes : List Byte} (h : bufferOk size m len)
    (hstore : storeBytes size m bytes = some m') : bufferOk size m' bytes.length := by
  obtain ⟨hwf, -, hcells, -⟩ := h
  obtain ⟨hfits, -, hfind, -, hwf', hcells'⟩ := storeBytes_spec hstore
  refine ⟨hwf' hwf, hfits, hcells' hcells, fun i hi => ?_⟩
  rw [hfind, if_pos hi, List.getElem?_eq_getElem hi]
  rfl

theorem DecodeError.code_mem_receiveFailures (err : DecodeError) : err.code ∈ receiveFailures := by
  cases err <;> decide

theorem ne_of_mem_receiveFailures {code other : ResultCode} (h : code ∈ receiveFailures)
    (hother : other ∉ receiveFailures) : code ≠ other :=
  fun heq => hother (heq ▸ h)

/-! ## The parts of the invariant -/

/-- The clauses of the invariant that hold in every phase and with every code. -/
def RegistersOk (c : Config) (e : Engine) : Prop :=
  bufferOk c.rxBufSize e.rxBuf e.rxLen ∧ bufferOk txBufSize e.txBuf e.txLen ∧ e.attempts ≤ c.maxAttempts ∧
    (∀ p ∈ e.pkt, p.wellFormed) ∧ (e.lastErr = .noCode ∨ e.lastErr ∈ receiveFailures)

/-- GET_FW_VERSION runs without a version (41_transaction.md R124). -/
def NoVersionYet (e : Engine) : Prop := e.cmdOp = .getFwVersion → e.fw = none

/-- The clauses of the invariant about STATUS, of an ENGINE about to complete with a code (60_exceptions.md R200). -/
structure CodeOk (c : Config) (code : ResultCode) (e : Engine) : Prop where
  version : code ≠ .ok → NoVersionYet e
  notBusyReject : code ≠ .busyReject
  failed : code ∈ receiveFailures ∨ code = .noResponse ∨ code = .ioError → e.pkt = none
  noResponse : code = .noResponse → e.attempts = c.maxAttempts ∧ e.lastErr ∈ receiveFailures
  commandFailed : code = .commandFailed → ∃ p, e.pkt = some p ∧ p.cf = true ∧ 1 ≤ e.attempts
  malformed : code = .malformedResponse → e.cmdOp = .getFwVersion ∧ ∃ p, e.pkt = some p ∧ p.data.length < 4

theorem Engine.Inv.registers {c : Config} {e : Engine} (h : Engine.Inv c e) : RegistersOk c e :=
  ⟨h.rx, h.tx, h.attempts, h.packet, h.lastErr⟩

theorem Engine.Inv.noVersionYet {c : Config} {e : Engine} (h : Engine.Inv c e) (hbusy : e.phase ≠ .idle) :
    NoVersionYet e := by
  obtain ⟨hstatus, -⟩ := h.running hbusy
  exact fun hop => h.version hop (by simp [hstatus])

/-- A completion meets the invariant when the registers and the code do. -/
theorem inv_complete {c : Config} {code : ResultCode} {e : Engine} (hregs : RegistersOk c e)
    (hcode : CodeOk c code e) : Engine.Inv c (complete code e) := by
  obtain ⟨hrx, htx, hattempts, hpacket, hlastErr⟩ := hregs
  exact {
    rx := hrx
    tx := htx
    attempts := hattempts
    packet := hpacket
    running := fun hbusy => absurd rfl hbusy
    sending := by simp
    receiving := by simp
    version := fun hop hne => hcode.version hne hop
    checking := by simp
    lastErr := hlastErr
    notBusyReject := hcode.notBusyReject
    failed := hcode.failed
    noResponse := hcode.noResponse
    commandFailed := hcode.commandFailed
    malformed := hcode.malformed }

/-- A running stage meets the invariant when the registers do, there is neither code nor packet, and the stage has what
it presupposes. -/
theorem inv_running {c : Config} {e : Engine} (hregs : RegistersOk c e) (hstatus : e.status = .noCode)
    (hpkt : e.pkt = none) (hversion : NoVersionYet e)
    (hsend : e.phase = .send → e.cmdOp.isTransaction = true ∧ e.attempts < c.maxAttempts ∧ requestLoaded c e)
    (hreceive : e.phase = .recv ∨ e.phase = .check →
      e.cmdOp = .recv ∨ e.cmdOp.isTransaction = true ∧ 1 ≤ e.attempts ∧ requestLoaded c e)
    (hcheck : e.phase = .check → 1 ≤ e.rxLen) : Engine.Inv c e := by
  obtain ⟨hrx, htx, hattempts, hpacket, hlastErr⟩ := hregs
  exact {
    rx := hrx
    tx := htx
    attempts := hattempts
    packet := hpacket
    running := fun _ => ⟨hstatus, hpkt⟩
    sending := hsend
    receiving := hreceive
    version := fun hop _ => hversion hop
    checking := hcheck
    lastErr := hlastErr
    notBusyReject := by simp [hstatus]
    failed := fun _ => hpkt
    noResponse := by simp [hstatus]
    commandFailed := by simp [hstatus]
    malformed := by simp [hstatus] }

/-! ## What a completion with each code needs -/

theorem codeOk_ok (c : Config) (e : Engine) : CodeOk c .ok e := by
  constructor <;> simp [receiveFailures]

theorem codeOk_illegalCommand (c : Config) {e : Engine} (hop : e.cmdOp ≠ .getFwVersion) :
    CodeOk c .illegalCommand e := by
  constructor <;> simp [receiveFailures, NoVersionYet, hop]

theorem codeOk_ioError (c : Config) {e : Engine} (hversion : NoVersionYet e) (hpkt : e.pkt = none) :
    CodeOk c .ioError e := by
  constructor <;> simp [hversion, hpkt]

theorem codeOk_receiveFailure (c : Config) {code : ResultCode} {e : Engine} (hcode : code ∈ receiveFailures)
    (hop : e.cmdOp ≠ .getFwVersion) (hpkt : e.pkt = none) : CodeOk c code e where
  version := fun _ h => absurd h hop
  notBusyReject := ne_of_mem_receiveFailures hcode (by decide)
  failed := fun _ => hpkt
  noResponse := fun h => absurd h (ne_of_mem_receiveFailures hcode (by decide))
  commandFailed := fun h => absurd h (ne_of_mem_receiveFailures hcode (by decide))
  malformed := fun h => absurd h (ne_of_mem_receiveFailures hcode (by decide))

theorem codeOk_noResponse {c : Config} {e : Engine} (hversion : NoVersionYet e) (hpkt : e.pkt = none)
    (hattempts : e.attempts = c.maxAttempts) (hlastErr : e.lastErr ∈ receiveFailures) :
    CodeOk c .noResponse e := by
  constructor <;> simp [hversion, hpkt, hattempts, hlastErr]

theorem codeOk_commandFailed (c : Config) {e : Engine} {p : Packet} (hversion : NoVersionYet e)
    (hpkt : e.pkt = some p) (hcf : p.cf = true) (hattempts : 1 ≤ e.attempts) : CodeOk c .commandFailed e := by
  constructor <;> simp [hversion, hpkt, hcf, hattempts, receiveFailures]

theorem codeOk_malformedResponse (c : Config) {e : Engine} {p : Packet} (hversion : NoVersionYet e)
    (hop : e.cmdOp = .getFwVersion) (hpkt : e.pkt = some p) (hshort : p.data.length < 4) :
    CodeOk c .malformedResponse e := by
  constructor <;> simp [hversion, hpkt, hop, hshort, receiveFailures]

/-! ## Reset and acceptance -/

/-- 70_reset_and_hazards.md R215. -/
theorem inv_reset (c : Config) (n : Nat) : Engine.Inv c { Engine.reset with resets := n } := by
  constructor
  case rx => exact bufferOk_empty _
  case tx => exact bufferOk_empty _
  all_goals simp [Engine.reset, receiveFailures]

/-- A committed packet is well-formed when `Decode` answered it (40_codec.md R93, R102). -/
theorem registersOk_commitPacket {c : Config} {e : Engine} {rescan : Bool} {buf : List Byte} {expect : Option Byte}
    {p : Packet} (hregs : RegistersOk c e) (hdecode : decodeFrame rescan buf expect = .ok p) :
    RegistersOk c (commitPacket c p e) := by
  obtain ⟨hrx, htx, hattempts, -, hlastErr⟩ := hregs
  obtain ⟨hlength, hcsum, -⟩ := decodeFrame_ok hdecode
  rw [commitPacket_eq]
  refine ⟨hrx, htx, hattempts, ?_, hlastErr⟩
  rintro q ⟨⟩
  exact ⟨hlength, hcsum⟩

/-- DECODE ends in a state that meets the invariant (40_codec.md R101). -/
theorem inv_settleDecode {c : Config} {e : Engine} (hregs : RegistersOk c e) (hop : e.cmdOp = .decode)
    (rescan : Bool) (buf : List Byte) (expect : Option Byte) :
    Engine.Inv c (settleDecode c (decodeFrame rescan buf expect) e) := by
  cases hdecode : decodeFrame rescan buf expect with
  | ok p => exact inv_complete (registersOk_commitPacket hregs hdecode) (codeOk_ok _ _)
  | error err =>
    obtain ⟨hrx, htx, hattempts, -, hlastErr⟩ := hregs
    exact inv_complete ⟨hrx, htx, hattempts, by simp, hlastErr⟩
      (codeOk_receiveFailure c err.code_mem_receiveFailures (by simp [hop]) rfl)

/-- The request that acceptance stores is the one that the latched command gives (41_transaction.md R123, R124): without
data the kept CMD_DATA does not matter. -/
theorem requestLoaded_latchTransaction {c : Config} {addr : Byte} {hasData : Bool} {d4 : Bytes4} {e : Engine}
    {m : Memory} (hstore : storeBytes txBufSize e.txBuf (buildRequest c.txTerminator addr hasData d4) = some m) :
    requestLoaded c (latchTransaction addr hasData d4
      { e with txBuf := m, txLen := (buildRequest c.txTerminator addr hasData d4).length }) := by
  have hload := loadBytes_storeBytes (Config.freeTxByte e.resets) hstore
  have hrequest : buildRequest c.txTerminator addr hasData (if hasData then d4 else e.cmdData) =
      buildRequest c.txTerminator addr hasData d4 := by
    cases hasData with
    | true => rfl
    | false => exact buildRequest_noData _ _ _ _
  exact hload.trans (congrArg some hrequest.symm)

/-- Acceptance of a transaction leads to its first SEND (41_transaction.md R124). -/
theorem inv_latchTransaction {c : Config} {addr : Byte} {hasData : Bool} {d4 : Bytes4} {e : Engine} {m : Memory}
    (hvalid : c.valid) (hregs : RegistersOk c e) (hop : e.cmdOp.isTransaction = true)
    (hstore : storeBytes txBufSize e.txBuf (buildRequest c.txTerminator addr hasData d4) = some m) :
    Engine.Inv c (latchTransaction addr hasData d4
      { e with txBuf := m, txLen := (buildRequest c.txTerminator addr hasData d4).length }) := by
  obtain ⟨hrx, htx, -, -, -⟩ := hregs
  obtain ⟨hmax, -⟩ := hvalid
  apply inv_running
  · exact ⟨hrx, bufferOk_store htx hstore, Nat.zero_le _, by simp, .inl rfl⟩
  · rfl
  · rfl
  · exact fun hfw => if_pos hfw
  · exact fun _ => ⟨hop, hmax, requestLoaded_latchTransaction hstore⟩
  · simp
  · simp

/-- Every accepted operation's first step leads to a state that meets the invariant. -/
theorem Accepted.inv {c : Config} {e e' : Engine} (h : Accepted c e e') (hvalid : c.valid)
    (hregs : RegistersOk c e) : Engine.Inv c e' := by
  have ⟨hrx, htx, hattempts, hpacket, hlastErr⟩ := hregs
  cases h with
  | illegal hop =>
    exact inv_complete hregs (codeOk_illegalCommand c fun hfw => by simp [hfw, OpCode.isTransaction] at hop)
  | encode hop hstore =>
    exact inv_complete ⟨hrx, bufferOk_store htx hstore, hattempts, hpacket, hlastErr⟩ (codeOk_ok _ _)
  | decode hop hstore =>
    apply inv_settleDecode
    · exact ⟨bufferOk_store hrx hstore, htx, hattempts, hpacket, hlastErr⟩
    · exact hop
  | decodeHealth hop => exact inv_complete hregs (codeOk_ok _ _)
  | transaction hop hstore => exact inv_latchTransaction hvalid hregs hop hstore
  | recv hop =>
    exact inv_running ⟨hrx, htx, hattempts, by simp, .inl rfl⟩ rfl rfl (fun hfw => by simp [hop] at hfw) (by simp)
      (fun _ => .inl hop) (by simp)

/-! ## ENGINE's stages -/

/-- A failed receive attempt completes, or sends again with an attempt left (41_transaction.md R128, R130). -/
theorem inv_failAttempt {c : Config} {code : ResultCode} {e : Engine} (h : Engine.Inv c e)
    (hphase : e.phase = .recv ∨ e.phase = .check) (hcode : code ∈ receiveFailures) :
    Engine.Inv c (failAttempt c code e) := by
  have hbusy : e.phase ≠ .idle := by rcases hphase with h | h <;> simp [h]
  obtain ⟨hstatus, hpkt⟩ := h.running hbusy
  have hversion := h.noVersionYet hbusy
  have hregs : RegistersOk c { e with lastErr := code } := ⟨h.rx, h.tx, h.attempts, h.packet, .inr hcode⟩
  rcases failAttempt_spec c code e with ⟨hop, heq⟩ | ⟨hop, hlast, heq⟩ | ⟨hop, hleft, heq⟩
  · rw [heq]
    exact inv_complete hregs (codeOk_receiveFailure c hcode (by simp [hop]) hpkt)
  · rw [heq]
    exact inv_complete hregs (codeOk_noResponse hversion hpkt hlast hcode)
  · rw [heq]
    obtain ⟨htrans, -, hrequest⟩ := (h.receiving hphase).resolve_left hop
    have hattempts := h.attempts
    exact inv_running hregs hstatus hpkt hversion (fun _ => ⟨htrans, by simp; omega, hrequest⟩) (by simp) (by simp)

/-- SEND goes on to RECV with one attempt more, or ends with an I/O error (41_transaction.md R125). -/
theorem inv_settleSend {c : Config} {e : Engine} (h : Engine.Inv c e) (hphase : e.phase = .send) (r : WriteResult) :
    Engine.Inv c (settleSend e.txLen r { e with attempts := e.attempts + 1 }) := by
  have hbusy : e.phase ≠ .idle := by simp [hphase]
  obtain ⟨hstatus, hpkt⟩ := h.running hbusy
  obtain ⟨htrans, hleft, hrequest⟩ := h.sending hphase
  have hversion := h.noVersionYet hbusy
  have hregs : RegistersOk c { e with attempts := e.attempts + 1 } := ⟨h.rx, h.tx, hleft, h.packet, h.lastErr⟩
  unfold settleSend
  split
  · exact inv_running hregs hstatus hpkt hversion (by simp) (fun _ => .inr ⟨htrans, by simp, hrequest⟩) (by simp)
  · exact inv_complete hregs (codeOk_ioError c hversion hpkt)

/-- A packet in RECV completes it with OK (41_transaction.md R142). -/
theorem inv_settleRecv {c : Config} {e : Engine} (h : Engine.Inv c e) (hphase : e.phase = .check)
    (rescan : Bool) (buf : List Byte) (expect : Option Byte) :
    Engine.Inv c (settleRecv c (decodeFrame rescan buf expect) e) := by
  cases hdecode : decodeFrame rescan buf expect with
  | ok p => exact inv_complete (registersOk_commitPacket h.registers hdecode) (codeOk_ok _ _)
  | error err => exact inv_failAttempt h (.inr hphase) err.code_mem_receiveFailures

/-- `finish_ok` of a committed packet (41_transaction.md R129, 43_facade.md R166). -/
theorem inv_finishOk {c : Config} {e : Engine} {p : Packet} (hregs : RegistersOk c e) (hversion : NoVersionYet e)
    (hpkt : e.pkt = some p) : Engine.Inv c (finishOk p e) := by
  rcases finishOk_spec p e with heq | ⟨-, d, heq⟩ | ⟨hop, hshort, heq⟩
  · rw [heq]
    exact inv_complete hregs (codeOk_ok _ _)
  · rw [heq]
    exact inv_complete hregs (codeOk_ok _ _)
  · rw [heq]
    exact inv_complete hregs (codeOk_malformedResponse c hversion hop hpkt hshort)

/-- A packet in a transaction completes it, with the code that its CF bit and GET_FW_VERSION give
(41_transaction.md R127). -/
theorem inv_settleTransaction {c : Config} {e : Engine} (h : Engine.Inv c e) (hphase : e.phase = .check)
    (hop : e.cmdOp ≠ .recv) (rescan : Bool) (buf : List Byte) (expect : Option Byte) :
    Engine.Inv c (settleTransaction c (decodeFrame rescan buf expect) e) := by
  cases hdecode : decodeFrame rescan buf expect with
  | error err => exact inv_failAttempt h (.inr hphase) err.code_mem_receiveFailures
  | ok p =>
    have hregs := registersOk_commitPacket h.registers hdecode
    have hversion : NoVersionYet e := h.noVersionYet (by simp [hphase])
    obtain ⟨-, hattempts, -⟩ := (h.receiving (.inr hphase)).resolve_left hop
    rw [commitPacket_eq] at hregs
    simp only [settleTransaction, commitPacket_eq]
    split
    next hcf => exact inv_complete hregs (codeOk_commandFailed c hversion rfl hcf hattempts)
    next => exact inv_finishOk hregs hversion rfl

/-- Every step that ENGINE takes by itself keeps the invariant. -/
theorem StageStep.inv {c : Config} {e e' : Engine} (hstep : StageStep c e e') (h : Engine.Inv c e) :
    Engine.Inv c e' := by
  cases hstep with
  | wait => exact h
  | send hphase r => exact inv_settleSend h hphase r
  | recvIoError hphase =>
    have hbusy : e.phase ≠ .idle := by simp [hphase]
    exact inv_complete h.registers (codeOk_ioError c (h.noVersionYet hbusy) (h.running hbusy).2)
  | recvTimeout hphase =>
    have hemptied : Engine.Inv c { e with rxLen := 0 } :=
      { h with rx := bufferOk_zero h.rx, checking := fun hcheck => by simp [hphase] at hcheck }
    exact inv_failAttempt hemptied (.inl hphase) (by decide)
  | received hphase hsome hstore =>
    obtain ⟨hstatus, hpkt⟩ := h.running (by simp [hphase])
    exact inv_running ⟨bufferOk_store h.rx hstore, h.tx, h.attempts, h.packet, h.lastErr⟩ hstatus hpkt
      (h.noVersionYet (by simp [hphase])) (by simp) (fun _ => h.receiving (.inl hphase)) (fun _ => hsome)
  | checkRecv hphase hload hop => exact inv_settleRecv h hphase _ _ _
  | checkTransaction hphase hload hop htrans => exact inv_settleTransaction h hphase hop _ _ _

/-! ## The machine -/

theorem EngineMoved.inv {c : Config} {e e' : Engine} (hmoved : EngineMoved c e e') (hvalid : c.valid)
    (h : Engine.Inv c e) : Engine.Inv c e' := by
  cases hmoved with
  | kept => exact h
  | accepted hidle haccepted => exact haccepted.inv hvalid h.registers
  | stage hstage => exact hstage.inv h

/-- Settles O52: a step resets ENGINE (`inv_reset`), accepts an operation (`Accepted.inv`) or takes a stage
(`StageStep.inv`), the parameters being the same. -/
theorem stepKeepsInvariant : Obligations.StepKeepsInvariant := by
  rintro s t ⟨hvalid, hinv⟩ h
  obtain ⟨hcfg, -⟩ := step_cfg_follows h
  unfold State.Inv
  rw [hcfg]
  refine ⟨hvalid, ?_⟩
  rcases step_engine h with ⟨-, heng⟩ | hmoved
  · rw [heng]
    exact inv_reset _ _
  · exact hmoved.inv hvalid hinv

/-- The parameters of this hardware are legal whatever the open ones are (70_reset_and_hazards.md R219). -/
theorem thisHardware_valid : Config.thisHardware.valid := by
  refine ⟨by decide, ?_, ?_, by decide, by decide⟩
  · exact Nat.le_add_left 67 _
  · exact Nat.le_add_left 1 _

/-- Settles O51. -/
theorem invariantAtReset : Obligations.InvariantAtReset :=
  ⟨thisHardware_valid, inv_reset _ 0⟩

end Sys2Proof.Machine
end

section
/-! SUPPORT. O56, O58: what a step leaves of the command, of the request and of the firmware version. -/

namespace Sys2Proof.Machine

/-! ## The command and the request -/

/-- The command latch (10_state.md R13) and the request in the TX buffer are the same. -/
def SameCommand (e e' : Engine) : Prop :=
  e'.cmdOp = e.cmdOp ∧ e'.cmdAddr = e.cmdAddr ∧ e'.cmdHasData = e.cmdHasData ∧
    e'.cmdData = e.cmdData ∧ e'.txBuf = e.txBuf ∧ e'.txLen = e.txLen

@[refl] theorem SameCommand.refl (e : Engine) : SameCommand e e := ⟨rfl, rfl, rfl, rfl, rfl, rfl⟩

theorem sameCommand_complete (code : ResultCode) (e : Engine) : SameCommand e (complete code e) := .refl e

theorem sameCommand_failAttempt (c : Config) (code : ResultCode) (e : Engine) :
    SameCommand e (failAttempt c code e) := by
  rcases failAttempt_spec c code e with ⟨-, heq⟩ | ⟨-, -, heq⟩ | ⟨-, -, heq⟩ <;> rw [heq] <;> exact .refl e

theorem sameCommand_commitPacket (c : Config) (p : Packet) (e : Engine) : SameCommand e (commitPacket c p e) := by
  rw [commitPacket_eq]
  exact .refl e

theorem sameCommand_finishOk (p : Packet) (e : Engine) : SameCommand e (finishOk p e) := by
  rcases finishOk_spec p e with heq | ⟨-, d, heq⟩ | ⟨-, -, heq⟩ <;> rw [heq] <;> exact .refl e

theorem sameCommand_settleSend (sent : Nat) (r : WriteResult) (e : Engine) : SameCommand e (settleSend sent r e) := by
  unfold settleSend
  split <;> exact .refl e

theorem sameCommand_settleRecv (c : Config) (r : Except DecodeError Packet) (e : Engine) :
    SameCommand e (settleRecv c r e) := by
  cases r with
  | ok p => exact sameCommand_commitPacket c p e
  | error err => exact sameCommand_failAttempt c err.code e

theorem sameCommand_settleTransaction (c : Config) (r : Except DecodeError Packet) (e : Engine) :
    SameCommand e (settleTransaction c r e) := by
  cases r with
  | error err => exact sameCommand_failAttempt c err.code e
  | ok p =>
    simp only [settleTransaction, commitPacket_eq]
    split
    · exact .refl e
    · exact sameCommand_finishOk p { e with pkt := some p, hb := hbAfter c p e.hb }

/-- No stage writes the command or the request (41_transaction.md R125). -/
theorem StageStep.sameCommand {c : Config} {e e' : Engine} (h : StageStep c e e') : SameCommand e e' := by
  cases h with
  | wait => exact .refl e
  | send hphase r => exact sameCommand_settleSend _ r { e with attempts := e.attempts + 1 }
  | recvIoError hphase => exact .refl e
  | recvTimeout hphase => exact sameCommand_failAttempt c .timeout { e with rxLen := 0 }
  | received hphase hsome hstore => exact .refl e
  | checkRecv hphase hload hop => exact sameCommand_settleRecv c _ e
  | checkTransaction hphase hload hop htrans => exact sameCommand_settleTransaction c _ e

/-- A busy ENGINE that is not reset keeps everything or takes a stage (41_transaction.md R122). -/
theorem EngineMoved.sameCommand {c : Config} {e e' : Engine} (h : EngineMoved c e e') (hbusy : e.phase ≠ .idle) :
    SameCommand e e' := by
  cases h with
  | kept => exact .refl e
  | accepted hidle haccepted => exact absurd hidle hbusy
  | stage hstage => exact hstage.sameCommand

/-- Settles O56: what a step other than reset makes of a busy ENGINE is `EngineMoved.sameCommand`. -/
theorem commandIsHeldWhileBusy : Obligations.CommandIsHeldWhileBusy := by
  intro s t hbusy h hnoReset
  rcases step_engine h with ⟨hreset, -⟩ | hmoved
  · exact absurd hreset hnoReset
  · exact hmoved.sameCommand hbusy

/-! ## The firmware version -/

theorem failAttempt_fw (c : Config) (code : ResultCode) (e : Engine) : (failAttempt c code e).fw = e.fw := by
  rcases failAttempt_spec c code e with ⟨-, heq⟩ | ⟨-, -, heq⟩ | ⟨-, -, heq⟩ <;> rw [heq]

theorem settleDecode_fw (c : Config) (r : Except DecodeError Packet) (e : Engine) : (settleDecode c r e).fw = e.fw := by
  cases r with
  | ok p => simp [settleDecode, commitPacket_eq]
  | error err => rfl

theorem settleRecv_fw (c : Config) (r : Except DecodeError Packet) (e : Engine) : (settleRecv c r e).fw = e.fw := by
  cases r with
  | ok p => simp [settleRecv, commitPacket_eq]
  | error err => exact failAttempt_fw c err.code e

/-- ENGINE has completed GET_FW_VERSION with OK, and the version is the first four data bytes of the response
(43_facade.md R166). -/
def VersionStored (e : Engine) : Prop :=
  e.status = .ok ∧ e.phase = .idle ∧ ∃ p, e.pkt = some p ∧ 4 ≤ p.data.length ∧
    e.fw = some ⟨p.data.getD 0 0, p.data.getD 1 0, p.data.getD 2 0, p.data.getD 3 0⟩

/-- `finish_ok` of the committed packet stores a version only for GET_FW_VERSION (41_transaction.md R129). -/
theorem finishOk_fw {p : Packet} {e : Engine} (hpkt : e.pkt = some p) :
    (finishOk p e).fw = e.fw ∨ e.cmdOp = .getFwVersion ∧ VersionStored (finishOk p e) := by
  unfold finishOk
  split
  next hop =>
    by_cases hlength : 4 ≤ p.data.length
    · right
      simp only [fwPost, firstFour_of_length hlength]
      exact ⟨hop, rfl, rfl, p, hpkt, hlength, rfl⟩
    · left
      simp only [fwPost, firstFour_eq_none.2 (Nat.lt_of_not_le hlength), complete_fw]
  next => exact .inl rfl

theorem settleTransaction_fw (c : Config) (r : Except DecodeError Packet) (e : Engine) :
    (settleTransaction c r e).fw = e.fw ∨ e.cmdOp = .getFwVersion ∧ VersionStored (settleTransaction c r e) := by
  cases r with
  | error err => exact .inl (failAttempt_fw c err.code e)
  | ok p =>
    simp only [settleTransaction, commitPacket_eq]
    split
    · exact .inl rfl
    · exact finishOk_fw (e := { e with pkt := some p, hb := hbAfter c p e.hb }) rfl

/-- Of ENGINE's stages only CHECK of GET_FW_VERSION changes the version. -/
theorem StageStep.fw {c : Config} {e e' : Engine} (h : StageStep c e e') :
    e'.fw = e.fw ∨ e.phase = .check ∧ e.cmdOp = .getFwVersion ∧ VersionStored e' := by
  cases h with
  | wait => exact .inl rfl
  | send hphase r =>
    unfold settleSend
    split <;> exact .inl rfl
  | recvIoError hphase => exact .inl rfl
  | recvTimeout hphase => exact .inl (failAttempt_fw c .timeout { e with rxLen := 0 })
  | received hphase hsome hstore => exact .inl rfl
  | checkRecv hphase hload hop => exact .inl (settleRecv_fw c _ e)
  | checkTransaction hphase hload hop htrans => exact (settleTransaction_fw c _ e).imp_right (⟨hphase, ·⟩)

/-- Of the operations only GET_FW_VERSION changes the version when accepted: it takes it away
(41_transaction.md R124). -/
theorem Accepted.fw {c : Config} {e e' : Engine} (h : Accepted c e e') :
    e'.fw = e.fw ∨ e'.cmdOp = .getFwVersion ∧ e'.phase = .send ∧ e'.fw = none := by
  cases h with
  | illegal hop => exact .inl rfl
  | encode hop hstore => exact .inl rfl
  | decode hop hstore => exact .inl (settleDecode_fw c _ _)
  | decodeHealth hop => exact .inl rfl
  | transaction hop hstore =>
    by_cases hfw : e.cmdOp = .getFwVersion
    · exact .inr ⟨hfw, rfl, if_pos hfw⟩
    · exact .inl (if_neg hfw)
  | recv hop => exact .inl rfl

/-- Apart from reset the version changes by an acceptance or by a stage. -/
theorem EngineMoved.fw {c : Config} {e e' : Engine} (h : EngineMoved c e e') :
    e'.fw = e.fw ∨ (e.phase = .idle ∧ e'.cmdOp = .getFwVersion ∧ e'.phase = .send ∧ e'.fw = none) ∨
      e.phase = .check ∧ e.cmdOp = .getFwVersion ∧ VersionStored e' := by
  cases h with
  | kept => exact .inl rfl
  | accepted hidle haccepted => exact haccepted.fw.imp_right fun htaken => .inl ⟨hidle, htaken⟩
  | stage hstage => exact hstage.fw.imp_right .inr

/-- Settles O58: a step is a reset or changes the version as `EngineMoved.fw` says. -/
theorem firmwareVersionPersists : Obligations.FirmwareVersionPersists := by
  intro s t h
  rcases step_engine h with ⟨hreset, -⟩ | hmoved
  · exact .inr (.inl hreset)
  · exact hmoved.fw.imp_right .inr

end Sys2Proof.Machine
end

section
/-! SUPPORT. O25, O32, O59: the values after reset, and what the host reads. -/

namespace Sys2Proof.Machine

/-- Settles O25: every value is one that `State.reset` writes out. -/
theorem stateAfterReset : Obligations.StateAfterReset :=
  ⟨rfl, rfl, rfl, rfl, rfl, rfl, rfl, rfl, rfl, rfl, rfl, rfl, rfl, rfl⟩

/-! ## The host's reads -/

theorem busy_eq_false {e : Engine} : e.busy = false ↔ e.phase = .idle := by
  simp [Engine.busy]

/-- While idle an element that can be read reads as it stands (10_state.md R26). -/
theorem hostRead_idle {r : HostReg} {s : State} (hidle : s.eng.busy = false) (hr : r.readable s.eng = true) :
    hostRead r s = elementRead s.cfg s.eng r := by
  simp [hostRead, hidle, hr]

/-- What an element that can be read holds is what it reads as while idle. -/
theorem hostRead_eq {r : HostReg} {v : HostRead} {s : State} (hidle : s.eng.busy = false)
    (h : r.readable s.eng = true ∧ elementRead s.cfg s.eng r = v) : hostRead r s = v :=
  (hostRead_idle hidle h.1).trans h.2

/-- While BUSY an element that can be read is not to be relied on (10_state.md R26). -/
theorem hostRead_busy {r : HostReg} {s : State} (hbusy : s.eng.busy = true) (hne : r ≠ .busy)
    (hr : r.readable s.eng = true) : hostRead r s = .unreliable := by
  simp [hostRead, hbusy, hr, hne]

/-- Only the buffers and their lengths have restricted access (10_state.md R26). -/
theorem readable_of_ne (e : Engine) {r : HostReg} (hrxLen : r ≠ .rxLen) (htxLen : r ≠ .txLen)
    (hbufs : ∀ i, r ≠ .rxBuf i ∧ r ≠ .txBuf i) : r.readable e = true := by
  cases r with
  | rxLen => exact absurd rfl hrxLen
  | txLen => exact absurd rfl htxLen
  | rxBuf i => exact absurd rfl (hbufs i).1
  | txBuf i => exact absurd rfl (hbufs i).2
  | _ => rfl

/-- The read of TX_BUF (10_state.md R26, log 26). -/
theorem hostRead_txBuf (i : Nat) (s : State) :
    hostRead (.txBuf i) s =
      if s.eng.phase = .idle ∧ s.eng.cmdOp = .encode ∧ s.eng.status = .ok ∧ i < s.eng.txLen then
        .value (.byte (txByte s.eng i))
      else .notReadable := by
  by_cases h : s.eng.phase = .idle ∧ s.eng.cmdOp = .encode ∧ s.eng.status = .ok ∧ i < s.eng.txLen
  · rw [if_pos h]
    exact hostRead_idle (busy_eq_false.2 h.1) (decide_eq_true h)
  · rw [if_neg h]
    exact if_pos (decide_eq_false h)

/-- A data byte of the packet, or a byte without a meaning (10_state.md R18). -/
theorem packetDataRead_eq (p : Packet) (i : Nat) :
    (∀ b, p.data[i]? = some b → packetDataRead p i = .value (.byte b)) ∧
      (p.data.length ≤ i → packetDataRead p i = .unreliable) := by
  unfold packetDataRead
  exact ⟨fun b hb => by rw [hb], fun hi => by rw [List.getElem?_eq_none hi]⟩

theorem hostRead_pktData {s : State} {p : Packet} (hidle : s.eng.busy = false) (hpkt : s.eng.pkt = some p)
    (i : Fin 60) : hostRead (.pktData i) s = packetDataRead p i :=
  hostRead_eq hidle (by simp [HostReg.readable, elementRead, hpkt])

/-- Settles O59: busy reads by `hostRead_busy`, idle reads by `hostRead_eq` and the element's own value. -/
theorem hostReads : Obligations.HostReads := by
  intro s
  refine ⟨by simp [hostRead, HostReg.readable, elementRead], ?busy, ?idle, rfl, rfl, ?buffers⟩
  case busy =>
    exact fun hbusy r hne hrxLen htxLen hbufs => hostRead_busy hbusy hne (readable_of_ne _ hrxLen htxLen hbufs)
  case buffers => exact fun i => ⟨rfl, hostRead_txBuf i s⟩
  case idle =>
    intro hidle
    refine ⟨?latch, ?packet, ?noPacket, ?heartbeat, ?noHeartbeat, ?version, ?noVersion⟩
    case latch =>
      refine fun x hx => hostRead_eq hidle ?_
      revert x
      simp [HostReg.readable, elementRead, Bytes4.byte, Bytes4.toList, Engine.pktValid, Engine.hbValid, Engine.fwValid]
    case packet =>
      intro p hpkt
      refine ⟨hostRead_eq hidle ?_, hostRead_eq hidle ?_, hostRead_eq hidle ?_, fun i => ?_⟩
      case refine_4 =>
        rw [hostRead_pktData hidle hpkt]
        exact packetDataRead_eq p i
      all_goals simp [HostReg.readable, elementRead, hpkt, readGuarded]
    case noPacket =>
      intro hpkt i
      refine fun r hr => hostRead_eq hidle ?_
      revert r
      simp [HostReg.readable, elementRead, hpkt, readGuarded]
    case heartbeat =>
      intro w hhb
      refine fun x hx => hostRead_eq hidle ?_
      revert x
      simp [HostReg.readable, elementRead, hhb, readGuarded]
    case noHeartbeat =>
      intro hhb
      refine fun r hr => hostRead_eq hidle ?_
      revert r
      simp [HostReg.readable, elementRead, hhb, readGuarded]
    case version =>
      intro d hfw
      refine ⟨hostRead_eq hidle ?_, hostRead_eq hidle ?_, hostRead_eq hidle ?_, hostRead_eq hidle ?_⟩
      all_goals simp [HostReg.readable, elementRead, hfw, readGuarded, Bytes4.byte, Bytes4.toList]
    case noVersion =>
      intro hfw i
      exact hostRead_eq hidle (by simp [HostReg.readable, elementRead, hfw, readGuarded])

/-! ## ENCODE -/

/-- Completing in one step writes STATUS alone (60_exceptions.md R200). -/
theorem complete_idle (code : ResultCode) {e : Engine} (hidle : e.phase = .idle) :
    complete code e = { e with status := code } := by
  simp [complete, ← hidle]

/-- Settles O32: the frame fits (`encodeStep_next`), the store puts it at the front of TX_BUF (`storeBytes_spec`), and
the host may read what ENCODE with OK left (`hostRead_txBuf`). -/
theorem encodeStoresTheFrame : Obligations.EncodeStoresTheFrame := by
  intro s pt addr data hidle hlength
  rcases encodeStep_next pt addr data (latchOp .encode s) with ⟨hbad, -⟩ | ⟨-, m, hstore, hnext⟩
  · exact absurd hlength hbad
  · have hstored : storedAtZero (txByte s.eng) (Memory.read (Config.freeTxByte s.eng.resets) m)
        (encodeFrame pt addr data) := by
      obtain ⟨-, -, -, hread, -, -⟩ := storeBytes_spec hstore
      exact hread _
    refine ⟨_, (issue_idle hidle).trans hnext, hstored, ?_, fun i b hb => ?_⟩
    · have hlen : (encodeFrame pt addr data).length = 7 + data.length := by rw [encodeFrame_length, Nat.add_comm]
      rw [hlen]
      exact congrArg (afterAccept s)
        (complete_idle .ok (e := { s.eng with cmdOp := .encode, txBuf := m, txLen := 7 + data.length }) hidle)
    · obtain ⟨hi, -⟩ := List.getElem?_eq_some_iff.1 hb
      rw [hostRead_txBuf, if_pos ⟨rfl, rfl, rfl, hi⟩]
      congr 2
      refine (hstored i).trans ?_
      rw [List.getD_eq_getElem?_getD, hb]
      rfl

end Sys2Proof.Machine
end

section
/-! SUPPORT. O29, O41, O53, O55: whose move a step is and what it runs, and everything that each of ENGINE's three
stages can do, faults included. -/

namespace Sys2Proof.Machine

/-! ## Which move a step is -/

theorem step_assertReset {s : State} {later : List Input} (h : s.env.inputs = .assertReset :: later) :
    step s = .next (assertReset (s.withInputs later)) := by
  unfold step nextMove; rw [h]

/-- A frame on the line is executed, the arrival taken off (60_exceptions.md R204). -/
theorem step_frame {s : State} {bytes : List Byte} {later : List Input} {i : Instr}
    (h : s.env.inputs = .arrive bytes :: later) (hdecode : decode .wire bytes = .ok i) :
    step s = exec i (s.withInputs later) := by
  simp [step, nextMove, moveOfArrival, h, hdecode]

/-- Bytes on the line that are not exactly one frame wait (20_memory.md R47). -/
theorem step_otherBytes {s : State} {bytes : List Byte} {later : List Input} {why : DecodeRefusal}
    (h : s.env.inputs = .arrive bytes :: later) (hdecode : decode .wire bytes = .error why) :
    step s = .next (lineIn bytes (s.withInputs later)) := by
  simp [step, nextMove, moveOfArrival, h, hdecode]

/-- An operation whose time has come is executed, the event taken off. -/
theorem step_operation {s : State} {now : Bool} {bytes : List Byte} {later : List Input} {i : Instr}
    (h : s.env.inputs = .issue now bytes :: later) (hready : now = true ∨ s.eng.phase = .idle)
    (hdecode : decode .host bytes = .ok i) : step s = exec i (s.withInputs later) := by
  simp [step, nextMove, moveOfIssue, h, hready, hdecode]

/-- An issue event whose bytes carry no operation is refused when its time has come (log 16). -/
theorem step_noOperation {s : State} {now : Bool} {bytes : List Byte} {later : List Input} {why : DecodeRefusal}
    (h : s.env.inputs = .issue now bytes :: later) (hready : now = true ∨ s.eng.phase = .idle)
    (hdecode : decode .host bytes = .error why) : step s = .refused (.notAnOperation why) := by
  simp [step, nextMove, moveOfIssue, h, hready, hdecode]

/-- Settles O29: the two cases of an arrival. -/
theorem stepRunsTheArrivingFrame : Obligations.StepRunsTheArrivingFrame := by
  intro s bytes later hinputs
  exact ⟨fun i => step_frame hinputs, fun why => step_otherBytes hinputs⟩

/-! ## Every instruction answers a next state -/

/-- Every instruction is a frame that joins the inbound stream, or an operation issued whose first step is one of an
accepted operation. -/
theorem exec_line_or_issue (i : Instr) (s : State) :
    (∃ bytes, exec i s = .next (lineIn bytes s)) ∨
    ∃ op first, exec i s = issue op first s ∧ FirstStepAccepts op first s := by
  cases i with
  | frameNodata | frameSingle | frameBatch => exact .inl ⟨_, rfl⟩
  | encode pt addr data => exact .inr ⟨_, _, rfl, encodeStep_accepts pt addr data s⟩
  | decode buf expect => exact .inr ⟨_, _, rfl, decodeStep_accepts buf expect s⟩
  | decodeHealth d4 => exact .inr ⟨_, _, rfl, _, rfl, .decodeHealth rfl⟩
  | recv => exact .inr ⟨_, _, rfl, _, rfl, .recv rfl⟩
  | reserved0 | reserved7 | reservedF => exact .inr ⟨_, _, rfl, completeIllegal_accepts rfl s⟩
  | writeRegister | readRegister | readConfig | pollHealth | getFwVersion | factoryReset | zeroGyros
  | setHomePosition | setMagReference | resetEkf | flashCommit =>
    exact .inr ⟨_, _, rfl, acceptTransaction_accepts rfl _ _ _ s⟩

/-- No instruction faults and none is refused. -/
theorem exec_next (i : Instr) (s : State) : ∃ t, exec i s = .next t := by
  rcases exec_line_or_issue i s with ⟨bytes, heq⟩ | ⟨op, first, heq, e, hfirst, -⟩
  · exact ⟨_, heq⟩
  · by_cases hidle : s.eng.phase = .idle
    · exact ⟨_, heq.trans ((issue_idle hidle).trans hfirst)⟩
    · exact ⟨_, heq.trans (issue_busy hidle)⟩

/-- An instruction transmits nothing: a request goes out only in SEND (20_memory.md R52). -/
theorem Executed.outbound {s t : State} (h : Executed s t) : t.env.bs.outbound = s.env.bs.outbound := by
  cases h with
  | line bytes => rfl
  | rejected hbusy => rfl
  | accepted hidle haccepted => rfl

theorem exec_next_outbound (i : Instr) (s : State) :
    ∃ t, exec i s = .next t ∧ t.env.bs.outbound = s.env.bs.outbound := by
  obtain ⟨t, ht⟩ := exec_next i s
  exact ⟨t, ht, (exec_executed ht).outbound⟩

/-! ## What the stages can do -/

/-- Until its write is answered SEND waits (41_transaction.md R134, log 15). -/
theorem stepSend_unanswered {s : State} {request : List Byte} (hload : loadTx s.eng = some request)
    (hwrite : ByteSource.write request s.env.bs = none) : stepSend s = .next s := by
  simp [stepSend, hload, hwrite]

theorem stepSend_answered {s : State} {request : List Byte} {r : WriteResult} {b : ByteSource}
    (hload : loadTx s.eng = some request) (hwrite : ByteSource.write request s.env.bs = some (r, b)) :
    stepSend s =
      .next ((s.withBs b).withEng (settleSend s.eng.txLen r { s.eng with attempts := s.eng.attempts + 1 })) := by
  simp [stepSend, hload, hwrite]

/-- Everything step SEND can do (41_transaction.md R125). -/
theorem stepSend_cases (s : State) :
    (loadTx s.eng = none ∧ stepSend s = .fault .txBufAccess) ∨
    ∃ request, loadTx s.eng = some request ∧
      ((ByteSource.write request s.env.bs = none ∧ stepSend s = .next s) ∨
       ∃ r b, ByteSource.write request s.env.bs = some (r, b) ∧
        stepSend s =
          .next ((s.withBs b).withEng (settleSend s.eng.txLen r { s.eng with attempts := s.eng.attempts + 1 }))) := by
  cases hload : loadTx s.eng with
  | none => exact .inl ⟨rfl, by simp [stepSend, hload]⟩
  | some request =>
    refine .inr ⟨request, rfl, ?_⟩
    cases hwrite : ByteSource.write request s.env.bs with
    | none => exact .inl ⟨rfl, stepSend_unanswered hload hwrite⟩
    | some answer => exact .inr ⟨_, _, rfl, stepSend_answered hload hwrite⟩

/-- Step RECV answers a next state, in which only ENGINE and the Byte Source have changed, and transmits nothing: what a
receive attempt hands over fits RX_BUF (20_memory.md R46, 41_transaction.md R126). -/
theorem stepRecv_next (s : State) :
    ∃ b e, stepRecv s = .next ((s.withBs b).withEng e) ∧ b.outbound = s.env.bs.outbound := by
  unfold stepRecv
  cases hattempt : rxAttempt s.cfg.rxBufSize s.cfg.pollLimit s.env.bs with
  | none => exact ⟨s.env.bs, s.eng, rfl, rfl⟩
  | some answer =>
    obtain ⟨result, b⟩ := answer
    obtain ⟨hout, -⟩ := rxAttempt_taken hattempt
    cases result with
    | ioError => exact ⟨b, _, rfl, hout⟩
    | timeout => exact ⟨b, _, rfl, hout⟩
    | bytes received =>
      obtain ⟨-, hfits⟩ := rxAttempt_bytes_length hattempt
      simp only [storeRx_fits s.cfg s.eng hfits]
      exact ⟨b, _, rfl, hout⟩

/-- Everything step CHECK can do (41_transaction.md R127, R142, log 13): of a next state only ENGINE has changed. -/
theorem stepCheck_cases (s : State) :
    (loadRx s.cfg s.eng = none ∧ stepCheck s = .fault .rxBufAccess) ∨
    (s.eng.cmdOp ≠ .recv ∧ s.eng.cmdOp.isTransaction = false ∧ stepCheck s = .fault .noStepEnabled) ∨
    ∃ e, stepCheck s = .next (s.withEng e) := by
  unfold stepCheck
  cases hload : loadRx s.cfg s.eng with
  | none => exact .inl ⟨rfl, rfl⟩
  | some buf =>
    right
    by_cases hrecv : s.eng.cmdOp = .recv
    · exact .inr ⟨_, if_pos hrecv⟩
    · cases htrans : s.eng.cmdOp.isTransaction with
      | true => exact .inr ⟨_, if_neg hrecv⟩
      | false => exact .inl ⟨hrecv, rfl, if_neg hrecv⟩

theorem engineStep_idle {s : State} (h : s.eng.phase = .idle) : engineStep s = .next s := by
  unfold engineStep; rw [h]

theorem engineStep_send {s : State} (h : s.eng.phase = .send) : engineStep s = stepSend s := by
  unfold engineStep; rw [h]

theorem engineStep_recv {s : State} (h : s.eng.phase = .recv) : engineStep s = stepRecv s := by
  unfold engineStep; rw [h]

theorem engineStep_check {s : State} (h : s.eng.phase = .check) : engineStep s = stepCheck s := by
  unfold engineStep; rw [h]

/-! ## Whose move it is, and with what outcome -/

/-- A step is ENGINE's; or a move of HOST, of the line or of reset, which never faults and transmits nothing; or the
refusal of bytes without an operation. -/
theorem step_moves (s : State) :
    (∃ l, step s = engineStep (s.withInputs l)) ∨
    (∃ t, step s = .next t ∧ t.env.bs.outbound = s.env.bs.outbound) ∨
    ∃ now bytes later why, s.env.inputs = .issue now bytes :: later ∧ decode .host bytes = .error why ∧
      step s = .refused (.notAnOperation why) := by
  cases hinputs : s.env.inputs with
  | nil => exact .inl ⟨[], by rw [State.withInputs_self hinputs, step_noInputs hinputs]⟩
  | cons input later =>
    cases input with
    | turn => exact .inl ⟨later, step_turn hinputs⟩
    | assertReset => exact .inr (.inl ⟨_, step_assertReset hinputs, rfl⟩)
    | arrive bytes =>
      cases hdecode : decode .wire bytes with
      | ok i =>
        rw [step_frame hinputs hdecode]
        exact .inr (.inl (exec_next_outbound i _))
      | error why => exact .inr (.inl ⟨_, step_otherBytes hinputs hdecode, rfl⟩)
    | issue now bytes =>
      by_cases hready : now = true ∨ s.eng.phase = .idle
      · cases hdecode : decode .host bytes with
        | ok i =>
          rw [step_operation hinputs hready hdecode]
          exact .inr (.inl (exec_next_outbound i _))
        | error why =>
          exact .inr (.inr ⟨now, bytes, later, why, rfl, hdecode, step_noOperation hinputs hready hdecode⟩)
      · obtain ⟨hnow, hbusy⟩ := not_or.1 hready
        obtain rfl := Bool.eq_false_of_not_eq_true hnow
        exact .inl ⟨_, by rw [State.withInputs_self hinputs, step_waiting hinputs hbusy]⟩

/-! ## Faults -/

/-- A legal ENGINE's own step answers a next state: in SEND the request is loaded, in CHECK the bytes received are, and
CHECK belongs to RECV or to a transaction. -/
theorem engineStep_next {s : State} (h : Engine.Inv s.cfg s.eng) : ∃ t, engineStep s = .next t := by
  cases hphase : s.eng.phase with
  | idle => exact ⟨s, engineStep_idle hphase⟩
  | send =>
    rw [engineStep_send hphase]
    obtain ⟨-, -, hloaded⟩ := h.sending hphase
    rcases stepSend_cases s with ⟨hnone, -⟩ | ⟨request, -, ⟨-, hstep⟩ | ⟨r, b, -, hstep⟩⟩
    · exact absurd (hnone.symm.trans hloaded) (by simp)
    · exact ⟨_, hstep⟩
    · exact ⟨_, hstep⟩
  | recv =>
    obtain ⟨b, e, hstep, -⟩ := stepRecv_next s
    exact ⟨_, (engineStep_recv hphase).trans hstep⟩
  | check =>
    rw [engineStep_check hphase]
    obtain ⟨-, hfits, -, -⟩ := h.rx
    rcases stepCheck_cases s with ⟨hnone, -⟩ | ⟨hrecv, htrans, -⟩ | ⟨e, hstep⟩
    · exact absurd (hnone.symm.trans (loadBytes_fits _ _ hfits)) (by simp)
    · obtain ⟨htrans', -⟩ := (h.receiving (.inr hphase)).resolve_left hrecv
      exact absurd (htrans.symm.trans htrans') (by decide)
    · exact ⟨_, hstep⟩

/-- Settles O53: of the moves only ENGINE's own could fault, and under the invariant it does not (`engineStep_next`). -/
theorem invariantRulesOutFaults : Obligations.InvariantRulesOutFaults := by
  rintro s ⟨-, hinv⟩
  have hnext_or_refused : (∃ t, step s = .next t) ∨ ∃ now bytes later why,
      s.env.inputs = .issue now bytes :: later ∧ decode .host bytes = .error why ∧
        step s = .refused (.notAnOperation why) := by
    rcases step_moves s with ⟨l, heq⟩ | ⟨t, heq, -⟩ | hrefused
    · rw [heq]
      exact .inl (engineStep_next (s := s.withInputs l) hinv)
    · exact .inl ⟨t, heq⟩
    · exact .inr hrefused
  rcases hnext_or_refused with ⟨t, heq⟩ | ⟨now, bytes, later, why, hinputs, hdecode, heq⟩
  · simp [heq]
  · rw [heq]
    exact ⟨by simp, fun r hr => ⟨now, bytes, later, why, hinputs, hdecode, (Host.Outcome.refused.inj hr).symm⟩⟩

/-! ## Transmission -/

/-- ENGINE's own step leaves the outbound stream, or it is SEND and appends what its write took of the request. -/
theorem engineStep_outbound {s t : State} (h : engineStep s = .next t) :
    t.env.bs.outbound = s.env.bs.outbound ∨
    s.eng.phase = .send ∧ ∃ request k, loadTx s.eng = some request ∧
      t.env.bs.outbound = s.env.bs.outbound ++ request.take k := by
  cases hphase : s.eng.phase with
  | idle =>
    obtain rfl := Host.Outcome.next.inj ((engineStep_idle hphase).symm.trans h)
    exact .inl rfl
  | send =>
    rw [engineStep_send hphase] at h
    rcases stepSend_cases s with ⟨-, hstep⟩ | ⟨request, hload, ⟨-, hstep⟩ | ⟨r, b, hwrite, hstep⟩⟩
    · exact absurd (hstep.symm.trans h) (by simp)
    · obtain rfl := Host.Outcome.next.inj (hstep.symm.trans h)
      exact .inl rfl
    · obtain rfl := Host.Outcome.next.inj (hstep.symm.trans h)
      obtain ⟨-, -, ⟨k, -, -, -, -, hout⟩ | ⟨-, -, -, -, hout⟩⟩ := ByteSource.write_spec hwrite
      · exact .inr ⟨rfl, request, k, hload, hout⟩
      · exact .inl hout
  | recv =>
    obtain ⟨b, e, hstep, hout⟩ := stepRecv_next s
    obtain rfl := Host.Outcome.next.inj (((engineStep_recv hphase).trans hstep).symm.trans h)
    exact .inl hout
  | check =>
    rw [engineStep_check hphase] at h
    rcases stepCheck_cases s with ⟨-, hstep⟩ | ⟨-, -, hstep⟩ | ⟨e, hstep⟩
    · exact absurd (hstep.symm.trans h) (by simp)
    · exact absurd (hstep.symm.trans h) (by simp)
    · obtain rfl := Host.Outcome.next.inj (hstep.symm.trans h)
      exact .inl rfl

/-- Settles O55: only ENGINE's move transmits (`step_moves`), and of its stages only SEND (`engineStep_outbound`). -/
theorem onlySendTransmits : Obligations.OnlySendTransmits := by
  intro s t h hchanged
  rcases step_moves s with ⟨l, heq⟩ | ⟨t', heq, hout⟩ | ⟨_, _, _, _, -, -, heq⟩
  · exact (engineStep_outbound (heq.symm.trans h)).resolve_left hchanged
  · obtain rfl := Host.Outcome.next.inj (heq.symm.trans h)
    exact absurd hout hchanged
  · exact absurd (heq.symm.trans h) (by simp)

/-! ## Step SEND, answer by answer -/

theorem ByteSource.write_unanswered {b : ByteSource} (bytes : List Byte) (h : b.writeAnswers = []) :
    ByteSource.write bytes b = none := by
  unfold ByteSource.write; rw [h]

theorem ByteSource.write_failure {b : ByteSource} {later : List WriteAnswer} (bytes : List Byte)
    (h : b.writeAnswers = .failure :: later) :
    ByteSource.write bytes b = some (.failure, { b with writeAnswers := later }) := by
  unfold ByteSource.write; rw [h]

theorem ByteSource.write_upTo {b : ByteSource} {k : Nat} {later : List WriteAnswer} (bytes : List Byte)
    (h : b.writeAnswers = .upTo k :: later) :
    ByteSource.write bytes b =
      some (.count (min k bytes.length),
        { b with writeAnswers := later, outbound := b.outbound ++ bytes.take k }) := by
  unfold ByteSource.write; rw [h]

/-- A full count goes on to RECV (41_transaction.md R125). -/
theorem settleSend_full (sent : Nat) (e : Engine) : settleSend sent (.count sent) e = { e with phase := .recv } :=
  if_pos rfl

/-- A short count or a failure ends the operation (41_transaction.md R125). -/
theorem settleSend_short {sent : Nat} {r : WriteResult} (e : Engine) (h : r ≠ .count sent) :
    settleSend sent r e = { e with status := .ioError, phase := .idle } :=
  if_neg h

/-- The step of an ENGINE in SEND whose write is answered. -/
theorem step_send_answered {s : State} {request : List Byte} {r : WriteResult} {b : ByteSource}
    (hinputs : s.env.inputs = []) (hphase : s.eng.phase = .send) (hload : loadTx s.eng = some request)
    (hwrite : ByteSource.write request s.env.bs = some (r, b)) :
    step s = .next ((s.withBs b).withEng
      (settleSend request.length r { s.eng with attempts := s.eng.attempts + 1 })) := by
  rw [step_noInputs hinputs, engineStep_send hphase, loadTx_length hload]
  exact stepSend_answered hload hwrite

/-- Settles O41: each answer to the write, and what SEND makes of it. -/
theorem sendStep : Obligations.SendStep := by
  intro s request hinputs hphase hload
  refine ⟨fun k later hanswer hfull => ?full, fun k later hanswer hshort => ?short,
    fun later hanswer => ?failure, fun hnone => ?unanswered⟩
  case full =>
    rw [step_send_answered hinputs hphase hload (ByteSource.write_upTo request hanswer), Nat.min_eq_right hfull,
      settleSend_full, List.take_of_length_le hfull]
    rfl
  case short =>
    rw [step_send_answered hinputs hphase hload (ByteSource.write_upTo request hanswer), Nat.min_eq_left hshort.le,
      settleSend_short _ (by simpa using hshort.ne)]
    rfl
  case failure =>
    rw [step_send_answered hinputs hphase hload (ByteSource.write_failure request hanswer),
      settleSend_short _ (by simp)]
    rfl
  case unanswered =>
    rw [step_noInputs hinputs, engineStep_send hphase]
    exact stepSend_unanswered hload (ByteSource.write_unanswered request hnone)

end Sys2Proof.Machine
end

section
/-! SUPPORT. O40: the receive attempt, poll by poll and as a whole. -/

namespace Sys2Proof.Machine

/-! ## One read -/

theorem ByteSource.read_unanswered {b : ByteSource} (max : Nat) (h : b.readAnswers = []) :
    ByteSource.read max b = none := by
  unfold ByteSource.read; rw [h]

theorem ByteSource.read_failure {b : ByteSource} {later : List ReadAnswer} (max : Nat)
    (h : b.readAnswers = .failure :: later) :
    ByteSource.read max b = some (.failure, { b with readAnswers := later }) := by
  unfold ByteSource.read; rw [h]

theorem ByteSource.read_upTo {b : ByteSource} {k : Nat} {later : List ReadAnswer} (max : Nat)
    (h : b.readAnswers = .upTo k :: later) :
    ByteSource.read max b = some (.bytes (b.inbound.take (min k max)),
      { b with readAnswers := later, inbound := b.inbound.drop (min k max) }) := by
  unfold ByteSource.read; rw [h]

/-- The would-block state: a read answered with no byte, because none may be handed over or none waits
(20_memory.md R46). -/
theorem ByteSource.read_empty {b : ByteSource} {k max : Nat} {later : List ReadAnswer}
    (h : b.readAnswers = .upTo k :: later) (hempty : min k max = 0 ∨ b.inbound = []) :
    ByteSource.read max b = some (.bytes [], { b with readAnswers := later }) := by
  rw [read_upTo max h]
  rcases hempty with hzero | hnil
  · rw [hzero, List.take_zero, List.drop_zero]
  · simp [hnil]

/-! ## One poll -/

theorem rxAttempt_unanswered {max : Nat} {b : ByteSource} (polls : Nat) (h : ByteSource.read max b = none) :
    rxAttempt max (polls + 1) b = none := by
  rw [rxAttempt_succ, h]

theorem rxAttempt_failure {max : Nat} {b b' : ByteSource} (polls : Nat)
    (h : ByteSource.read max b = some (.failure, b')) : rxAttempt max (polls + 1) b = some (.ioError, b') := by
  rw [rxAttempt_succ, h]

theorem rxAttempt_empty {max : Nat} {b b' : ByteSource} (polls : Nat)
    (h : ByteSource.read max b = some (.bytes [], b')) :
    rxAttempt max (polls + 1) b = rxAttempt max polls b' := by
  rw [rxAttempt_succ, h]

theorem rxAttempt_bytes {max : Nat} {b b' : ByteSource} {bytes : List Byte} (polls : Nat)
    (h : ByteSource.read max b = some (.bytes bytes, b')) (hsome : bytes ≠ []) :
    rxAttempt max (polls + 1) b = some (.bytes bytes, b') := by
  obtain ⟨x, xs, rfl⟩ := List.exists_cons_of_ne_nil hsome
  rw [rxAttempt_succ, h]

/-- Everything the first poll of an attempt can come to: it ends the attempt, or the attempt goes on with one poll
fewer. -/
theorem rxAttempt_succ_cases {max polls : Nat} {b b' : ByteSource} {r : RxResult}
    (h : rxAttempt max (polls + 1) b = some (r, b')) :
    (r = .ioError ∧ ByteSource.read max b = some (.failure, b')) ∨
    (∃ bytes, r = .bytes bytes ∧ ByteSource.read max b = some (.bytes bytes, b')) ∨
    ∃ b₁, ByteSource.read max b = some (.bytes [], b₁) ∧ rxAttempt max polls b₁ = some (r, b') := by
  cases hread : ByteSource.read max b with
  | none => simp [rxAttempt_unanswered polls hread] at h
  | some answer =>
    obtain ⟨result, b₁⟩ := answer
    cases result with
    | failure =>
      obtain ⟨rfl, rfl⟩ := Prod.mk.inj (Option.some.inj ((rxAttempt_failure polls hread).symm.trans h))
      exact .inl ⟨rfl, rfl⟩
    | bytes bytes =>
      by_cases hempty : bytes = []
      · subst hempty
        exact .inr (.inr ⟨b₁, rfl, (rxAttempt_empty polls hread).symm.trans h⟩)
      · obtain ⟨rfl, rfl⟩ := Prod.mk.inj (Option.some.inj ((rxAttempt_bytes polls hread hempty).symm.trans h))
        exact .inr (.inl ⟨bytes, rfl, rfl⟩)

/-! ## The whole attempt -/

/-- What an attempt of so many polls has taken, by its result (20_memory.md R46, log 27). -/
def AttemptTakes (max polls : Nat) (b b' : ByteSource) : RxResult → Prop
  | .bytes bytes => 1 ≤ bytes.length ∧ bytes.length ≤ max ∧ b.inbound = bytes ++ b'.inbound
  | .timeout => b'.inbound = b.inbound ∧ b.readAnswers.length = b'.readAnswers.length + polls
  | .ioError => b'.inbound = b.inbound ∧ b'.readAnswers.length < b.readAnswers.length

/-- An empty poll before an attempt takes an answer and no byte. -/
theorem AttemptTakes.poll {max polls : Nat} {b b₁ b' : ByteSource} {r : RxResult}
    (h : AttemptTakes max polls b₁ b' r) (hin : b.inbound = b₁.inbound)
    (hanswers : b.readAnswers.length = b₁.readAnswers.length + 1) : AttemptTakes max (polls + 1) b b' r := by
  cases r with
  | bytes bytes =>
    obtain ⟨hsome, hfits, htaken⟩ := h
    exact ⟨hsome, hfits, hin.trans htaken⟩
  | timeout =>
    obtain ⟨hkept, hused⟩ := h
    exact ⟨hkept.trans hin.symm, by omega⟩
  | ioError =>
    obtain ⟨hkept, hused⟩ := h
    exact ⟨hkept.trans hin.symm, by omega⟩

/-- An attempt leaves what goes out, and takes what its result says. -/
theorem rxAttempt_takes {max polls : Nat} {b b' : ByteSource} {r : RxResult}
    (h : rxAttempt max polls b = some (r, b')) :
    b'.outbound = b.outbound ∧ b'.writeAnswers = b.writeAnswers ∧ AttemptTakes max polls b b' r := by
  induction polls generalizing b with
  | zero =>
    obtain ⟨rfl, rfl⟩ := Prod.mk.inj (Option.some.inj h)
    exact ⟨rfl, rfl, rfl, rfl⟩
  | succ polls ih =>
    rcases rxAttempt_succ_cases h with ⟨rfl, hread⟩ | ⟨bytes, rfl, hread⟩ | ⟨b₁, hread, hrest⟩
    · obtain ⟨hout, hwrites, hin, hanswers⟩ := ByteSource.read_spec hread
      have hkept : b'.inbound = b.inbound := by simpa using hin
      exact ⟨hout, hwrites, hkept, by omega⟩
    · obtain ⟨hout, hwrites, hin, -⟩ := ByteSource.read_spec hread
      have htaken : bytes.length ≤ max ∧ b.inbound = bytes ++ b'.inbound := by simpa using hin
      obtain ⟨hsome, hfits⟩ := rxAttempt_bytes_length h
      exact ⟨hout, hwrites, hsome, hfits, htaken.2⟩
    · obtain ⟨hout, hwrites, hin, hanswers⟩ := ByteSource.read_spec hread
      obtain ⟨hout', hwrites', htakes⟩ := ih hrest
      exact ⟨hout'.trans hout, hwrites'.trans hwrites, htakes.poll (by simpa using hin) hanswers⟩

/-- An attempt is answered when every one of its polls is. -/
theorem rxAttempt_isSome {max polls : Nat} {b : ByteSource} (h : polls ≤ b.readAnswers.length) :
    (rxAttempt max polls b).isSome = true := by
  induction polls generalizing b with
  | zero => rfl
  | succ polls ih =>
    cases hanswers : b.readAnswers with
    | nil => simp [hanswers] at h
    | cons answer later =>
      have hlater : polls ≤ later.length := by simpa [hanswers] using h
      cases answer with
      | failure => rw [rxAttempt_failure polls (ByteSource.read_failure max hanswers)]; rfl
      | upTo k =>
        have hread := ByteSource.read_upTo max hanswers
        by_cases hempty : b.inbound.take (min k max) = []
        · rw [hempty] at hread
          rw [rxAttempt_empty polls hread]
          exact ih hlater
        · rw [rxAttempt_bytes polls hread hempty]
          rfl

/-- Settles O40: the first poll by its answer, and the attempt as a whole by `rxAttempt_isSome` and
`rxAttempt_takes`. -/
theorem receiveAttemptShape : Obligations.ReceiveAttemptShape := by
  intro max polls b
  refine ⟨rfl, fun hnone => ?unanswered, fun later hanswer => ?failure,
    fun k later hanswer => ⟨fun hpositive hwaiting => ?bytes, fun hempty => ?empty⟩,
    rxAttempt_isSome, fun r b' h => rxAttempt_takes h⟩
  case unanswered => exact rxAttempt_unanswered polls (ByteSource.read_unanswered max hnone)
  case failure => exact rxAttempt_failure polls (ByteSource.read_failure max hanswer)
  case bytes =>
    refine rxAttempt_bytes polls (ByteSource.read_upTo max hanswer) fun htake => ?_
    rcases List.take_eq_nil_iff.1 htake with hzero | hnil
    · omega
    · exact hwaiting hnil
  case empty => exact rxAttempt_empty polls (ByteSource.read_empty hanswer hempty)

end Sys2Proof.Machine
end

section
/-! SUPPORT. O2, O4: the line decoder. One relation says which bytes after the header are which frame, and the
decoder answers exactly what it says. -/

namespace Sys2Proof

/-! ## The fields of a `packet_type` -/

/-- The fields of a `packet_type`, put together, are the byte: no bit is dropped (30_encoding.md R62, R69). -/
theorem packetType_of_fields {pt : Byte} {d b : Bool} (hdata : hasData pt = d) (hbatch : isBatch pt = b) :
    packetType d b (batchLength pt) (bit1 pt) (cf pt) = pt := by
  subst hdata hbatch; exact packetType_fields pt

theorem batchLength_toNat (pt : Byte) : (batchLength pt).toNat = pt.toNat / 4 % 16 := by
  revert pt; decide

/-- HAS_DATA and IS_BATCH in terms of the masks of 30_encoding.md R66. -/
theorem mask_eq_iff (pt : Byte) :
    (pt &&& 0x80 = 0x00 ↔ hasData pt = false) ∧ (pt &&& 0xC0 = 0x80 ↔ hasData pt = true ∧ isBatch pt = false) ∧
      (pt &&& 0xC0 = 0xC0 ↔ hasData pt = true ∧ isBatch pt = true) := by
  revert pt; decide

theorem dataLength_nodata {pt : Byte} (hdata : hasData pt = false) : dataLength pt = 0 := by
  simp [dataLength, hdata]

theorem dataLength_single {pt : Byte} (hdata : hasData pt = true) (hbatch : isBatch pt = false) :
    dataLength pt = 4 := by
  simp [dataLength, hdata, hbatch]

theorem dataLength_batch {pt : Byte} (hdata : hasData pt = true) (hbatch : isBatch pt = true) :
    dataLength pt = 4 * (batchLength pt).toNat := by
  simp [dataLength, hdata, hbatch]

/-! ## The three frame kinds -/

/-- These bytes after the header with `pt` and `addr` are the data and the checksum field of this frame
(30_encoding.md R60, R65, R66). -/
inductive FrameAfterHeader (pt addr : Byte) : List Byte → Instr → Prop
  | nodata (w : Word16) (hdata : hasData pt = false) :
      FrameAfterHeader pt addr [hiByte w, loByte w]
        (.frameNodata (isBatch pt) (batchLength pt) (bit1 pt) (cf pt) addr w)
  | single (d : Bytes4) (w : Word16) (hdata : hasData pt = true) (hbatch : isBatch pt = false) :
      FrameAfterHeader pt addr (d.toList ++ [hiByte w, loByte w])
        (.frameSingle (batchLength pt) (bit1 pt) (cf pt) addr d w)
  | batch (data : List Byte) (w : Word16) (hdata : hasData pt = true) (hbatch : isBatch pt = true)
      (hfits : batchDataFits (batchLength pt) data) :
      FrameAfterHeader pt addr (data ++ [hiByte w, loByte w])
        (.frameBatch (batchLength pt) (bit1 pt) (cf pt) addr data w)

theorem decodeFrameKind_of_frame {pt addr : Byte} {rest : List Byte} {i : Instr}
    (h : FrameAfterHeader pt addr rest i) : decodeFrameKind pt addr rest = .ok i := by
  cases h with
  | nodata w hdata => simp [decodeFrameKind, hdata]
  | single d w hdata hbatch => simp [decodeFrameKind, hdata, hbatch, Bytes4.toList]
  | batch data w hdata hbatch hfits =>
    simp [decodeFrameKind, hdata, hbatch, List.drop_left' hfits, List.take_left' hfits]

theorem frame_of_decodeFrameKind {pt addr : Byte} {rest : List Byte} {i : Instr}
    (h : decodeFrameKind pt addr rest = .ok i) : FrameAfterHeader pt addr rest i := by
  unfold decodeFrameKind at h
  split at h
  next hdata =>
    split at h
    next hi lo =>
      obtain rfl := Except.ok.inj h
      simpa using FrameAfterHeader.nodata (addr := addr) (be16 hi lo) hdata
    next => cases h
  next hdata =>
    replace hdata : hasData pt = true := by simpa using hdata
    split at h
    next hbatch =>
      split at h
      next b0 b1 b2 b3 hi lo =>
        obtain rfl := Except.ok.inj h
        simpa [Bytes4.toList] using
          FrameAfterHeader.single (addr := addr) ⟨b0, b1, b2, b3⟩ (be16 hi lo) hdata hbatch
      next => cases h
    next hbatch =>
      replace hbatch : isBatch pt = true := by simpa using hbatch
      split at h
      next hi lo hrest =>
        obtain rfl := Except.ok.inj h
        have hlength : rest.length - 4 * (batchLength pt).toNat = 2 := by
          simpa using congrArg List.length hrest
        have hframe := FrameAfterHeader.batch (addr := addr) (rest.take (4 * (batchLength pt).toNat)) (be16 hi lo)
          hdata hbatch (List.length_take_of_le (by omega))
        rwa [hiByte_be16, loByte_be16, ← hrest, List.take_append_drop] at hframe
      next => cases h

/-- A frame has the data its `packet_type` calls for and a checksum field of two bytes (30_encoding.md R64, R65). -/
theorem FrameAfterHeader.length {pt addr : Byte} {rest : List Byte} {i : Instr}
    (h : FrameAfterHeader pt addr rest i) : rest.length = dataLength pt + 2 := by
  cases h with
  | nodata w hdata => simp [dataLength_nodata hdata]
  | single d w hdata hbatch => simp [dataLength_single hdata hbatch]
  | batch data w hdata hbatch hfits => simp [dataLength_batch hdata hbatch, hfits]

theorem FrameAfterHeader.wellFormed {pt addr : Byte} {rest : List Byte} {i : Instr}
    (h : FrameAfterHeader pt addr rest i) : i.wellFormed = true ∧ i.port = .wire := by
  cases h with
  | nodata | single => exact ⟨rfl, rfl⟩
  | batch data w hdata hbatch hfits => exact ⟨decide_eq_true hfits, rfl⟩

theorem FrameAfterHeader.encode {pt addr : Byte} {rest : List Byte} {i : Instr}
    (h : FrameAfterHeader pt addr rest i) (c : Config) : encode c i = header pt addr ++ rest := by
  cases h with
  | nodata w hdata => simp [Sys2Proof.encode, frameBytes, packetType_of_fields hdata rfl]
  | single d w hdata hbatch => simp [Sys2Proof.encode, frameBytes, packetType_of_fields hdata hbatch]
  | batch data w hdata hbatch hfits => simp [Sys2Proof.encode, frameBytes, packetType_of_fields hdata hbatch]

/-- Every well-formed frame instruction is the frame of a `packet_type` that its own fields make up. -/
theorem exists_header_of_wellFormed {i : Instr} (hwf : i.wellFormed = true) (hport : i.port = .wire) :
    ∃ pt addr rest, FrameAfterHeader pt addr rest i := by
  cases i with
  | frameNodata b l r f addr w =>
    have h := FrameAfterHeader.nodata (pt := packetType false b l r f) (addr := addr) w (by simp)
    simp only [isBatch_packetType, batchLength_packetType, bit1_packetType, cf_packetType] at h
    exact ⟨_, _, _, h⟩
  | frameSingle l r f addr d w =>
    have h := FrameAfterHeader.single (pt := packetType true false l r f) (addr := addr) d w (by simp) (by simp)
    simp only [batchLength_packetType, bit1_packetType, cf_packetType] at h
    exact ⟨_, _, _, h⟩
  | frameBatch l r f addr data w =>
    have h := FrameAfterHeader.batch (pt := packetType true true l r f) (addr := addr) data w (by simp) (by simp)
      (by rw [batchLength_packetType]; exact of_decide_eq_true hwf)
    simp only [batchLength_packetType, bit1_packetType, cf_packetType] at h
    exact ⟨_, _, _, h⟩
  | _ => cases hport

/-! ## The line decoder -/

/-- What the line decoder reads as a frame begins with a header, and the frame follows (30_encoding.md R60). -/
theorem frame_of_decode_wire {bytes : List Byte} {i : Instr} (h : decode .wire bytes = .ok i) :
    ∃ pt addr rest, bytes = header pt addr ++ rest ∧ FrameAfterHeader pt addr rest i := by
  change decodeWire bytes = .ok i at h
  unfold decodeWire at h
  split at h
  next s0 s1 s2 pt addr rest =>
    split at h
    next hmarker => exact ⟨pt, addr, rest, by rw [header, ← hmarker]; rfl, frame_of_decodeFrameKind h⟩
    next => cases h
  next => cases h

/-- With the header in front the line decoder answers exactly the frame that follows it. -/
theorem decode_wire_header_eq_ok {pt addr : Byte} {rest : List Byte} {i : Instr} :
    decode .wire (header pt addr ++ rest) = .ok i ↔ FrameAfterHeader pt addr rest i :=
  ⟨frame_of_decodeFrameKind, decodeFrameKind_of_frame⟩

/-- Settles O2: the decoder answers only a frame that stands in the bytes, and that frame's encoding is those bytes
(`FrameAfterHeader.encode`). -/
theorem wireDecodingIsExact : Obligations.WireDecodingIsExact := by
  intro bytes i h
  obtain ⟨pt, addr, rest, rfl, hframe⟩ := frame_of_decode_wire h
  exact ⟨hframe.wellFormed.1, hframe.wellFormed.2, hframe.encode⟩

/-! ## Every `packet_type` is one frame kind -/

/-- The last two bytes of a frame as its checksum field (30_encoding.md R65). -/
theorem exists_data_checksum {rest : List Byte} {n : Nat} (h : rest.length = n + 2) :
    ∃ w : Word16, rest = rest.take n ++ [hiByte w, loByte w] := by
  have hlast : (rest.drop n).length = 2 := by simp [h]
  obtain ⟨hi, lo, hdrop⟩ := List.length_eq_two.1 hlast
  exact ⟨be16 hi lo, by rw [hiByte_be16, loByte_be16, ← hdrop, List.take_append_drop]⟩

theorem exists_frameNodata {pt : Byte} (addr : Byte) {rest : List Byte} (hdata : hasData pt = false)
    (hlength : rest.length = 2) : ∃ b l r f w, FrameAfterHeader pt addr rest (.frameNodata b l r f addr w) := by
  obtain ⟨w, hrest⟩ := exists_data_checksum (n := 0) hlength
  rw [hrest]
  exact ⟨_, _, _, _, w, .nodata w hdata⟩

theorem exists_frameSingle {pt : Byte} (addr : Byte) {rest : List Byte} (hdata : hasData pt = true)
    (hbatch : isBatch pt = false) (hlength : rest.length = 6) :
    ∃ l r f d w, FrameAfterHeader pt addr rest (.frameSingle l r f addr d w) := by
  obtain ⟨w, hrest⟩ := exists_data_checksum (n := 4) hlength
  have hfour : (rest.take 4).length = 4 := by simp [hlength]
  obtain ⟨b0, b1, b2, b3, hd⟩ := List.length_eq_four.1 hfour
  rw [hrest, hd]
  exact ⟨_, _, _, _, w, .single ⟨b0, b1, b2, b3⟩ w hdata hbatch⟩

theorem exists_frameBatch {pt : Byte} (addr : Byte) {rest : List Byte} (hdata : hasData pt = true)
    (hbatch : isBatch pt = true) (hlength : rest.length = dataLength pt + 2) :
    ∃ l r f w, FrameAfterHeader pt addr rest (.frameBatch l r f addr (rest.take (dataLength pt)) w) := by
  obtain ⟨w, hrest⟩ := exists_data_checksum hlength
  have hfits : batchDataFits (batchLength pt) (rest.take (dataLength pt)) := by
    rw [batchDataFits, ← dataLength_batch hdata hbatch]
    exact List.length_take_of_le (by omega)
  have hframe := FrameAfterHeader.batch (addr := addr) _ w hdata hbatch hfits
  rw [← hrest] at hframe
  exact ⟨_, _, _, w, hframe⟩

/-- Bytes as many as the `packet_type` calls for are a frame, whatever they are (30_encoding.md R66). -/
theorem exists_frame {pt : Byte} (addr : Byte) {rest : List Byte} (hlength : rest.length = dataLength pt + 2) :
    ∃ i, FrameAfterHeader pt addr rest i := by
  cases hdata : hasData pt with
  | false =>
    obtain ⟨b, l, r, f, w, h⟩ := exists_frameNodata addr hdata (by rw [hlength, dataLength_nodata hdata])
    exact ⟨_, h⟩
  | true =>
    cases hbatch : isBatch pt with
    | false =>
      obtain ⟨l, r, f, d, w, h⟩ :=
        exists_frameSingle addr hdata hbatch (by rw [hlength, dataLength_single hdata hbatch])
      exact ⟨_, h⟩
    | true =>
      obtain ⟨l, r, f, w, h⟩ := exists_frameBatch addr hdata hbatch hlength
      exact ⟨_, h⟩

/-- Settles O4: the kind is read off HAS_DATA and IS_BATCH (`mask_eq_iff`), and each kind's frames are those with the
data length it fixes. -/
theorem everyPacketTypeIsOneFrameKind : Obligations.EveryPacketTypeIsOneFrameKind := by
  intro pt addr rest
  simp only [decode_wire_header_eq_ok]
  obtain ⟨hnodata, hsingle, hbatched⟩ := mask_eq_iff pt
  refine ⟨⟨fun ⟨i, h⟩ => h.length, exists_frame addr⟩, ?_⟩
  rw [ne_eq, ne_eq, ne_eq, hnodata, hsingle, hbatched, ← batchLength_toNat]
  cases hdata : hasData pt with
  | false =>
    exact .inl ⟨rfl, by simp, by simp, dataLength_nodata hdata, exists_frameNodata addr hdata⟩
  | true =>
    cases hbatch : isBatch pt with
    | false =>
      exact .inr (.inl ⟨by simp, by simp, by simp, dataLength_single hdata hbatch,
        exists_frameSingle addr hdata hbatch⟩)
    | true =>
      exact .inr (.inr ⟨by simp, by simp, by simp, dataLength_batch hdata hbatch,
        exists_frameBatch addr hdata hbatch⟩)

end Sys2Proof
end

section
/-! SUPPORT. O1, O3, O5, O6, O7: the command port's decoder, the round trip at both ports, and the code numbers. -/

namespace Sys2Proof

/-! ## One operation's operands -/

/-- A code byte in front leaves the operands to the operation's own row (30_encoding.md R75). -/
theorem decode_host_toByte (op : OpCode) (operands : List Byte) :
    decode .host (op.toByte :: operands) = decodeOperands operands op := by
  have hcode : op.toBits.toNat < 16 := op.toBits.isLt
  simp [decode, decodeHost, hcode]

theorem toByte_ofCode {b : Byte} (h : b.toNat < 16) : (OpCode.ofCode b.toNat).toByte = b := by
  revert b; decide

/-- Bytes that the command port decodes are a code byte and that operation's operands. -/
theorem operands_of_decode_host {bytes : List Byte} {i : Instr} (h : decode .host bytes = .ok i) :
    ∃ op operands, bytes = OpCode.toByte op :: operands ∧ decodeOperands operands op = .ok i := by
  change decodeHost bytes = .ok i at h
  unfold decodeHost at h
  split at h
  next => cases h
  next b operands =>
    split at h
    next hcode => exact ⟨OpCode.ofCode b.toNat, operands, by rw [toByte_ofCode hcode], h⟩
    next => cases h

theorem decodeDecode_bit (valid : Bool) (a : Byte) (buf : List Byte) :
    decodeDecode (byteOfBit valid :: a :: buf) = .ok (.decode buf (if valid then some a else none)) := by
  simp [decodeDecode]

theorem decodeWriteRegister_bit (addr : Byte) (hasData : Bool) (d : Bytes4) :
    decodeWriteRegister (addr :: byteOfBit hasData :: d.toList) = .ok (.writeRegister addr hasData d) := by
  simp [decodeWriteRegister, Bytes4.toList]

theorem decodeDecode_ok {operands : List Byte} {i : Instr} (h : decodeDecode operands = .ok i) :
    ∃ valid a buf b, operands = valid :: a :: buf ∧ i = .decode buf (if b = true then some a else none) := by
  unfold decodeDecode at h
  split at h
  next valid a buf =>
    split at h
    next b _ => exact ⟨valid, a, buf, b, rfl, (Except.ok.inj h).symm⟩
    next => cases h
  next => cases h

theorem decodeWriteRegister_ok {operands : List Byte} {i : Instr} (h : decodeWriteRegister operands = .ok i) :
    operands.length = 6 ∧ ∃ addr hasData d, i = .writeRegister addr hasData d := by
  unfold decodeWriteRegister at h
  split at h
  next addr hasData b0 b1 b2 b3 =>
    split at h
    next => exact ⟨rfl, _, _, _, (Except.ok.inj h).symm⟩
    next => cases h
  next => cases h

/-- A host operation that is its own (no pseudo-operation, R79) and whose encoding has this many bytes. -/
def IsOperationOfLength (i : Instr) (n : Nat) : Prop :=
  i.wellFormed = true ∧ i.port = .host ∧ ∀ c, i.core c = i ∧ (encode c i).length = n

/-- Whatever operands an operation's row takes, its encoding has as many bytes. -/
theorem isOperation_of_decodeOperands {op : OpCode} {operands : List Byte} {i : Instr}
    (h : decodeOperands operands op = .ok i) : IsOperationOfLength i (operands.length + 1) := by
  cases op with
  | encode =>
    match operands, h with
    | _ :: _ :: _, h => obtain rfl := Except.ok.inj h; exact ⟨rfl, rfl, fun _ => ⟨rfl, rfl⟩⟩
  | decode =>
    obtain ⟨valid, a, buf, b, rfl, rfl⟩ := decodeDecode_ok h
    cases b with
    | false | true => exact ⟨rfl, rfl, fun _ => ⟨rfl, rfl⟩⟩
  | decodeHealth =>
    match operands, h with
    | [_, _, _, _], h => obtain rfl := Except.ok.inj h; exact ⟨rfl, rfl, fun _ => ⟨rfl, rfl⟩⟩
  | writeRegister =>
    obtain ⟨hlength, addr, hasData, d, rfl⟩ := decodeWriteRegister_ok h
    rw [hlength]
    exact ⟨rfl, rfl, fun _ => ⟨rfl, rfl⟩⟩
  | readRegister =>
    match operands, h with
    | [_], h => obtain rfl := Except.ok.inj h; exact ⟨rfl, rfl, fun _ => ⟨rfl, rfl⟩⟩
  | _ =>
    match operands, h with
    | [], h => obtain rfl := Except.ok.inj h; exact ⟨rfl, rfl, fun _ => ⟨rfl, rfl⟩⟩

/-! ## The round trip -/

/-- A host operation's encoding is its code byte and operands that the operation's row takes. -/
theorem decode_encode_host {i : Instr} (c : Config) (hport : i.port = .host) :
    decode .host (encode c i) = .ok (i.core c) := by
  cases i with
  | frameNodata | frameSingle | frameBatch => cases hport
  | decode buf expect =>
    cases expect with
    | none => exact (decode_host_toByte .decode _).trans (decodeDecode_bit false 0 buf)
    | some a => exact (decode_host_toByte .decode _).trans (decodeDecode_bit true a buf)
  | writeRegister addr hasData d =>
    exact (decode_host_toByte .writeRegister _).trans (decodeWriteRegister_bit addr hasData d)
  | _ => exact decode_host_toByte _ _

theorem decode_encode_wire {i : Instr} (c : Config) (hwf : i.wellFormed = true) (hport : i.port = .wire) :
    decode .wire (encode c i) = .ok i := by
  obtain ⟨pt, addr, rest, hframe⟩ := exists_header_of_wellFormed hwf hport
  rw [hframe.encode c]
  exact decode_wire_header_eq_ok.2 hframe

/-- A frame is no pseudo-operation. -/
theorem core_of_wire {i : Instr} (c : Config) (hport : i.port = .wire) : i.core c = i := by
  cases i with
  | readConfig | pollHealth => cases hport
  | _ => rfl

/-- Settles O1: the round trip at the instruction's own port. -/
theorem encodedInstructionDecodes : Obligations.EncodedInstructionDecodes := by
  intro c i hwf
  cases hport : i.port with
  | host => exact decode_encode_host c hport
  | wire => rw [core_of_wire c hport]; exact decode_encode_wire c hwf hport

/-- Settles O3: what is decoded is a host operation of its own, as long as its bytes, and the round trip of O1 gives it
back. -/
theorem hostDecodingIsStable : Obligations.HostDecodingIsStable := by
  intro bytes i h
  obtain ⟨op, operands, rfl, hoperands⟩ := operands_of_decode_host h
  obtain ⟨hwf, hport, hcore⟩ := isOperation_of_decodeOperands hoperands
  refine ⟨hwf, hport, fun c => ?_⟩
  obtain ⟨hself, hlength⟩ := hcore c
  exact ⟨by rw [decode_encode_host c hport, hself], hlength⟩

/-! ## Samples and numbers -/

/-- Settles O5: the eight words, decoded. -/
theorem sampleWordsDecode : Obligations.SampleWordsDecode :=
  ⟨rfl, rfl, rfl, rfl, rfl, rfl, rfl, rfl⟩

/-- The code byte in front of DECODE's operands, with and without an expected address. -/
theorem encode_decode_head (c : Config) (buf : List Byte) (expect : Option Byte) :
    (encode c (.decode buf expect)).head? = some OpCode.decode.toByte := by
  cases expect with
  | none | some => rfl

/-- Settles O6: every operation's encoding begins with its code byte, DECODE's by `encode_decode_head`. -/
theorem operationCodes : Obligations.OperationCodes := by
  intro c pt a l x h d
  simp only [List.map_cons, List.map_nil, encode_decode_head]
  rfl

/-- Settles O7: the fourteen numbers as listed; no constructor has another. -/
theorem resultCodeNumbers : Obligations.ResultCodeNumbers := by
  refine ⟨rfl, fun code => ?_⟩
  cases code with
  | _ => decide

end Sys2Proof
end

section
/-! SUPPORT. O28, O31, O33, O38: what issued and arriving instructions do in their first step. -/

namespace Sys2Proof.Machine

/-- Settles O28: the two cases of an issue event whose time has come. -/
theorem stepRunsTheIssuedOperation : Obligations.StepRunsTheIssuedOperation := by
  intro s now bytes later hinputs hready
  exact ⟨fun i => step_operation hinputs hready, fun why => step_noOperation hinputs hready⟩

/-- Settles O31: each kind's frame, byte by byte (`frameBytes_eq`), with the `packet_type` that its fields make up. -/
theorem framesWaitInTheInboundStream : Obligations.FramesWaitInTheInboundStream := by
  intro s b r f l addr d data w
  refine ⟨packetType false b l r f, packetType true false l r f, packetType true true l r f,
    by simp, by simp, by simp, ?nodata, ?single, ?batch⟩
  case nodata => rfl
  case single => rfl
  case batch =>
    have hbytes := frameBytes_eq (packetType true true l r f) addr data w
    rw [List.append_assoc]
    exact congrArg (fun bytes => Host.Outcome.next (lineIn bytes s)) hbytes

/-- An operation issued to an idle ENGINE that only completes: CMD_OP and STATUS are written (60_exceptions.md R196). -/
theorem issue_completes {op : OpCode} {first : State → Result} {code : ResultCode} {s : State}
    (hidle : s.eng.phase = .idle) (hfirst : first (latchOp op s) = completeOnly code (latchOp op s)) :
    issue op first s = .next (afterAccept s { s.eng with cmdOp := op, status := code }) := by
  rw [issue_idle hidle, hfirst]
  exact congrArg (fun e => Host.Outcome.next (afterAccept s e))
    (complete_idle code (e := { s.eng with cmdOp := op }) hidle)

/-- Settles O33: each of the five only completes with ILLEGAL_COMMAND. -/
theorem illegalCommands : Obligations.IllegalCommands := by
  intro s hidle
  refine ⟨fun pt addr data hlength => ?encode, fun buf expect hlength => ?decode,
    issue_completes hidle rfl, issue_completes hidle rfl, issue_completes hidle rfl⟩
  case encode => exact issue_completes hidle (if_pos hlength)
  case decode => exact issue_completes hidle (if_pos hlength)

/-- Accepting a transaction without data: the next state depends on the operation in CMD_OP, and in FW_VALID if it is
GET_FW_VERSION, and not on the data operand (41_transaction.md R124, R135). -/
theorem issue_transaction_noData {s : State} (op : OpCode) (addr : Byte) (d d' : Bytes4)
    (hidle : s.eng.phase = .idle) :
    ∃ t, exec (.writeRegister addr false d) s = .next t ∧ t.eng.phase = .send ∧
      issue op (acceptTransaction addr false d') s =
        .next { t with eng := { t.eng with cmdOp := op, fw := if op = .getFwVersion then none else t.eng.fw } } := by
  obtain ⟨m, hstore, hwrite⟩ := acceptTransaction_next addr false d (latchOp .writeRegister s)
  obtain ⟨m', hstore', hread⟩ := acceptTransaction_next addr false d' (latchOp op s)
  obtain rfl : m' = m := Option.some.inj (hstore'.symm.trans hstore)
  exact ⟨_, (issue_idle hidle).trans hwrite, rfl, (issue_idle hidle).trans hread⟩

/-- Settles O38: the three reads are READ_REGISTER's code and a transaction without data. -/
theorem readsAreWritesWithoutData : Obligations.ReadsAreWritesWithoutData := by
  intro s addr d hidle
  constructor
  · obtain ⟨t, hwrite, hsend, hread⟩ := issue_transaction_noData .readRegister addr d Bytes4.zero hidle
    exact ⟨t, hwrite, hsend, hread, hread⟩
  · exact issue_transaction_noData .readRegister s.cfg.addrHealth d Bytes4.zero hidle

end Sys2Proof.Machine
end

section
/-! SUPPORT. O8, O9, O10: the numbers of the codec, by the values of the bytes. -/

namespace Sys2Proof.Machine

/-! ## The data length -/

theorem hasData_eq_false_iff (pt : Byte) : hasData pt = false ↔ pt.toNat < 128 := by
  revert pt; decide

theorem isBatch_eq_false_iff {pt : Byte} (h : hasData pt = true) : isBatch pt = false ↔ pt.toNat < 192 := by
  revert pt; decide

/-- Settles O8: the three cases of R90, the flags read off the byte's value. -/
theorem dataLengthOfEveryPacketType : Obligations.DataLengthOfEveryPacketType := by
  intro pt
  have hle := dataLength_le pt
  by_cases hdata : pt.toNat < 128
  · simp [dataLength_nodata ((hasData_eq_false_iff pt).2 hdata), hdata]
  · have hhas : hasData pt = true := by simpa using mt (hasData_eq_false_iff pt).1 hdata
    by_cases hbatch : pt.toNat < 192
    · simp [dataLength_single hhas ((isBatch_eq_false_iff hhas).2 hbatch), hdata, hbatch]
    · have his : isBatch pt = true := by simpa using mt (isBatch_eq_false_iff hhas).1 hbatch
      have hlength : dataLength pt = 4 * (pt.toNat / 4 % 16) := by
        rw [dataLength_batch hhas his, batchLength_toNat]
      rw [if_neg hdata, if_neg hbatch]
      omega

/-! ## The checksum -/

/-- The sum of R91 as a number, with the `mod`. -/
theorem checksum_toNat (pt addr : Byte) (data : List Byte) :
    (checksum pt addr data).toNat = (337 + pt.toNat + addr.toNat + (data.map BitVec.toNat).sum) % 65536 := by
  have hmarker : (337 : Word16).toNat = 337 := rfl
  simp only [checksum_eq, BitVec.toNat_add, BitVec.toNat_setWidth, byteSum_toNat, hmarker]
  omega

theorem sum_toNat_le (data : List Byte) : (data.map BitVec.toNat).sum ≤ 255 * data.length := by
  have hbyte : ∀ n ∈ data.map BitVec.toNat, n ≤ 255 := by
    intro n hn
    obtain ⟨b, -, rfl⟩ := List.mem_map.1 hn
    omega
  simpa [Nat.mul_comm] using List.sum_le_card_nsmul _ 255 hbyte

/-- At most 60 data bytes: the sum of R91 stays below 65536 (R92). -/
theorem checksum_toNat_of_valid {pt : Byte} (addr : Byte) {data : List Byte} (hvalid : structurallyValid pt data) :
    (checksum pt addr data).toNat = 337 + pt.toNat + addr.toNat + (data.map BitVec.toNat).sum ∧
      337 ≤ (checksum pt addr data).toNat ∧ (checksum pt addr data).toNat ≤ 16147 := by
  have hlength : data.length ≤ 60 := hvalid ▸ dataLength_le pt
  have hsum := sum_toNat_le data
  rw [checksum_toNat]
  omega

/-- Settles O9: no sum wraps (`checksum_toNat_of_valid`), and a decoded packet is well-formed (`decodeFrame_ok`). -/
theorem checksumNeverWraps : Obligations.ChecksumNeverWraps := by
  refine ⟨fun pt addr data => checksum_toNat_of_valid addr, by decide, ?_, fun rescan buf expect p hdecode => ?_⟩
  · rw [checksum_toNat]
    simp
  · obtain ⟨hlength, hcsum, -⟩ := decodeFrame_ok hdecode
    rw [hcsum]
    exact (checksum_toNat_of_valid p.address hlength).2

/-! ## The bytes of a frame -/

theorem hiByte_loByte_toNat (w : Word16) : 256 * (hiByte w).toNat + (loByte w).toNat = w.toNat := by
  simp only [hiByte, loByte, BitVec.extractLsb'_toNat]
  omega

/-- Settles O10: the frame as a list (`frameBytes_eq`), its last two bytes the checksum (`checksum_toNat`). -/
theorem encodedFrameLayout : Obligations.EncodedFrameLayout := by
  intro pt addr data
  have hframe := frameBytes_eq pt addr data (checksum pt addr data)
  have hat : ∀ i, (encodeFrame pt addr data)[5 + i]? =
      (data ++ [hiByte (checksum pt addr data), loByte (checksum pt addr data)])[i]? := by
    intro i
    rw [encodeFrame, hframe, Nat.add_comm]
    rfl
  refine ⟨by rw [encodeFrame_length, Nat.add_comm], ?_, fun i hi => ?_,
    hiByte (checksum pt addr data), loByte (checksum pt addr data), ?_, ?_, ?_⟩
  · rw [encodeFrame, hframe]; rfl
  · rw [hat, List.getElem?_append_left hi]
  · rw [hat]; simp
  · rw [show 6 + data.length = 5 + (data.length + 1) by omega, hat]; simp
  · rw [hiByte_loByte_toNat, checksum_toNat]

end Sys2Proof.Machine
end

section
/-! SUPPORT. What one candidate comes to (40_codec.md R97, steps 3 to 8): it is truncated, or a frame with some checksum
field stands there and the address and that field decide. -/

namespace Sys2Proof.Machine

/-! ## Frames and truncated candidates -/

/-- Bytes enough for what `packet_type` calls for are a frame with its data and some checksum field, and what follows
it (R97 step 5). -/
theorem exists_frame_of_length {pt : Byte} (addr : Byte) {rest : List Byte} (h : dataLength pt + 2 ≤ rest.length) :
    ∃ data w after, structurallyValid pt data ∧ header pt addr ++ rest = frameBytes pt addr data w ++ after := by
  obtain ⟨w, hfield⟩ := exists_data_checksum (List.length_take_of_le h)
  rw [List.take_take, Nat.min_eq_left (by omega)] at hfield
  refine ⟨rest.take (dataLength pt), w, rest.drop (dataLength pt + 2), List.length_take_of_le (by omega), ?_⟩
  rw [frameBytes, List.append_assoc, List.append_assoc, ← List.append_assoc (rest.take _), ← hfield,
    List.take_append_drop]

theorem tryCandidate_header_truncated (expect : Option Byte) {pt : Byte} (addr : Byte) {rest : List Byte}
    (h : rest.length < dataLength pt + 2) :
    tryCandidate expect (header pt addr ++ rest) = .ends (.error .truncated) :=
  (tryCandidate_eq expect pt addr rest).trans (if_pos h)

/-- Steps 6 to 8 of R97: the address and the checksum field decide, whatever follows the frame. -/
theorem tryCandidate_frame (expect : Option Byte) {pt : Byte} (addr : Byte) {data : List Byte} (w : Word16)
    (after : List Byte) (hvalid : structurallyValid pt data) :
    tryCandidate expect (frameBytes pt addr data w ++ after) =
      if expect ≠ none ∧ expect ≠ some addr then .otherAddress
      else if checksum pt addr data = w then .ends (.ok ⟨pt, addr, data, w⟩)
      else .ends (.error .badChecksum) := by
  have hlow : (data ++ hiByte w :: loByte w :: after).getD (data.length + 1) 0 = loByte w := by
    rw [List.getD_append_right _ _ _ _ (by omega)]; simp
  have hhigh : (data ++ hiByte w :: loByte w :: after).getD data.length 0 = hiByte w := by
    rw [List.getD_append_right _ _ _ _ (by omega)]; simp
  have hframe : frameBytes pt addr data w ++ after =
      0x73 :: 0x6E :: 0x70 :: pt :: addr :: (data ++ hiByte w :: loByte w :: after) := by
    simp [frameBytes_eq]
  rw [hframe, tryCandidate_eq, ← hvalid, hhigh, hlow, be16_hi_lo, List.take_left' rfl]
  exact if_neg (by simp)

/-- Everything that can stand at a marker. -/
theorem candidate_cases {cand : List Byte} (hmarker : markerAt cand = true) :
    (∀ expect, tryCandidate expect cand = .ends (.error .truncated)) ∨
      ∃ pt addr data w after, structurallyValid pt data ∧ cand = frameBytes pt addr data w ++ after := by
  obtain ⟨rest, rfl⟩ := markerAt_eq_true.1 hmarker
  match rest with
  | [] => exact .inl fun expect => tryCandidate_short expect (by simp)
  | [_] => exact .inl fun expect => tryCandidate_short expect (by simp)
  | pt :: addr :: rest =>
    by_cases hlength : dataLength pt + 2 ≤ rest.length
    · obtain ⟨data, w, after, hvalid, hframe⟩ := exists_frame_of_length addr hlength
      exact .inr ⟨pt, addr, data, w, after, hvalid, hframe⟩
    · exact .inl fun expect => tryCandidate_header_truncated expect addr (by omega)

/-! ## What follows from the cases -/

/-- The errors that a candidate can end the call with (R97 steps 3, 5, 7). -/
theorem tryCandidate_error {expect : Option Byte} {cand : List Byte} {err : DecodeError}
    (hmarker : markerAt cand = true) (h : tryCandidate expect cand = .ends (.error err)) :
    err = .truncated ∨ err = .badChecksum := by
  rcases candidate_cases hmarker with htruncated | ⟨pt, addr, data, w, after, hvalid, rfl⟩
  · rw [htruncated] at h
    cases h
    exact .inl rfl
  · rw [tryCandidate_frame expect addr w after hvalid] at h
    split_ifs at h with haddr hsum
    · cases h
    · cases h
      exact .inr rfl

/-- A candidate that gives a packet is that packet's frame, and what follows it (R98). -/
theorem exists_after_of_tryCandidate_ok {expect : Option Byte} {cand : List Byte} {p : Packet}
    (hmarker : markerAt cand = true) (h : tryCandidate expect cand = .ends (.ok p)) :
    ∃ after, cand = encodeFrame p.ptype p.address p.data ++ after := by
  rcases candidate_cases hmarker with htruncated | ⟨pt, addr, data, w, after, hvalid, rfl⟩
  · rw [htruncated] at h
    cases h
  · rw [tryCandidate_frame expect addr w after hvalid] at h
    split_ifs at h with haddr hsum
    · cases h
      exact ⟨after, by rw [encodeFrame, hsum]⟩
    · cases h

/-- Bytes at the end of the buffer matter only to a truncated candidate (R98). -/
theorem tryCandidate_append {expect : Option Byte} {cand : List Byte} (more : List Byte)
    (hmarker : markerAt cand = true) (h : tryCandidate expect cand ≠ .ends (.error .truncated)) :
    tryCandidate expect (cand ++ more) = tryCandidate expect cand := by
  rcases candidate_cases hmarker with htruncated | ⟨pt, addr, data, w, after, hvalid, rfl⟩
  · exact absurd (htruncated expect) h
  · rw [List.append_assoc, tryCandidate_frame expect addr w _ hvalid, tryCandidate_frame expect addr w _ hvalid]

end Sys2Proof.Machine
end

section
/-! SUPPORT. O12, O13, O14: the search for the marker and the loop of `Decode`, offset by offset. -/

namespace Sys2Proof.Machine

/-! ## FindSync -/

/-- `o` is the smallest offset from `start` on at which the marker stands (40_codec.md R96). -/
def FirstMarker (buf : List Byte) (start o : Nat) : Prop :=
  start ≤ o ∧ markerStandsAt buf o ∧ ∀ j, start ≤ j → j < o → ¬ markerStandsAt buf j

theorem FirstMarker.unique {buf : List Byte} {start o o' : Nat} (h : FirstMarker buf start o)
    (h' : FirstMarker buf start o') : o = o' := by
  obtain ⟨hstart, hmarker, hnone⟩ := h
  obtain ⟨hstart', hmarker', hnone'⟩ := h'
  rcases Nat.lt_trichotomy o o' with hlt | heq | hlt
  · exact absurd hmarker (hnone' o hstart hlt)
  · exact heq
  · exact absurd hmarker' (hnone o' hstart' hlt)

/-- Where the marker stands three bytes fit. -/
theorem markerStandsAt_fits {buf : List Byte} {o : Nat} (h : markerStandsAt buf o) : o + 3 ≤ buf.length := by
  obtain ⟨-, -, hlast⟩ := h
  obtain ⟨hlt, -⟩ := List.getElem?_eq_some_iff.1 hlast
  omega

/-- Past the offset `o` without a marker, the first marker is the same. -/
theorem FirstMarker.of_succ {buf : List Byte} {start o : Nat} (hstart : ¬ markerStandsAt buf start)
    (h : FirstMarker buf (start + 1) o) : FirstMarker buf start o := by
  obtain ⟨hle, hmarker, hnone⟩ := h
  refine ⟨by omega, hmarker, fun j hj hlt => ?_⟩
  rcases Nat.eq_or_lt_of_le hj with rfl | hj
  · exact hstart
  · exact hnone j hj hlt

theorem findSync_of_marker {buf : List Byte} {start : Nat} (h : markerStandsAt buf start) :
    findSync buf start = some start := by
  have hlt : start < buf.length := by have := markerStandsAt_fits h; omega
  have hfront := (markerAt_drop buf start).2 h
  rw [findSync]
  rw [List.drop_eq_getElem_cons hlt] at hfront ⊢
  exact if_pos hfront

theorem findSync_skip {buf : List Byte} {start : Nat} (hlt : start < buf.length) (h : ¬ markerStandsAt buf start) :
    findSync buf start = findSync buf (start + 1) := by
  have hfront := mt (markerAt_drop buf start).1 h
  rw [findSync, findSync]
  rw [List.drop_eq_getElem_cons hlt] at hfront ⊢
  exact if_neg hfront

/-- Everything `FindSync` can answer (R96). -/
theorem findSync_cases (buf : List Byte) (start : Nat) :
    (findSync buf start = none ∧ ∀ j, start ≤ j → ¬ markerStandsAt buf j) ∨
      ∃ o, findSync buf start = some o ∧ FirstMarker buf start o := by
  by_cases hlt : start < buf.length
  · by_cases hmarker : markerStandsAt buf start
    · exact .inr ⟨start, findSync_of_marker hmarker, Nat.le_refl _, hmarker, by omega⟩
    · rw [findSync_skip hlt hmarker]
      rcases findSync_cases buf (start + 1) with ⟨hfind, hnone⟩ | ⟨o, hfind, hfirst⟩
      · refine .inl ⟨hfind, fun j hj => ?_⟩
        rcases Nat.eq_or_lt_of_le hj with rfl | hj
        · exact hmarker
        · exact hnone j hj
      · exact .inr ⟨o, hfind, hfirst.of_succ hmarker⟩
  · refine .inl ⟨?_, fun j hj hmarker => ?_⟩
    · rw [findSync, List.drop_eq_nil_of_le (by omega)]; rfl
    · have := markerStandsAt_fits hmarker; omega
termination_by buf.length - start

/-- Settles O12: `findSync_cases`, the first marker being unique. -/
theorem findSyncFindsTheFirstMarker : Obligations.FindSyncFindsTheFirstMarker := by
  intro buf start
  rcases findSync_cases buf start with ⟨hfind, hnone⟩ | ⟨o, hfind, hfirst⟩
  · refine ⟨fun o => ⟨fun h => ?_, ?_⟩, fun _ => hnone, fun _ => hfind⟩
    · cases hfind.symm.trans h
    · rintro ⟨hle, -, hmarker, -⟩
      exact absurd hmarker (hnone o hle)
  · have ⟨hle, hmarker, hbefore⟩ := hfirst
    refine ⟨fun o' => ⟨fun h => ?_, ?_⟩, fun h => ?_, fun hnone => absurd hmarker (hnone o hle)⟩
    · obtain rfl := Option.some.inj (hfind.symm.trans h)
      exact ⟨hle, markerStandsAt_fits hmarker, hmarker, hbefore⟩
    · rintro ⟨hle', -, hmarker', hbefore'⟩
      rw [hfind, hfirst.unique ⟨hle', hmarker', hbefore'⟩]
    · cases hfind.symm.trans h

/-! ## The loop of Decode -/

/-- What the call comes to with this candidate, `passedOver` being what it comes to if the candidate is passed over. -/
def Candidate.outcome (passedOver : Except DecodeError Packet) : Candidate → Except DecodeError Packet
  | .ends r => r
  | .otherAddress => passedOver

@[simp] theorem Candidate.outcome_ends (passedOver r : Except DecodeError Packet) :
    Candidate.outcome passedOver (.ends r) = r := rfl

@[simp] theorem Candidate.outcome_otherAddress (passedOver : Except DecodeError Packet) :
    Candidate.outcome passedOver .otherAddress = passedOver := rfl

/-- The loop at a candidate (R97, R99). -/
theorem scan_candidate (rescan : Bool) (expect : Option Byte) {b : Byte} {rest : List Byte} (seen : Bool)
    (h : markerAt (b :: rest) = true) :
    scan rescan expect (b :: rest) seen = (tryCandidate expect (b :: rest)).outcome
      (if rescan then scan rescan expect rest true else .error .addressMismatch) := by
  rw [scan, if_pos h]
  cases tryCandidate expect (b :: rest) <;> rfl

/-- The loop at the offset of a candidate. -/
theorem scan_drop_candidate (rescan : Bool) (expect : Option Byte) {buf : List Byte} {o : Nat} (seen : Bool)
    (h : markerStandsAt buf o) :
    scan rescan expect (buf.drop o) seen = (tryCandidate expect (buf.drop o)).outcome
      (if rescan then scan rescan expect (buf.drop (o + 1)) true else .error .addressMismatch) := by
  have hlt : o < buf.length := by have := markerStandsAt_fits h; omega
  have hfront := (markerAt_drop buf o).2 h
  rw [List.drop_eq_getElem_cons hlt] at hfront ⊢
  exact scan_candidate rescan expect seen hfront

/-- The loop goes over offsets without a marker. -/
theorem scan_drop_skip (rescan : Bool) (expect : Option Byte) {buf : List Byte} {start o : Nat} (seen : Bool)
    (hle : start ≤ o) (hnone : ∀ j, start ≤ j → j < o → ¬ markerStandsAt buf j) :
    scan rescan expect (buf.drop start) seen = scan rescan expect (buf.drop o) seen := by
  induction o, hle using Nat.le_induction with
  | base => rfl
  | succ o hle ih =>
    rw [ih fun j hj hlt => hnone j hj (by omega)]
    by_cases hlt : o < buf.length
    · have hfront := mt (markerAt_drop buf o).1 (hnone o hle (by omega))
      rw [List.drop_eq_getElem_cons hlt] at hfront ⊢
      exact scan_skip rescan expect _ _ seen (by simpa using hfront)
    · rw [List.drop_eq_nil_of_le (by omega), List.drop_eq_nil_of_le (by omega)]

/-- The loop ends in ADDRESS_MISMATCH or NO_SYNC when no marker is left (R97 step 2, R99). -/
theorem scan_noMarker (rescan : Bool) (expect : Option Byte) {buf : List Byte} {start : Nat} (seen : Bool)
    (hnone : ∀ j, start ≤ j → ¬ markerStandsAt buf j) :
    scan rescan expect (buf.drop start) seen = .error (if seen then .addressMismatch else .noSync) := by
  rw [scan_drop_skip rescan expect seen (Nat.le_add_right start buf.length) fun j hj _ => hnone j hj,
    List.drop_eq_nil_of_le (by omega)]
  rfl

/-- The test of R97 step 6 in the two forms it is written in. -/
theorem expect_any_ne (expect : Option Byte) (addr : Byte) :
    expect.any (fun a => addr != a) = true ↔ expect ≠ none ∧ expect ≠ some addr := by
  cases expect with
  | none => simp
  | some a => simp [@eq_comm _ a addr]

/-- Steps 3 to 8 of R97 for the candidate at offset `o`, by the buffer's own offsets. -/
theorem tryCandidate_drop (expect : Option Byte) (buf : List Byte) (o : Nat) :
    tryCandidate expect (buf.drop o) =
      if buf.length - o < 7 then .ends (.error .truncated)
      else if buf.length - o < dataLength (buf.getD (o + 3) 0) + 7 then .ends (.error .truncated)
      else if expect.any (fun a => buf.getD (o + 4) 0 != a) then .otherAddress
      else if checksum (buf.getD (o + 3) 0) (buf.getD (o + 4) 0)
            ((buf.drop (o + 5)).take (dataLength (buf.getD (o + 3) 0))) ≠
          be16 (buf.getD (o + 5 + dataLength (buf.getD (o + 3) 0)) 0)
            (buf.getD (o + 6 + dataLength (buf.getD (o + 3) 0)) 0) then .ends (.error .badChecksum)
      else .ends (.ok ⟨buf.getD (o + 3) 0, buf.getD (o + 4) 0,
        (buf.drop (o + 5)).take (dataLength (buf.getD (o + 3) 0)),
        be16 (buf.getD (o + 5 + dataLength (buf.getD (o + 3) 0)) 0)
          (buf.getD (o + 6 + dataLength (buf.getD (o + 3) 0)) 0)⟩) := by
  have hhigh : ∀ pt, o + (dataLength pt + 5) = o + 5 + dataLength pt := by omega
  have hlow : ∀ pt, o + (dataLength pt + 6) = o + 6 + dataLength pt := by omega
  simp only [tryCandidate, List.length_drop, List.getD_eq_getElem?_getD, List.getElem?_drop, List.drop_drop,
    expect_any_ne, hhigh, hlow, ne_eq, ite_not]

/-- Settles O13: the loop goes over the bytes before the offset that `FindSync` gives (`scan_drop_skip`), and there the
candidate's steps decide (`tryCandidate_drop`). -/
theorem decodeFollowsTheEightSteps : Obligations.DecodeFollowsTheEightSteps := by
  intro rescan buf expect
  refine ⟨rfl, fun start seen => ?_⟩
  rcases findSync_cases buf start with ⟨hfind, hnone⟩ | ⟨o, hfind, hle, hmarker, hbefore⟩
  · rw [scan_noMarker rescan expect seen hnone, hfind]
    cases seen <;> rfl
  · rw [scan_drop_skip rescan expect seen hle hbefore, scan_drop_candidate rescan expect seen hmarker,
      tryCandidate_drop, hfind]
    simp only [apply_ite (Candidate.outcome _), Candidate.outcome_ends, Candidate.outcome_otherAddress]

/-! ## The errors -/

/-- The errors that the loop can end with: NO_SYNC only if no candidate was seen and no marker is there (R99). -/
theorem scan_error {rescan : Bool} {expect : Option Byte} {buf : List Byte} {seen : Bool} {err : DecodeError}
    (h : scan rescan expect buf seen = .error err) :
    err = .truncated ∨ err = .badChecksum ∨ err = .addressMismatch ∨
      err = .noSync ∧ seen = false ∧ ∀ o, ¬ markerStandsAt buf o := by
  induction buf generalizing seen with
  | nil =>
    cases seen with
    | true =>
      cases h
      exact .inr (.inr (.inl rfl))
    | false =>
      cases h
      exact .inr (.inr (.inr ⟨rfl, rfl, by simp⟩))
  | cons b rest ih =>
    by_cases hfront : markerAt (b :: rest) = true
    · rw [scan_candidate rescan expect seen hfront] at h
      cases hcandidate : tryCandidate expect (b :: rest) with
      | ends r =>
        rw [hcandidate, Candidate.outcome_ends] at h
        subst h
        rcases tryCandidate_error hfront hcandidate with hshort | hsum
        · exact .inl hshort
        · exact .inr (.inl hsum)
      | otherAddress =>
        rw [hcandidate, Candidate.outcome_otherAddress] at h
        cases rescan with
        | true => exact (ih h).imp_right (Or.imp_right (Or.imp_right fun ⟨_, hseen, _⟩ => absurd hseen (by simp)))
        | false =>
          cases h
          exact .inr (.inr (.inl rfl))
    · rw [scan_skip rescan expect b rest seen (by simpa using hfront)] at h
      refine (ih h).imp_right (Or.imp_right (Or.imp_right ?_))
      rintro ⟨herr, hseen, hnone⟩
      refine ⟨herr, hseen, fun o => ?_⟩
      cases o with
      | zero => exact mt (markerAt_drop (b :: rest) 0).2 hfront
      | succ o => exact hnone o

/-- Settles O14: TOO_SHORT is no outcome of the loop, and NO_SYNC is one only without a marker (`scan_error`). -/
theorem tooShortAndNoSyncExactly : Obligations.TooShortAndNoSyncExactly := by
  intro rescan buf expect
  by_cases hshort : buf.length < 7
  · have hdecode : decodeFrame rescan buf expect = .error .tooShort := if_pos hshort
    simp [hdecode, hshort]
  · have hdecode : decodeFrame rescan buf expect = scan rescan expect buf false := if_neg hshort
    rw [hdecode]
    refine ⟨⟨fun h => ?_, fun h => absurd h hshort⟩, fun h => ⟨by omega, ?_⟩, fun ⟨_, hnone⟩ => ?_⟩
    · simpa using scan_error h
    · simpa using scan_error h
    · exact scan_noMarker (start := 0) rescan expect false fun j _ => hnone j

end Sys2Proof.Machine
end

section
/-! SUPPORT. O11, O15 to O20: frames in a buffer. -/

namespace Sys2Proof.Machine

/-! ## A packet that Decode answers -/

/-- The first byte of a buffer from which the loop reaches a packet: the packet's candidate is there or further on. -/
theorem scan_cons_ok {rescan : Bool} {expect : Option Byte} {b : Byte} {rest : List Byte} {seen : Bool} {p : Packet}
    (h : scan rescan expect (b :: rest) seen = .ok p) :
    markerAt (b :: rest) = true ∧ tryCandidate expect (b :: rest) = .ends (.ok p) ∨
      ∃ seen', scan rescan expect rest seen' = .ok p := by
  by_cases hfront : markerAt (b :: rest) = true
  · rw [scan_candidate rescan expect seen hfront] at h
    cases hcandidate : tryCandidate expect (b :: rest) with
    | ends r =>
      rw [hcandidate, Candidate.outcome_ends] at h
      exact .inl ⟨hfront, by rw [h]⟩
    | otherAddress =>
      rw [hcandidate, Candidate.outcome_otherAddress] at h
      cases rescan with
      | true => exact .inr ⟨true, h⟩
      | false => cases h
  · rw [scan_skip rescan expect b rest seen (by simpa using hfront)] at h
    exact .inr ⟨seen, h⟩

/-- The frame of a packet that the loop answers stands in the buffer. -/
theorem exists_frame_of_scan_ok {rescan : Bool} {expect : Option Byte} {buf : List Byte} {seen : Bool} {p : Packet}
    (h : scan rescan expect buf seen = .ok p) :
    ∃ before after, buf = before ++ encodeFrame p.ptype p.address p.data ++ after := by
  induction buf generalizing seen with
  | nil => cases h
  | cons b rest ih =>
    rcases scan_cons_ok h with ⟨hfront, hcandidate⟩ | ⟨seen', hrest⟩
    · obtain ⟨after, hcand⟩ := exists_after_of_tryCandidate_ok hfront hcandidate
      exact ⟨[], after, hcand⟩
    · obtain ⟨before, after, hbuf⟩ := ih hrest
      exact ⟨b :: before, after, congrArg (b :: ·) hbuf⟩

/-- The loop answers a packet only from a buffer with room for a frame. -/
theorem length_of_scan_ok {rescan : Bool} {expect : Option Byte} {buf : List Byte} {seen : Bool} {p : Packet}
    (h : scan rescan expect buf seen = .ok p) : 7 ≤ buf.length := by
  obtain ⟨before, after, rfl⟩ := exists_frame_of_scan_ok h
  simp
  omega

/-- Decode answers a packet exactly when the loop from offset 0 does. -/
theorem decodeFrame_eq_ok {rescan : Bool} {expect : Option Byte} {buf : List Byte} {p : Packet} :
    decodeFrame rescan buf expect = .ok p ↔ scan rescan expect buf false = .ok p := by
  by_cases hshort : buf.length < 7
  · rw [decodeFrame, if_pos hshort]
    exact ⟨fun h => (by cases h), fun h => absurd (length_of_scan_ok h) (by omega)⟩
  · rw [decodeFrame, if_neg hshort]

/-- Settles O15: `decodeFrame_ok` and the frame found by the loop. -/
theorem decodedPacketStandsInTheBuffer : Obligations.DecodedPacketStandsInTheBuffer := by
  intro rescan buf expect p h
  obtain ⟨hlength, hcsum, haddr⟩ := decodeFrame_ok h
  exact ⟨⟨hlength, hcsum⟩, haddr, exists_frame_of_scan_ok (decodeFrame_eq_ok.1 h)⟩

/-- Bytes at the end of the buffer do not change the packet that the loop answers: no candidate passed over was
truncated, and no marker is completed by them before a frame (R98). -/
theorem scan_append_ok {rescan : Bool} {expect : Option Byte} {buf : List Byte} {seen : Bool} {p : Packet}
    (after : List Byte) (h : scan rescan expect buf seen = .ok p) :
    scan rescan expect (buf ++ after) seen = .ok p := by
  induction buf generalizing seen with
  | nil => cases h
  | cons b rest ih =>
    have hlength := length_of_scan_ok h
    have hmarker : markerAt (b :: (rest ++ after)) = markerAt (b :: rest) :=
      markerAt_append (l := b :: rest) after (by omega)
    rw [List.cons_append]
    by_cases hfront : markerAt (b :: rest) = true
    · rw [scan_candidate rescan expect seen hfront] at h
      have happend : tryCandidate expect (b :: (rest ++ after)) = tryCandidate expect (b :: rest) :=
        tryCandidate_append after hfront fun htruncated => by rw [htruncated] at h; cases h
      rw [scan_candidate rescan expect seen (hmarker.trans hfront), happend]
      cases hcandidate : tryCandidate expect (b :: rest) with
      | ends r => rwa [hcandidate] at h
      | otherAddress =>
        rw [hcandidate] at h
        cases rescan with
        | true => exact ih h
        | false => cases h
    · have hfront : markerAt (b :: rest) = false := by simpa using hfront
      rw [scan_skip rescan expect b rest seen hfront] at h
      rw [scan_skip rescan expect b _ seen (hmarker.trans hfront)]
      exact ih h

/-- Settles O16. -/
theorem bytesAfterTheFrameAreIgnored : Obligations.BytesAfterTheFrameAreIgnored := by
  intro rescan buf after expect p h
  exact decodeFrame_eq_ok.2 (scan_append_ok after (decodeFrame_eq_ok.1 h))

/-! ## The first candidate -/

/-- A frame's first byte completes no marker begun before it, the marker's three bytes being different. -/
theorem not_markerStandsAt_append {before l : List Byte} {o : Nat} (hbefore : ∀ o, ¬ markerStandsAt before o)
    (hl : l.head? = some 0x73) (ho : o < before.length) : ¬ markerStandsAt (before ++ l) o := by
  rintro ⟨h0, h1, h2⟩
  have hsync : (before ++ l)[before.length]? = some 0x73 := by
    rw [List.getElem?_append_right (Nat.le_refl _), Nat.sub_self, ← List.head?_eq_getElem?, hl]
  by_cases hsecond : o + 1 = before.length
  · rw [hsecond, hsync] at h1
    cases h1
  · by_cases hthird : o + 2 = before.length
    · rw [hthird, hsync] at h2
      cases h2
    · rw [List.getElem?_append_left (by omega)] at h0 h1 h2
      exact hbefore o ⟨h0, h1, h2⟩

/-- Decode at its first candidate, behind bytes without a marker (R97, R98). -/
theorem decodeFrame_candidate (rescan : Bool) (expect : Option Byte) {before cand : List Byte}
    (hbefore : ∀ o, ¬ markerStandsAt before o) (hmarker : markerAt cand = true) (hlength : 7 ≤ cand.length) :
    decodeFrame rescan (before ++ cand) expect = (tryCandidate expect cand).outcome
      (if rescan then scan rescan expect cand.tail true else .error .addressMismatch) := by
  obtain ⟨rest, rfl⟩ := markerAt_eq_true.1 hmarker
  have hskip := scan_drop_skip rescan expect false (Nat.zero_le before.length)
    fun j _ hj => not_markerStandsAt_append (l := 0x73 :: 0x6E :: 0x70 :: rest) hbefore rfl hj
  rw [decodeFrame, if_neg (by rw [List.length_append]; omega)]
  rw [List.drop_zero, List.drop_left] at hskip
  exact hskip.trans (scan_candidate rescan expect false hmarker)

theorem markerAt_frameBytes (pt addr : Byte) (data : List Byte) (w : Word16) (after : List Byte) :
    markerAt (frameBytes pt addr data w ++ after) = true := by
  rw [frameBytes_eq]; rfl

/-- Decode of a frame of the expected address, or of any address when none is expected: the checksum decides. -/
theorem decodeFrame_frame (rescan : Bool) {expect : Option Byte} {pt addr : Byte} {before data : List Byte}
    (w : Word16) (after : List Byte) (hbefore : ∀ o, ¬ markerStandsAt before o) (hvalid : structurallyValid pt data)
    (hexpect : expect = none ∨ expect = some addr) :
    decodeFrame rescan (before ++ (frameBytes pt addr data w ++ after)) expect =
      if checksum pt addr data = w then .ok ⟨pt, addr, data, w⟩ else .error .badChecksum := by
  have haddr : ¬ (expect ≠ none ∧ expect ≠ some addr) := by tauto
  rw [decodeFrame_candidate rescan expect hbefore (markerAt_frameBytes pt addr data w after) (by simp; omega),
    tryCandidate_frame expect addr w after hvalid, if_neg haddr]
  simp only [apply_ite (Candidate.outcome _), Candidate.outcome_ends]

theorem not_markerStandsAt_nil (o : Nat) : ¬ markerStandsAt [] o := by
  simp

/-- Decode of a frame at the front of the buffer whose checksum field is wrong. -/
theorem decodeFrame_badChecksum (rescan : Bool) {expect : Option Byte} {pt addr : Byte} {data : List Byte} {w : Word16}
    (after : List Byte) (hvalid : structurallyValid pt data) (hexpect : expect = none ∨ expect = some addr)
    (hw : checksum pt addr data ≠ w) :
    decodeFrame rescan (frameBytes pt addr data w ++ after) expect = .error .badChecksum :=
  (decodeFrame_frame rescan w after not_markerStandsAt_nil hvalid hexpect).trans (if_neg hw)

/-- Decode of a frame at the front of the buffer whose checksum field is right. -/
theorem decodeFrame_goodChecksum (rescan : Bool) {pt addr : Byte} {before data : List Byte} {w : Word16}
    (after : List Byte) (hbefore : ∀ o, ¬ markerStandsAt before o) (hvalid : structurallyValid pt data)
    (hw : checksum pt addr data = w) :
    decodeFrame rescan (before ++ (frameBytes pt addr data w ++ after)) none = .ok ⟨pt, addr, data, w⟩ :=
  (decodeFrame_frame rescan w after hbefore hvalid (.inl rfl)).trans (if_pos hw)

/-- Settles O11. -/
theorem frameRoundTrip : Obligations.FrameRoundTrip := by
  intro rescan pt addr data before after hvalid hbefore
  rw [List.append_assoc]
  exact decodeFrame_goodChecksum rescan after hbefore hvalid rfl

/-! ## What the checksum finds out -/

theorem byteSum_perm {data data' : List Byte} (h : data'.Perm data) : byteSum data' = byteSum data := by
  apply BitVec.eq_of_toNat_eq
  rw [byteSum_toNat, byteSum_toNat, (h.map BitVec.toNat).sum_eq]

theorem setWidth_byte_injective {a b : Byte} (h : a.setWidth 16 = b.setWidth 16) : a = b := by
  bv_omega

/-- The sum with one byte replaced tells the byte. -/
theorem byteSum_set_injective {data : List Byte} {i : Nat} {v v' : Byte} (hi : i < data.length)
    (h : byteSum (data.set i v) = byteSum (data.set i v')) : v = v' := by
  have hsum : ∀ x, byteSum (data.set i x) =
      byteSum (data.take i) + (x.setWidth 16 + byteSum (data.drop (i + 1))) := by
    intro x
    rw [List.set_eq_take_append_cons_drop, if_pos hi, byteSum_append, byteSum]
  rw [hsum, hsum, BitVec.add_right_inj, BitVec.add_left_inj] at h
  exact setWidth_byte_injective h

/-- The checksum tells the sum of the data. -/
theorem checksum_data_injective {pt addr : Byte} {data data' : List Byte}
    (h : checksum pt addr data = checksum pt addr data') : byteSum data = byteSum data' := by
  rwa [checksum_eq, checksum_eq, BitVec.add_right_inj] at h

/-- The checksum tells the address. -/
theorem checksum_addr_injective {pt addr addr' : Byte} {data : List Byte}
    (h : checksum pt addr data = checksum pt addr' data) : addr = addr' := by
  rw [checksum_eq, checksum_eq, BitVec.add_left_inj, BitVec.add_right_inj] at h
  exact setWidth_byte_injective h

/-- Settles O17: each change makes the checksum and its field differ. -/
theorem singleByteCorruptionIsBadChecksum : Obligations.SingleByteCorruptionIsBadChecksum := by
  intro rescan pt addr data after hvalid
  refine ⟨fun i v hi hv => ?data, fun w hw => ?field, fun a ha => ?address⟩
  case data =>
    refine decodeFrame_badChecksum rescan after (List.length_set.trans hvalid) (.inl rfl) fun hsum => hv ?_
    rw [List.getElem?_eq_getElem hi]
    refine congrArg some (byteSum_set_injective hi ?_)
    rw [List.set_getElem_self, checksum_data_injective hsum]
  case field => exact decodeFrame_badChecksum rescan after hvalid (.inl rfl) (Ne.symm hw)
  case address =>
    exact decodeFrame_badChecksum rescan after hvalid (.inl rfl) fun hsum => ha (checksum_addr_injective hsum)

/-- Settles O18: a sum does not see the order (`byteSum_perm`). -/
theorem permutedDataPasses : Obligations.PermutedDataPasses := by
  intro rescan pt addr data data' after hvalid hperm
  refine decodeFrame_goodChecksum rescan after not_markerStandsAt_nil (hperm.length_eq.trans hvalid) ?_
  rw [checksum_eq, checksum_eq, byteSum_perm hperm]

/-! ## The rescan -/

/-- Decode of a buffer that begins with a header (R97, R99). -/
theorem decodeFrame_header (rescan : Bool) (expect : Option Byte) (pt addr : Byte) {rest : List Byte}
    (h : 2 ≤ rest.length) :
    decodeFrame rescan (header pt addr ++ rest) expect = (tryCandidate expect (header pt addr ++ rest)).outcome
      (if rescan then scan rescan expect (0x6E :: 0x70 :: pt :: addr :: rest) true else .error .addressMismatch) :=
  decodeFrame_candidate rescan expect not_markerStandsAt_nil (cand := header pt addr ++ rest) rfl
    (by simp [header, marker]; omega)

/-- Settles O19: both candidates end the call. -/
theorem noRescanAfterTruncationOrBadChecksum : Obligations.NoRescanAfterTruncationOrBadChecksum := by
  constructor
  · intro rescan pt addr data after w hvalid hw
    exact decodeFrame_badChecksum rescan after hvalid (.inr rfl) (Ne.symm hw)
  · intro rescan pt addr rest expect hroom htruncated
    rw [decodeFrame_header rescan expect pt addr hroom, tryCandidate_header_truncated expect addr htruncated,
      Candidate.outcome_ends]

/-- A complete candidate of another address is passed over (R97 step 6). -/
theorem tryCandidate_otherAddress {pt addr a : Byte} {rest : List Byte} (ha : a ≠ addr)
    (hlength : dataLength pt + 2 ≤ rest.length) :
    tryCandidate (some a) (header pt addr ++ rest) = .otherAddress := by
  obtain ⟨data, w, after, hvalid, hframe⟩ := exists_frame_of_length addr hlength
  rw [hframe, tryCandidate_frame (some a) addr w after hvalid, if_pos (by simpa using ha)]

/-- The marker's second and third bytes begin no marker (70_reset_and_hazards.md R225). -/
theorem scan_behind_sync (rescan : Bool) (expect : Option Byte) (rest : List Byte) (seen : Bool) :
    scan rescan expect (0x6E :: 0x70 :: rest) seen = scan rescan expect rest seen := by
  rw [scan_skip rescan expect _ _ seen (markerAt_cons_of_ne (by decide)),
    scan_skip rescan expect _ _ seen (markerAt_cons_of_ne (by decide))]

/-- Settles O20: the candidate is passed over (`tryCandidate_otherAddress`), and with a mismatch seen the loop does not
end in NO_SYNC (`scan_error`). -/
theorem addressMismatchResumesTheScan : Obligations.AddressMismatchResumesTheScan := by
  intro pt addr a rest ha hlength
  have hdecode : ∀ rescan, decodeFrame rescan (header pt addr ++ rest) (some a) =
      if rescan then scan rescan (some a) (pt :: addr :: rest) true else .error .addressMismatch := by
    intro rescan
    rw [decodeFrame_header rescan (some a) pt addr (by omega), tryCandidate_otherAddress ha hlength,
      Candidate.outcome_otherAddress, scan_behind_sync]
  have hrescan := hdecode true
  refine ⟨hdecode false, hrescan, fun h => ?_⟩
  simpa using scan_error (hrescan.symm.trans h)

end Sys2Proof.Machine
end

section
/-! SUPPORT. O34: DECODE as an instruction. -/

namespace Sys2Proof.Machine

theorem settleDecode_ok (c : Config) (p : Packet) {e : Engine} (hidle : e.phase = .idle) :
    settleDecode c (.ok p) e = { e with pkt := some p, hb := hbAfter c p e.hb, status := .ok } := by
  rw [settleDecode, commitPacket_eq]
  exact complete_idle .ok (e := { e with pkt := some p, hb := hbAfter c p e.hb }) hidle

theorem settleDecode_error (c : Config) (err : DecodeError) {e : Engine} (hidle : e.phase = .idle) :
    settleDecode c (.error err) e = { e with pkt := none, status := err.code } :=
  complete_idle err.code (e := { e with pkt := none }) hidle

/-- DECODE of a buffer that fits, on an idle ENGINE: the buffer is loaded and `Decode`'s result settled (R101). -/
theorem exec_decode_fits {s : State} {buf : List Byte} (expect : Option Byte) (hidle : s.eng.phase = .idle)
    (hfits : buf.length ≤ s.cfg.rxBufSize) :
    ∃ m, storeBytes s.cfg.rxBufSize s.eng.rxBuf buf = some m ∧
      exec (.decode buf expect) s = .next (afterAccept s (settleDecode s.cfg (decodeFrame s.cfg.rescan buf expect)
        { s.eng with cmdOp := .decode, rxBuf := m, rxLen := buf.length })) := by
  rcases decodeStep_next buf expect (latchOp .decode s) with ⟨hlong, -⟩ | ⟨-, m, hstore, hnext⟩
  · exact absurd hlong (Nat.not_lt.2 hfits)
  · exact ⟨m, hstore, (issue_idle hidle).trans hnext⟩

/-- Settles O34: the store puts the buffer at the front of RX_BUF (`storeBytes_spec`), and the two results of `Decode`
are the two cases of R101. -/
theorem decodeCommitsOrReports : Obligations.DecodeCommitsOrReports := by
  intro s buf expect hidle hfits
  obtain ⟨m, hstore, hexec⟩ := exec_decode_fits expect hidle hfits
  obtain ⟨-, -, -, hread, -, -⟩ := storeBytes_spec hstore
  cases hdecode : decodeFrame s.cfg.rescan buf expect with
  | ok p =>
    rw [hdecode, settleDecode_ok s.cfg p (by exact hidle)] at hexec
    refine ⟨_, hexec, hread _, fun q hq => ?_, fun err herr => by cases herr⟩
    obtain rfl := Except.ok.inj hq
    rfl
  | error err =>
    rw [hdecode, settleDecode_error s.cfg err (by exact hidle)] at hexec
    refine ⟨_, hexec, hread _, fun p hp => (by cases hp), fun other hother => ?_⟩
    obtain rfl := Except.error.inj hother
    rfl

end Sys2Proof.Machine
end

section
/-! SUPPORT. O26, O27, O36, O37: issuing an operation, and the acceptance steps of RECV and WRITE_REGISTER. -/

namespace Sys2Proof.Machine

/-- Settles O27: `exec_next`. -/
theorem everyInstructionCompletes : Obligations.EveryInstructionCompletes :=
  exec_next

/-- Every instruction of the host's port is the issue of an operation (30_encoding.md R74). -/
theorem exec_host {i : Instr} (h : i.port = .host) (s : State) : ∃ op first, exec i s = issue op first s := by
  cases i with
  | frameNodata | frameSingle | frameBatch => cases h
  | _ => exact ⟨_, _, rfl⟩

/-- Settles O26: the instruction is an issue (`exec_host`), and ENGINE is busy (`issue_busy`). -/
theorem issueWhileBusyIsRejected : Obligations.IssueWhileBusyIsRejected := by
  intro i s hport hbusy
  obtain ⟨op, first, hissue⟩ := exec_host hport s
  exact hissue.trans (issue_busy hbusy)

/-- RECV issued to an idle ENGINE is accepted (41_transaction.md R140). -/
theorem exec_recv_idle {s : State} (hidle : s.eng.phase = .idle) :
    exec .recv s = .next (afterAccept s { s.eng with
      cmdOp := .recv, pkt := none, status := .noCode, lastErr := .noCode, phase := .recv }) :=
  issue_idle (op := .recv) (first := acceptRecv) hidle

/-- Settles O36. -/
theorem recvAcceptance : Obligations.RecvAcceptance :=
  fun _ => exec_recv_idle

/-- Settles O37: the request fits TX_BUF (`acceptTransaction_next`), and the store puts it at the front
(`storeBytes_spec`). -/
theorem writeRegisterAcceptance : Obligations.WriteRegisterAcceptance := by
  intro s addr h d hidle
  obtain ⟨m, hstore, hnext⟩ := acceptTransaction_next addr h d (latchOp .writeRegister s)
  obtain ⟨-, -, -, hread, -, -⟩ := storeBytes_spec hstore
  refine ⟨_, (issue_idle hidle).trans hnext, hread _, ?_⟩
  rw [buildRequest_length]
  rfl

end Sys2Proof.Machine
end

section
/-! SUPPORT. O42 to O46: `fail_attempt`, and ENGINE's steps RECV and CHECK with each thing they can be answered. -/

namespace Sys2Proof.Machine

/-! ## A failed attempt -/

/-- RECV is not tried again (41_transaction.md R128). -/
theorem failAttempt_recv (c : Config) (code : ResultCode) {e : Engine} (hop : e.cmdOp = .recv) :
    failAttempt c code e = { e with lastErr := code, status := code, phase := .idle } :=
  if_pos hop

/-- The last attempt of a transaction ends it (41_transaction.md R128, R130). -/
theorem failAttempt_last {c : Config} (code : ResultCode) {e : Engine} (hop : e.cmdOp ≠ .recv)
    (hlast : e.attempts = c.maxAttempts) :
    failAttempt c code e = { e with lastErr := code, status := .noResponse, phase := .idle } :=
  (if_neg hop).trans (if_pos hlast)

/-- A transaction with an attempt left sends again (41_transaction.md R128). -/
theorem failAttempt_again {c : Config} (code : ResultCode) {e : Engine} (hop : e.cmdOp ≠ .recv)
    (hleft : e.attempts ≠ c.maxAttempts) : failAttempt c code e = { e with lastErr := code, phase := .send } :=
  (if_neg hop).trans (if_neg hleft)

/-- Settles O42. -/
theorem failedAttempt : Obligations.FailedAttempt :=
  fun c code _ => ⟨failAttempt_recv c code, failAttempt_last code, failAttempt_again code⟩

/-- RECV is no transaction (41_transaction.md R127, R142). -/
theorem OpCode.ne_recv_of_isTransaction {op : OpCode} (h : op.isTransaction = true) : op ≠ .recv := by
  rintro rfl
  cases h

/-! ## Step RECV, by the result of the receive attempt -/

theorem step_recv {s : State} (hinputs : s.env.inputs = []) (hphase : s.eng.phase = .recv) : step s = stepRecv s :=
  (step_noInputs hinputs).trans (engineStep_recv hphase)

/-- Until the receive attempt is answered RECV waits (41_transaction.md R134, log 15). -/
theorem stepRecv_unanswered {s : State} (h : rxAttempt s.cfg.rxBufSize s.cfg.pollLimit s.env.bs = none) :
    stepRecv s = .next s := by
  simp [stepRecv, h]

theorem stepRecv_ioError {s : State} {b : ByteSource}
    (h : rxAttempt s.cfg.rxBufSize s.cfg.pollLimit s.env.bs = some (.ioError, b)) :
    stepRecv s = .next ((s.withBs b).withEng (complete .ioError s.eng)) := by
  simp [stepRecv, h]

theorem stepRecv_timeout {s : State} {b : ByteSource}
    (h : rxAttempt s.cfg.rxBufSize s.cfg.pollLimit s.env.bs = some (.timeout, b)) :
    stepRecv s = .next ((s.withBs b).withEng (failAttempt s.cfg .timeout { s.eng with rxLen := 0 })) := by
  simp [stepRecv, h]

/-- The bytes that came in fit RX_BUF and are loaded there (20_memory.md R46, 41_transaction.md R126). -/
theorem stepRecv_bytes {s : State} {bytes : List Byte} {b : ByteSource}
    (h : rxAttempt s.cfg.rxBufSize s.cfg.pollLimit s.env.bs = some (.bytes bytes, b)) :
    ∃ m, storeBytes s.cfg.rxBufSize s.eng.rxBuf bytes = some m ∧
      stepRecv s =
        .next ((s.withBs b).withEng { s.eng with rxBuf := m, rxLen := bytes.length, phase := .check }) := by
  obtain ⟨-, hfits⟩ := rxAttempt_bytes_length h
  exact ⟨_, storeBytes_fits _ hfits, by simp [stepRecv, h, storeRx_fits s.cfg s.eng hfits]⟩

/-- Settles O43: the four lemmas above, with `failAttempt` by its three cases. -/
theorem receiveStep : Obligations.ReceiveStep := by
  intro s hinputs hphase
  rw [step_recv hinputs hphase]
  refine ⟨fun bytes b hattempt => ?bytes, fun b hattempt => ?timeout, fun b hattempt => stepRecv_ioError hattempt,
    stepRecv_unanswered⟩
  case bytes =>
    obtain ⟨m, hstore, hstep⟩ := stepRecv_bytes hattempt
    obtain ⟨-, -, -, hread, -, -⟩ := storeBytes_spec hstore
    exact ⟨_, hstep, hread _, rfl⟩
  case timeout =>
    rw [stepRecv_timeout hattempt]
    split_ifs with hop hlast
    · rw [failAttempt_recv _ _ (by exact hop)]
      rfl
    · rw [failAttempt_last _ (by exact hop) (by exact hlast)]
      rfl
    · rw [failAttempt_again _ (by exact hop) (by exact hlast)]
      rfl

/-! ## Step CHECK -/

theorem step_check {s : State} (hinputs : s.env.inputs = []) (hphase : s.eng.phase = .check) :
    step s = stepCheck s :=
  (step_noInputs hinputs).trans (engineStep_check hphase)

theorem stepCheck_recv {s : State} {buf : List Byte} (hload : loadRx s.cfg s.eng = some buf)
    (hop : s.eng.cmdOp = .recv) :
    stepCheck s = .next (s.withEng (settleRecv s.cfg (decodeFrame s.cfg.rescan buf none) s.eng)) := by
  simp [stepCheck, hload, hop]

theorem stepCheck_transaction {s : State} {buf : List Byte} (hload : loadRx s.cfg s.eng = some buf)
    (htrans : s.eng.cmdOp.isTransaction = true) :
    stepCheck s = .next
      (s.withEng (settleTransaction s.cfg (decodeFrame s.cfg.rescan buf (some s.eng.cmdAddr)) s.eng)) := by
  simp [stepCheck, hload, OpCode.ne_recv_of_isTransaction htrans, htrans]

/-- Without an expected address no candidate is passed over (40_codec.md R97 step 6). -/
theorem tryCandidate_none_ends {cand : List Byte} (hmarker : markerAt cand = true) :
    ∃ r, tryCandidate none cand = .ends r := by
  rcases candidate_cases hmarker with htruncated | ⟨pt, addr, data, w, after, hvalid, rfl⟩
  · exact ⟨_, htruncated none⟩
  · rw [tryCandidate_frame none addr w after hvalid, if_neg (by simp), ← apply_ite Candidate.ends]
    exact ⟨_, rfl⟩

/-- Without an expected address and without a mismatch so far the loop does not end in ADDRESS_MISMATCH
(40_codec.md R99). -/
theorem scan_none_error {rescan : Bool} {buf : List Byte} {err : DecodeError}
    (h : scan rescan none buf false = .error err) : err ≠ .addressMismatch := by
  induction buf with
  | nil =>
    cases h
    simp
  | cons b rest ih =>
    by_cases hfront : markerAt (b :: rest) = true
    · obtain ⟨r, hr⟩ := tryCandidate_none_ends hfront
      rw [scan_candidate rescan none false hfront, hr, Candidate.outcome_ends] at h
      subst h
      rcases tryCandidate_error hfront hr with rfl | rfl
      · simp
      · simp
    · exact ih ((scan_skip rescan none b rest false (by simpa using hfront)).symm.trans h)

theorem decodeFrame_none_error {rescan : Bool} {buf : List Byte} {err : DecodeError}
    (h : decodeFrame rescan buf none = .error err) : err ≠ .addressMismatch := by
  unfold decodeFrame at h
  split at h
  · cases h
    simp
  · exact scan_none_error h

/-- A packet completes RECV with OK, whatever its CF bit (41_transaction.md R142). -/
theorem settleRecv_ok (c : Config) (p : Packet) (e : Engine) :
    settleRecv c (.ok p) e = { e with pkt := some p, hb := hbAfter c p e.hb, status := .ok, phase := .idle } := by
  rw [settleRecv, commitPacket_eq]
  rfl

theorem settleRecv_error (c : Config) (err : DecodeError) {e : Engine} (hop : e.cmdOp = .recv) :
    settleRecv c (.error err) e = { e with lastErr := err.code, status := err.code, phase := .idle } :=
  failAttempt_recv c err.code hop

/-- Settles O45: the two results of `Decode`, which with no expected address is not ADDRESS_MISMATCH
(`decodeFrame_none_error`). -/
theorem checkStepOfRecv : Obligations.CheckStepOfRecv := by
  intro s buf hinputs hphase hload hop
  rw [step_check hinputs hphase, stepCheck_recv hload hop]
  refine ⟨fun err hdecode => ⟨decodeFrame_none_error hdecode, ?_⟩, fun p hdecode => ?_⟩
  · rw [hdecode, settleRecv_error s.cfg err hop]
    rfl
  · rw [hdecode, settleRecv_ok]
    rfl

/-- `finish_ok` in the terms that claims use: GET_FW_VERSION takes the first four data bytes or reports that they are
missing (41_transaction.md R129, 43_facade.md R166). -/
theorem finishOk_eq (p : Packet) (e : Engine) :
    finishOk p e = { e with
      fw := if e.cmdOp = .getFwVersion ∧ 4 ≤ p.data.length then
          some ⟨p.data.getD 0 0, p.data.getD 1 0, p.data.getD 2 0, p.data.getD 3 0⟩
        else e.fw
      status := if e.cmdOp = .getFwVersion ∧ p.data.length < 4 then .malformedResponse else .ok
      phase := .idle } := by
  by_cases hop : e.cmdOp = .getFwVersion
  · by_cases hlength : 4 ≤ p.data.length
    · simp [finishOk, hop, fwPost, firstFour_of_length hlength, hlength, complete]
    · simp [finishOk, hop, fwPost, firstFour_eq_none.2 (Nat.lt_of_not_le hlength), Nat.lt_of_not_le hlength, complete]
  · simp [finishOk, hop, complete]

/-- A packet ends a transaction, CF first (41_transaction.md R127, R131). -/
theorem settleTransaction_ok (c : Config) (p : Packet) (e : Engine) :
    settleTransaction c (.ok p) e = { e with
      pkt := some p
      hb := hbAfter c p e.hb
      fw := if p.ptype.getLsbD 0 = false ∧ e.cmdOp = .getFwVersion ∧ 4 ≤ p.data.length then
          some ⟨p.data.getD 0 0, p.data.getD 1 0, p.data.getD 2 0, p.data.getD 3 0⟩
        else e.fw
      status := if p.ptype.getLsbD 0 = true then .commandFailed
        else if e.cmdOp = .getFwVersion ∧ p.data.length < 4 then .malformedResponse else .ok
      phase := .idle } := by
  have hcf : p.cf = p.ptype.getLsbD 0 := rfl
  rw [settleTransaction, commitPacket_eq, finishOk_eq, hcf]
  cases p.ptype.getLsbD 0 with
  | true => simp [complete]
  | false => simp

/-- Settles O44: the two results of `Decode` by `settleTransaction_ok` and the two cases of `failAttempt` that a
transaction has. -/
theorem checkStepOfTransaction : Obligations.CheckStepOfTransaction := by
  intro s buf hinputs hphase hload htrans
  have hop := OpCode.ne_recv_of_isTransaction htrans
  rw [step_check hinputs hphase, stepCheck_transaction hload htrans]
  refine ⟨fun err hdecode => ?_, fun p hdecode => ?_⟩
  · rw [hdecode, settleTransaction]
    split_ifs with hlast
    · rw [failAttempt_last _ hop hlast]
      rfl
    · rw [failAttempt_again _ hop hlast]
      rfl
  · rw [hdecode, settleTransaction_ok]
    rfl

/-! ## No answer -/

/-- A state that a step leaves as it is is left so by every run. -/
theorem run_of_step_self {s : State} (h : step s = .next s) (n : Nat) : run n s = .next s := by
  induction n with
  | zero => rfl
  | succ n ih => exact (run_succ_of_step n h).trans ih

/-- Settles O46: the step waits in either stage, so every run does (`run_of_step_self`). -/
theorem silentByteSourceLeavesEngineStuck : Obligations.SilentByteSourceLeavesEngineStuck := by
  rintro s n hinputs (⟨hphase, hloaded, hanswers⟩ | ⟨hphase, hpolls, hanswers⟩)
  · obtain ⟨request, hload⟩ := Option.isSome_iff_exists.1 hloaded
    have hstep : step s = .next s := by
      rw [step_noInputs hinputs, engineStep_send hphase]
      exact stepSend_unanswered hload (ByteSource.write_unanswered request hanswers)
    exact ⟨run_of_step_self hstep n, by simp [Engine.busy, hphase]⟩
  · obtain ⟨polls, hpolls⟩ := Nat.exists_eq_add_of_le' hpolls
    have hattempt : rxAttempt s.cfg.rxBufSize s.cfg.pollLimit s.env.bs = none := by
      rw [hpolls]
      exact rxAttempt_unanswered polls (ByteSource.read_unanswered _ hanswers)
    have hstep : step s = .next s := (step_recv hinputs hphase).trans (stepRecv_unanswered hattempt)
    exact ⟨run_of_step_self hstep n, by simp [Engine.busy, hphase]⟩

end Sys2Proof.Machine
end

section
/-! SUPPORT. O49, O50: RECV as a whole, and a frame from its arrival to its delivery. -/

namespace Sys2Proof.Machine

/-! ## Runs -/

theorem run_one {s t : State} (h : step s = .next t) : run 1 s = .next t :=
  run_succ_of_step 0 h

/-- Two runs, one after the other. -/
theorem run_trans {m n : Nat} {s t : State} {result : Result} (h : run m s = .next t) (h' : run n t = result) :
    run (m + n) s = result := by
  rw [run_add, h]
  exact h'

/-! ## From RECV to CHECK -/

/-- ENGINE at the beginning of CHECK, with so many bytes received into this buffer (41_transaction.md R126). -/
def Engine.received (m : Memory) (len : Nat) (e : Engine) : Engine :=
  { e with rxBuf := m, rxLen := len, phase := .check }

/-- Step RECV that receives bytes goes on to CHECK, which loads exactly these bytes. -/
theorem step_received {s : State} {bytes : List Byte} {b : ByteSource} (hinputs : s.env.inputs = [])
    (hphase : s.eng.phase = .recv)
    (hattempt : rxAttempt s.cfg.rxBufSize s.cfg.pollLimit s.env.bs = some (.bytes bytes, b)) :
    ∃ m, step s = .next ((s.withBs b).withEng (s.eng.received m bytes.length)) ∧
      loadRx s.cfg (s.eng.received m bytes.length) = some bytes := by
  obtain ⟨m, hstore, hstep⟩ := stepRecv_bytes hattempt
  exact ⟨m, (step_recv hinputs hphase).trans hstep, loadBytes_storeBytes _ hstore⟩

/-! ## RECV -/

/-- The two steps of RECV that receives bytes: RECV and CHECK (41_transaction.md R134, R142). -/
theorem run_recv_bytes {s : State} {bytes : List Byte} {b : ByteSource} (hinputs : s.env.inputs = [])
    (hphase : s.eng.phase = .recv) (hop : s.eng.cmdOp = .recv)
    (hattempt : rxAttempt s.cfg.rxBufSize s.cfg.pollLimit s.env.bs = some (.bytes bytes, b)) :
    ∃ m, run 2 s = .next ((s.withBs b).withEng
      (settleRecv s.cfg (decodeFrame s.cfg.rescan bytes none) (s.eng.received m bytes.length))) := by
  obtain ⟨m, hrecv, hload⟩ := step_received hinputs hphase hattempt
  refine ⟨m, run_trans (run_one hrecv) (run_one ((step_check ?inputs ?phase).trans (stepCheck_recv ?load ?op)))⟩
  case inputs => exact hinputs
  case phase => rfl
  case load => exact hload
  case op => exact hop

/-- Settles O49: the three results of the receive attempt; bytes go on to CHECK (`run_recv_bytes`). -/
theorem recvComputesRecv : Obligations.RecvComputesRecv := by
  intro s x b hinputs hphase hop hpkt hattempt
  cases x with
  | ioError =>
    have hstep := (step_recv hinputs hphase).trans (stepRecv_ioError hattempt)
    exact ⟨1, _, by omega, run_one hstep, rfl, congrArg (Prod.mk _) hpkt, rfl, rfl, rfl, rfl⟩
  | timeout =>
    have hstep := (step_recv hinputs hphase).trans (stepRecv_timeout hattempt)
    rw [failAttempt_recv _ _ (by exact hop)] at hstep
    exact ⟨1, _, by omega, run_one hstep, rfl, congrArg (Prod.mk _) hpkt, rfl, rfl, rfl, rfl⟩
  | bytes bytes =>
    obtain ⟨m, hrun⟩ := run_recv_bytes hinputs hphase hop hattempt
    rw [recvResult]
    cases hdecode : decodeFrame s.cfg.rescan bytes none with
    | ok p =>
      rw [hdecode, settleRecv_ok] at hrun
      exact ⟨2, _, Nat.le_refl 2, hrun, rfl, rfl, rfl, rfl, rfl, rfl⟩
    | error err =>
      rw [hdecode, settleRecv_error _ _ (by exact hop)] at hrun
      exact ⟨2, _, Nat.le_refl 2, hrun, rfl, congrArg (Prod.mk _) hpkt, rfl, rfl, rfl, rfl⟩

/-! ## A frame that comes in -/

/-- A frame instruction puts its own encoding on the line (30_encoding.md R60). -/
theorem exec_wire {i : Instr} (h : i.port = .wire) (s : State) :
    exec i s = .next (lineIn (encode s.cfg i) s) := by
  cases i with
  | frameNodata | frameSingle | frameBatch => rfl
  | _ => cases h

/-- Whatever comes in on the line waits in the inbound stream, a frame or not (20_memory.md R47,
60_exceptions.md R204). -/
theorem step_arrive {s : State} {bytes : List Byte} {later : List Input}
    (h : s.env.inputs = .arrive bytes :: later) : step s = .next (lineIn bytes (s.withInputs later)) := by
  cases hdecode : decode .wire bytes with
  | error why => exact step_otherBytes h hdecode
  | ok i =>
    obtain ⟨-, hport, hencode⟩ := wireDecodingIsExact bytes i hdecode
    rw [step_frame h hdecode, exec_wire hport, hencode]

/-- RECV issued at once to an idle ENGINE is accepted, the event taken off (41_transaction.md R140). -/
theorem step_issue_recv {s : State} {c : Config} {later : List Input}
    (h : s.env.inputs = .issue true (encode c .recv) :: later) (hidle : s.eng.phase = .idle) :
    ∃ t, step s = .next t ∧ t.cfg = s.cfg ∧ t.env.inputs = later ∧ t.env.bs = s.env.bs ∧
      t.eng.phase = .recv ∧ t.eng.cmdOp = .recv ∧ t.eng.hb = s.eng.hb :=
  ⟨_, (step_operation h (.inl rfl) (decode_encode_host c rfl)).trans (exec_recv_idle hidle),
    rfl, rfl, rfl, rfl, rfl, rfl⟩

theorem frame_length_le {p : Packet} (hwf : p.wellFormed) :
    (frameBytes p.ptype p.address p.data p.csum).length ≤ 67 := by
  obtain ⟨hvalid, -⟩ := hwf
  have hlength : p.data.length ≤ 60 := hvalid ▸ dataLength_le p.ptype
  rw [frameBytes_length]
  omega

/-- A first read that may hand over a whole frame, when nothing else waits, ends the attempt with it. -/
theorem rxAttempt_frame {max polls k : Nat} {b : ByteSource} {later : List ReadAnswer} {p : Packet}
    (hwf : p.wellFormed) (hwaiting : b.inbound = frameBytes p.ptype p.address p.data p.csum)
    (hanswers : b.readAnswers = .upTo k :: later) (hk : 67 ≤ k) (hmax : 67 ≤ max) (hpolls : 1 ≤ polls) :
    rxAttempt max polls b = some (.bytes (frameBytes p.ptype p.address p.data p.csum),
      { b with readAnswers := later, inbound := [] }) := by
  obtain ⟨polls, rfl⟩ := Nat.exists_eq_add_of_le' hpolls
  have hlength := frame_length_le hwf
  have hall : (frameBytes p.ptype p.address p.data p.csum).length ≤ min k max := by omega
  have hread := ByteSource.read_upTo max hanswers
  rw [hwaiting, List.take_of_length_le hall, List.drop_of_length_le hall] at hread
  exact rxAttempt_bytes polls hread (by simp [frameBytes_eq])

/-- `Decode` of exactly one well-formed packet's frame (40_codec.md R103). -/
theorem decodeFrame_frameBytes (rescan : Bool) {p : Packet} (hwf : p.wellFormed) :
    decodeFrame rescan (frameBytes p.ptype p.address p.data p.csum) none = .ok p := by
  obtain ⟨hvalid, hcsum⟩ := hwf
  simpa using decodeFrame_goodChecksum rescan [] not_markerStandsAt_nil hvalid hcsum.symm

/-- RECV issued to an idle ENGINE while one frame waits delivers it: acceptance (`step_issue_recv`) and the two steps of
RECV (`run_recv_bytes`), whose first read takes the whole frame. -/
theorem run_issue_recv_frame {s : State} {c : Config} {p : Packet} {k : Nat} {later : List ReadAnswer}
    (hvalid : s.cfg.valid) (hidle : s.eng.phase = .idle) (hwf : p.wellFormed)
    (hinputs : s.env.inputs = [.issue true (encode c .recv)])
    (hwaiting : s.env.bs.inbound = frameBytes p.ptype p.address p.data p.csum)
    (hanswers : s.env.bs.readAnswers = .upTo k :: later) (hk : 67 ≤ k) :
    ∃ t, run 3 s = .next t ∧ t.eng.phase = .idle ∧ t.eng.status = .ok ∧ t.eng.pkt = some p ∧
      t.eng.hb = hbAfter s.cfg p s.eng.hb ∧ t.env.bs.inbound = [] ∧ t.env.inputs = [] := by
  obtain ⟨-, hsize, hpolls, -, -⟩ := hvalid
  obtain ⟨u, hissue, hcfg, hlater, hbs, hphase, hop, hhb⟩ := step_issue_recv hinputs hidle
  have hattempt := rxAttempt_frame hwf hwaiting hanswers hk hsize hpolls
  rw [← hcfg, ← hbs] at hattempt
  obtain ⟨m, hrecv⟩ := run_recv_bytes hlater hphase hop hattempt
  rw [decodeFrame_frameBytes _ hwf, settleRecv_ok, hcfg] at hrecv
  exact ⟨_, run_trans (run_one hissue) hrecv, rfl, rfl, rfl, congrArg (hbAfter s.cfg p) hhb, rfl, hlater⟩

/-- Settles O50: the arrival (`step_arrive`), and RECV with the frame waiting (`run_issue_recv_frame`). -/
theorem arrivedFrameIsReceived : Obligations.ArrivedFrameIsReceived := by
  intro s p k later hvalid hidle hwf hinputs hinbound hanswers hk
  have harrive := step_arrive hinputs
  obtain ⟨t, hrun, hdelivered⟩ := run_issue_recv_frame
    (s := lineIn (frameBytes p.ptype p.address p.data p.csum) (s.withInputs [.issue true (encode s.cfg .recv)]))
    hvalid hidle hwf rfl (by simp [hinbound]) hanswers hk
  exact ⟨t, run_trans (run_one harrive) hrun, hdelivered⟩

end Sys2Proof.Machine
end

section
/-! SUPPORT. O47, O48: a transaction as a whole. `Attempt` says in the terms of `Transact` how one attempt can end; a
run of ENGINE from SEND ends it in the same way, and the transaction is an induction on the attempts left. -/

namespace Sys2Proof.Machine

/-! ## One attempt -/

/-- How an attempt ends: it is the transaction's last with a code and perhaps a packet, or it has failed and another one
may follow (41_transaction.md R132). -/
inductive AttemptEnd where
  | final (code : ResultCode) (response : Option Packet)
  | failed (code : ResultCode)

/-- One round of `Transact` (41_transaction.md R132): from the Byte Source `b` an attempt ends so and leaves the Byte
Source as the last argument. -/
inductive Attempt (c : Config) (addr : Byte) (request : List Byte) (b : ByteSource) : AttemptEnd → ByteSource → Prop
  | notSent {r : WriteResult} {b' : ByteSource} (hwrite : ByteSource.write request b = some (r, b'))
      (hshort : r ≠ .count request.length) : Attempt c addr request b (.final .ioError none) b'
  | notRead {b₁ b' : ByteSource} (hwrite : ByteSource.write request b = some (.count request.length, b₁))
      (hread : rxAttempt c.rxBufSize c.pollLimit b₁ = some (.ioError, b')) :
      Attempt c addr request b (.final .ioError none) b'
  | silent {b₁ b' : ByteSource} (hwrite : ByteSource.write request b = some (.count request.length, b₁))
      (hread : rxAttempt c.rxBufSize c.pollLimit b₁ = some (.timeout, b')) :
      Attempt c addr request b (.failed .timeout) b'
  | garbled {b₁ b' : ByteSource} {bytes : List Byte} {err : DecodeError}
      (hwrite : ByteSource.write request b = some (.count request.length, b₁))
      (hread : rxAttempt c.rxBufSize c.pollLimit b₁ = some (.bytes bytes, b'))
      (hdecode : decodeFrame c.rescan bytes (some addr) = .error err) :
      Attempt c addr request b (.failed err.code) b'
  | answered {b₁ b' : ByteSource} {bytes : List Byte} {p : Packet}
      (hwrite : ByteSource.write request b = some (.count request.length, b₁))
      (hread : rxAttempt c.rxBufSize c.pollLimit b₁ = some (.bytes bytes, b'))
      (hdecode : decodeFrame c.rescan bytes (some addr) = .ok p) :
      Attempt c addr request b (.final (if p.cf then .commandFailed else .ok) (some p)) b'

/-- `Transact` with an attempt left makes it; after a failed one it goes on with one attempt fewer. -/
theorem transactFrom_succ_cases {c : Config} {addr : Byte} {request : List Byte} {left k : Nat} {b b' : ByteSource}
    {r : TransactResult} (h : transactFrom c addr request (left + 1) k b = some (r, b')) :
    (∃ code response, Attempt c addr request b (.final code response) b' ∧ r = ⟨code, k + 1, response⟩) ∨
    ∃ code b₁, Attempt c addr request b (.failed code) b₁ ∧
      transactFrom c addr request left (k + 1) b₁ = some (r, b') := by
  rw [transactFrom] at h
  cases hwrite : ByteSource.write request b with
  | none => simp [hwrite] at h
  | some answer =>
    obtain ⟨w, b₁⟩ := answer
    simp only [hwrite] at h
    by_cases hfull : w = .count request.length
    · subst hfull
      rw [if_pos rfl] at h
      cases hread : rxAttempt c.rxBufSize c.pollLimit b₁ with
      | none => simp [hread] at h
      | some attempt =>
        obtain ⟨x, b₂⟩ := attempt
        cases x with
        | ioError =>
          simp only [hread, Option.some.injEq, Prod.mk.injEq] at h
          obtain ⟨rfl, rfl⟩ := h
          exact .inl ⟨_, _, .notRead hwrite hread, rfl⟩
        | timeout =>
          simp only [hread] at h
          exact .inr ⟨_, _, .silent hwrite hread, h⟩
        | bytes bytes =>
          cases hdecode : decodeFrame c.rescan bytes (some addr) with
          | error err =>
            simp only [hread, hdecode] at h
            exact .inr ⟨_, _, .garbled hwrite hread hdecode, h⟩
          | ok p =>
            simp only [hread, hdecode, Option.some.injEq, Prod.mk.injEq] at h
            obtain ⟨rfl, rfl⟩ := h
            exact .inl ⟨_, _, .answered hwrite hread hdecode, rfl⟩
    · rw [if_neg hfull] at h
      simp only [Option.some.injEq, Prod.mk.injEq] at h
      obtain ⟨rfl, rfl⟩ := h
      exact .inl ⟨_, _, .notSent hwrite hfull, rfl⟩

/-! ## ENGINE in one attempt -/

/-- ENGINE at SEND of a transaction, its request loaded, and no input left. -/
structure Sending (request : List Byte) (s : State) : Prop where
  inputs : s.env.inputs = []
  phase : s.eng.phase = .send
  transaction : s.eng.cmdOp.isTransaction = true
  loaded : loadTx s.eng = some request

/-- ENGINE once the request is sent: the attempt is counted, and RECV follows (41_transaction.md R125). -/
def Engine.sent (e : Engine) : Engine := { e with attempts := e.attempts + 1, phase := .recv }

theorem Sending.step_full {request : List Byte} {s : State} {b : ByteSource} (h : Sending request s)
    (hwrite : ByteSource.write request s.env.bs = some (.count request.length, b)) :
    step s = .next ((s.withBs b).withEng s.eng.sent) :=
  (step_send_answered h.inputs h.phase h.loaded hwrite).trans (by rw [settleSend_full]; rfl)

/-- A silent attempt is two steps, SEND and RECV. -/
theorem Sending.run_timeout {request : List Byte} {s : State} {b b' : ByteSource} (h : Sending request s)
    (hwrite : ByteSource.write request s.env.bs = some (.count request.length, b))
    (hread : rxAttempt s.cfg.rxBufSize s.cfg.pollLimit b = some (.timeout, b')) :
    run 2 s = .next ((s.withBs b').withEng (failAttempt s.cfg .timeout { s.eng.sent with rxLen := 0 })) := by
  have hrecv := (step_recv (s := (s.withBs b).withEng s.eng.sent) h.inputs rfl).trans (stepRecv_timeout hread)
  exact run_trans (run_one (h.step_full hwrite)) (run_one hrecv)

/-- An attempt in which bytes come in is three steps, SEND, RECV and CHECK. -/
theorem Sending.run_bytes {request bytes : List Byte} {s : State} {b b' : ByteSource} (h : Sending request s)
    (hwrite : ByteSource.write request s.env.bs = some (.count request.length, b))
    (hread : rxAttempt s.cfg.rxBufSize s.cfg.pollLimit b = some (.bytes bytes, b')) :
    ∃ m, run 3 s = .next ((s.withBs b').withEng (settleTransaction s.cfg
      (decodeFrame s.cfg.rescan bytes (some s.eng.cmdAddr)) (s.eng.sent.received m bytes.length))) := by
  obtain ⟨m, hrecv, hload⟩ := step_received (s := (s.withBs b).withEng s.eng.sent) h.inputs rfl hread
  refine ⟨m, run_trans (run_trans (run_one (h.step_full hwrite)) (run_one hrecv))
    (run_one ((step_check ?inputs ?phase).trans (stepCheck_transaction ?load ?transaction)))⟩
  case inputs => exact h.inputs
  case phase => rfl
  case load => exact hload
  case transaction => exact h.transaction

/-- The code that CHECK leaves is the one that `Transact` answers, as the operation reports it (43_facade.md R166). -/
theorem finalCode_answered (op : OpCode) (p : Packet) (k : Nat) :
    finalCode op ⟨if p.cf then .commandFailed else .ok, k, some p⟩ =
      if p.ptype.getLsbD 0 = true then .commandFailed
      else if op = .getFwVersion ∧ p.data.length < 4 then .malformedResponse else .ok := by
  have hcf : p.cf = p.ptype.getLsbD 0 := rfl
  rw [hcf]
  cases p.ptype.getLsbD 0 with
  | true => rfl
  | false => simp [finalCode]

/-- The transaction that `s` is in has ended in `t` with this result, the Byte Source being left as `b`
(41_transaction.md R132). -/
def EndsWith (s : State) (r : TransactResult) (b : ByteSource) (t : State) : Prop :=
  t.eng.phase = .idle ∧ t.eng.status = finalCode s.eng.cmdOp r ∧ t.eng.attempts = r.attempts ∧
    t.eng.pkt = r.response ∧ t.eng.cmdAddr = s.eng.cmdAddr ∧ t.env.bs = b

/-- ENGINE ends a final attempt as `Transact` does, within three steps. -/
theorem Sending.run_final {request : List Byte} {s : State} {b : ByteSource} {code : ResultCode}
    {response : Option Packet} (h : Sending request s) (hpkt : s.eng.pkt = none)
    (hattempt : Attempt s.cfg s.eng.cmdAddr request s.env.bs (.final code response) b) :
    ∃ n t, n ≤ 3 ∧ run n s = .next t ∧ EndsWith s ⟨code, s.eng.attempts + 1, response⟩ b t := by
  cases hattempt with
  | notSent hwrite hshort =>
    have hstep := step_send_answered h.inputs h.phase h.loaded hwrite
    rw [settleSend_short _ hshort] at hstep
    exact ⟨1, _, by omega, run_one hstep, rfl, rfl, rfl, hpkt, rfl, rfl⟩
  | @notRead b₁ _ hwrite hread =>
    have hrecv := (step_recv (s := (s.withBs b₁).withEng s.eng.sent) h.inputs rfl).trans (stepRecv_ioError hread)
    exact ⟨2, _, by omega, run_trans (run_one (h.step_full hwrite)) (run_one hrecv), rfl, rfl, rfl, hpkt, rfl, rfl⟩
  | answered hwrite hread hdecode =>
    obtain ⟨m, hrun⟩ := h.run_bytes hwrite hread
    rw [hdecode, settleTransaction_ok] at hrun
    exact ⟨3, _, Nat.le_refl 3, hrun, rfl, (finalCode_answered _ _ _).symm, rfl, rfl, rfl, rfl⟩

/-- ENGINE ends a failed attempt with `fail_attempt`, within three steps; the receive buffer is the attempt's. -/
theorem Sending.run_failed {request : List Byte} {s : State} {b : ByteSource} {code : ResultCode}
    (h : Sending request s) (hattempt : Attempt s.cfg s.eng.cmdAddr request s.env.bs (.failed code) b) :
    ∃ n m len phase, n ≤ 3 ∧ run n s = .next ((s.withBs b).withEng
      (failAttempt s.cfg code { s.eng.sent with rxBuf := m, rxLen := len, phase := phase })) := by
  cases hattempt with
  | silent hwrite hread => exact ⟨2, _, _, _, by omega, h.run_timeout hwrite hread⟩
  | garbled hwrite hread hdecode =>
    obtain ⟨m, hrun⟩ := h.run_bytes hwrite hread
    rw [hdecode] at hrun
    exact ⟨3, _, _, _, Nat.le_refl 3, hrun⟩

/-! ## The whole transaction -/

/-- From SEND with `left + 1` attempts left ENGINE runs to what `Transact` answers: a final attempt ends it
(`Sending.run_final`), a failed one is the last or leads to SEND with one attempt fewer (`Sending.run_failed`). -/
theorem Sending.run_transactFrom {request : List Byte} {left : Nat} {s : State} {r : TransactResult} {b : ByteSource}
    (h : Sending request s) (hpkt : s.eng.pkt = none) (hleft : s.eng.attempts + (left + 1) = s.cfg.maxAttempts)
    (htransact : transactFrom s.cfg s.eng.cmdAddr request (left + 1) s.eng.attempts s.env.bs = some (r, b)) :
    ∃ n t, n ≤ 3 * (left + 1) ∧ run n s = .next t ∧ EndsWith s r b t := by
  have hop := OpCode.ne_recv_of_isTransaction h.transaction
  rcases transactFrom_succ_cases htransact with ⟨code, response, hattempt, rfl⟩ | ⟨code, b₁, hattempt, hrest⟩
  · obtain ⟨n, t, hn, hrun, hends⟩ := h.run_final hpkt hattempt
    exact ⟨n, t, by omega, hrun, hends⟩
  · obtain ⟨n, m, len, phase, hn, hrun⟩ := h.run_failed hattempt
    cases left with
    | zero =>
      obtain ⟨rfl, rfl⟩ := Prod.mk.inj (Option.some.inj hrest)
      rw [failAttempt_last _ (by exact hop) (by exact hleft)] at hrun
      exact ⟨n, _, by omega, hrun, rfl, rfl, rfl, hpkt, rfl, rfl⟩
    | succ left =>
      have hagain : s.eng.attempts + 1 ≠ s.cfg.maxAttempts := by omega
      rw [failAttempt_again _ (by exact hop) (by exact hagain)] at hrun
      obtain ⟨n', t, hn', hrun', hends⟩ :=
        Sending.run_transactFrom (s := (s.withBs b₁).withEng
            { s.eng.sent with rxBuf := m, rxLen := len, lastErr := code, phase := .send })
          ⟨h.inputs, rfl, h.transaction, h.loaded⟩ hpkt (by simp [Engine.sent]; omega) hrest
      exact ⟨n + n', t, by omega, run_trans hrun hrun', hends⟩
termination_by left

/-- Settles O47: `Sending.run_transactFrom` from the first attempt, there being at least one. -/
theorem transactionComputesTransact : Obligations.TransactionComputesTransact := by
  rintro s r b ⟨hmax, -⟩ hinputs hphase htrans hattempts hpkt hload htransact
  obtain ⟨left, hleft⟩ := Nat.exists_eq_add_of_le' hmax
  rw [transact, hleft, ← hattempts] at htransact
  rw [hleft]
  exact Sending.run_transactFrom ⟨hinputs, hphase, htrans, hload⟩ hpkt (by omega) htransact

/-! ## A silent sensor -/

/-- The Byte Source is silent for exactly so many attempts: every write takes the request, and every poll hands over
nothing (41_transaction.md R133). -/
def Silent (c : Config) (request : List Byte) (left : Nat) (b : ByteSource) : Prop :=
  ∃ writes reads : List Nat, b.writeAnswers = writes.map .upTo ∧ writes.length = left ∧
    (∀ k ∈ writes, request.length ≤ k) ∧ b.readAnswers = reads.map .upTo ∧ reads.length = left * c.pollLimit ∧
    (b.inbound = [] ∨ ∀ k ∈ reads, k = 0)

theorem Silent.no_answers {c : Config} {request : List Byte} {b : ByteSource} (h : Silent c request 0 b) :
    b.writeAnswers = [] ∧ b.readAnswers = [] := by
  obtain ⟨writes, reads, hwrites, hcount, -, hreads, hpolls, -⟩ := h
  obtain rfl := List.length_eq_zero_iff.1 hcount
  obtain rfl := List.length_eq_zero_iff.1 (hpolls.trans (Nat.zero_mul _))
  exact ⟨hwrites, hreads⟩

/-- Polls that hand over nothing run out: a Timeout that takes their answers and no byte (20_memory.md R46). -/
theorem rxAttempt_empty_polls {max : Nat} {reads : List Nat} {later : List ReadAnswer} {b : ByteSource}
    (hanswers : b.readAnswers = reads.map .upTo ++ later) (hempty : b.inbound = [] ∨ ∀ k ∈ reads, k = 0) :
    rxAttempt max reads.length b = some (.timeout, { b with readAnswers := later }) := by
  induction reads generalizing b with
  | nil =>
    obtain rfl : b.readAnswers = later := hanswers
    rfl
  | cons k reads ih =>
    have hnone : min k max = 0 ∨ b.inbound = [] := by
      rcases hempty with hnil | hzero
      · exact .inr hnil
      · exact .inl (by simp [hzero k])
    rw [List.length_cons, rxAttempt_empty _ (ByteSource.read_empty hanswers hnone)]
    exact ih rfl (hempty.imp_right fun hzero j hj => hzero j (List.mem_cons_of_mem k hj))

/-- One attempt against a silent Byte Source: the request goes out, no byte comes in, and one attempt fewer is left. -/
theorem Silent.attempt {c : Config} {request : List Byte} {left : Nat} {b : ByteSource}
    (h : Silent c request (left + 1) b) :
    ∃ b₁ b₂, ByteSource.write request b = some (.count request.length, b₁) ∧
      rxAttempt c.rxBufSize c.pollLimit b₁ = some (.timeout, b₂) ∧ Silent c request left b₂ ∧
      b₂.inbound = b.inbound ∧ b₂.outbound = b.outbound ++ request := by
  obtain ⟨writes, reads, hwrites, hcount, htaken, hreads, hpolls, hempty⟩ := h
  obtain ⟨k, writes, rfl⟩ := List.exists_cons_of_length_eq_add_one hcount
  have hk : request.length ≤ k := htaken k List.mem_cons_self
  have hwrite := ByteSource.write_upTo request hwrites
  rw [Nat.min_eq_right hk, List.take_of_length_le hk] at hwrite
  have hfirst : (reads.take c.pollLimit).length = c.pollLimit :=
    List.length_take_of_le (by rw [hpolls]; exact Nat.le_mul_of_pos_left _ (Nat.succ_pos left))
  have hread := rxAttempt_empty_polls (max := c.rxBufSize) (reads := reads.take c.pollLimit)
    (b := { b with writeAnswers := writes.map .upTo, outbound := b.outbound ++ request })
    (later := (reads.drop c.pollLimit).map .upTo)
    (by rw [← List.map_append, List.take_append_drop]; exact hreads)
    (hempty.imp_right fun hzero j hj => hzero j (List.mem_of_mem_take hj))
  rw [hfirst] at hread
  refine ⟨_, _, hwrite, hread, ⟨writes, reads.drop c.pollLimit, rfl, by simpa using hcount,
    fun j hj => htaken j (List.mem_cons_of_mem k hj), rfl, ?_,
    hempty.imp_right fun hzero j hj => hzero j (List.mem_of_mem_drop hj)⟩, rfl, rfl⟩
  rw [List.length_drop, hpolls, Nat.succ_mul, Nat.add_sub_cancel]

/-- What a silent transaction leaves after so many attempts (41_transaction.md R133). -/
def afterSilence (request : List Byte) (count : Nat) (s : State) : State :=
  { s with
    eng := { s.eng with
      attempts := s.eng.attempts + count, rxLen := 0, lastErr := .timeout, status := .noResponse, phase := .idle }
    env := { s.env with bs := {
      inbound := s.env.bs.inbound
      outbound := s.env.bs.outbound ++ (List.replicate count request).flatten
      writeAnswers := []
      readAnswers := [] } } }

/-- ENGINE after one silent attempt. -/
theorem afterSilence_one {request : List Byte} {s : State} {b : ByteSource}
    (hanswers : b.writeAnswers = [] ∧ b.readAnswers = []) (hinbound : b.inbound = s.env.bs.inbound)
    (houtbound : b.outbound = s.env.bs.outbound ++ request) :
    (s.withBs b).withEng
        { s.eng.sent with rxLen := 0, lastErr := .timeout, status := .noResponse, phase := .idle } =
      afterSilence request 1 s := by
  obtain ⟨inbound, outbound, writeAnswers, readAnswers⟩ := b
  obtain ⟨rfl, rfl⟩ : writeAnswers = [] ∧ readAnswers = [] := hanswers
  obtain rfl : inbound = s.env.bs.inbound := hinbound
  obtain rfl : outbound = s.env.bs.outbound ++ request := houtbound
  simp [afterSilence, Engine.sent, State.withBs, State.withEng]

/-- One silent attempt before the others. -/
theorem afterSilence_succ {request : List Byte} {count : Nat} {s : State} {b : ByteSource}
    (hinbound : b.inbound = s.env.bs.inbound) (houtbound : b.outbound = s.env.bs.outbound ++ request) :
    afterSilence request count ((s.withBs b).withEng
        { s.eng.sent with rxLen := 0, lastErr := .timeout, phase := .send }) =
      afterSilence request (count + 1) s := by
  simp [afterSilence, Engine.sent, State.withBs, State.withEng, hinbound, houtbound, List.replicate_succ,
    Nat.add_assoc, Nat.add_comm 1]

/-- Against a silent Byte Source every attempt is two steps, a SEND and a Timeout, and the last one ends the transaction
with NO_RESPONSE. -/
theorem Sending.run_silent {request : List Byte} {left : Nat} {s : State} (h : Sending request s)
    (hleft : s.eng.attempts + (left + 1) = s.cfg.maxAttempts) (hsilent : Silent s.cfg request (left + 1) s.env.bs) :
    run (2 * (left + 1)) s = .next (afterSilence request (left + 1) s) := by
  have hop := OpCode.ne_recv_of_isTransaction h.transaction
  obtain ⟨b₁, b₂, hwrite, hread, hsilent', hinbound, houtbound⟩ := hsilent.attempt
  have hrun := h.run_timeout hwrite hread
  cases left with
  | zero =>
    rw [failAttempt_last _ (by exact hop) (by exact hleft)] at hrun
    exact hrun.trans (congrArg _ (afterSilence_one hsilent'.no_answers hinbound houtbound))
  | succ left =>
    have hagain : s.eng.attempts + 1 ≠ s.cfg.maxAttempts := by omega
    rw [failAttempt_again _ (by exact hop) (by exact hagain)] at hrun
    have hrest := Sending.run_silent (request := request) (left := left) (s := (s.withBs b₂).withEng
        { s.eng.sent with rxLen := 0, lastErr := .timeout, phase := .send })
      ⟨h.inputs, rfl, h.transaction, h.loaded⟩ (by simp [Engine.sent]; omega) hsilent'
    rw [afterSilence_succ hinbound houtbound] at hrest
    rw [show 2 * (left + 1 + 1) = 2 + 2 * (left + 1) by omega]
    exact run_trans hrun hrest
termination_by left

/-- Settles O48: `Sending.run_silent` from the first attempt, there being at least one. -/
theorem silentSensorGivesExactlyMaxAttempts : Obligations.SilentSensorGivesExactlyMaxAttempts := by
  rintro s request writes reads ⟨hmax, -⟩ hinputs hphase htrans hattempts hload hwrites hcount htaken hreads hpolls
    hempty
  obtain ⟨left, hleft⟩ := Nat.exists_eq_add_of_le' hmax
  have hsilent : Silent s.cfg request (left + 1) s.env.bs :=
    hleft ▸ ⟨writes, reads, hwrites, hcount, htaken, hreads, hpolls, hempty⟩
  have hrun := Sending.run_silent ⟨hinputs, hphase, htrans, hload⟩ (by omega) hsilent
  rw [← hleft, afterSilence, hattempts, Nat.zero_add] at hrun
  exact hrun

end Sys2Proof.Machine
end

section
/-! SUPPORT. O21, O22, O23, O35, O57: the heartbeat fields in terms of the health word's bits and bytes, and which steps
change the heartbeat register. -/

namespace Sys2Proof

/-! ## The health word of four bytes -/

/-- The number that two words side by side are. -/
theorem append_toNat {m n : Nat} (x : BitVec m) (y : BitVec n) : (x ++ y).toNat = 2 ^ n * x.toNat + y.toNat := by
  rw [BitVec.toNat_append, ← Nat.shiftLeft_add_eq_or_of_lt y.isLt, Nat.shiftLeft_eq, Nat.mul_comm]

/-- `BE32` as a number, the first byte the most significant (00_scope.md R8). -/
theorem be32_toNat (d : Bytes4) :
    (be32 d).toNat = 2 ^ 24 * d.b0.toNat + 2 ^ 16 * d.b1.toNat + 2 ^ 8 * d.b2.toNat + d.b3.toNat := by
  rw [be32, append_toNat, append_toNat, append_toNat]
  omega

theorem getLsbD_be32_b3 (d : Bytes4) {i : Nat} (h : i < 8) : (be32 d).getLsbD i = d.b3.getLsbD i := by
  rw [be32, BitVec.getLsbD_append, if_pos (by omega), BitVec.getLsbD_append, if_pos h]

theorem getLsbD_be32_b2 (d : Bytes4) {i : Nat} (h : i < 8) : (be32 d).getLsbD (8 + i) = d.b2.getLsbD i := by
  rw [be32, BitVec.getLsbD_append, if_pos (by omega), BitVec.getLsbD_append, if_neg (by omega), Nat.add_sub_cancel_left]

theorem getLsbD_be32_b0 (d : Bytes4) {i : Nat} (h : i < 8) : (be32 d).getLsbD (24 + i) = d.b0.getLsbD i := by
  rw [be32, BitVec.getLsbD_append, if_neg (by omega), BitVec.getLsbD_append, if_neg (by omega)]
  congr 1
  omega

namespace Machine

/-! ## The two satellite counts -/

/-- The six bits of a word from bit `k` on as a byte: each count of R152 (42_heartbeat.md) is one. -/
def sixBits (w : Word32) (k : Nat) : Byte := (w.extractLsb' k 6).setWidth 8

theorem satellitesInView_eq (c : Config) (w : Word32) : (heartbeatView c w).satellitesInView = sixBits w 10 := rfl

theorem satellitesUsed_eq (c : Config) (w : Word32) : (heartbeatView c w).satellitesUsed = sixBits w 26 := rfl

theorem getLsbD_sixBits (w : Word32) (k i : Nat) :
    (sixBits w k).getLsbD i = (decide (i < 6) && w.getLsbD (k + i)) := by
  rw [sixBits, BitVec.getLsbD_setWidth, BitVec.getLsbD_extractLsb']
  by_cases hi : i < 6
  · simp [hi, Nat.lt_trans hi (by decide : 6 < 8)]
  · simp [hi]

theorem sixBits_congr {w w' : Word32} {k : Nat} (h : ∀ i < 6, w.getLsbD (k + i) = w'.getLsbD (k + i)) :
    sixBits w k = sixBits w' k := by
  refine BitVec.eq_of_getLsbD_eq fun i _ => ?_
  rw [getLsbD_sixBits, getLsbD_sixBits]
  by_cases hi : i < 6
  · rw [h i hi]
  · simp [hi]

/-- Six bits that are the upper six of a byte are the byte shifted right by two. -/
theorem sixBits_eq_shift {w : Word32} {k : Nat} {b : Byte} (h : ∀ i < 6, w.getLsbD (k + i) = b.getLsbD (2 + i)) :
    sixBits w k = b >>> 2 := by
  refine BitVec.eq_of_getLsbD_eq fun i _ => ?_
  rw [getLsbD_sixBits, BitVec.getLsbD_ushiftRight]
  by_cases hi : i < 6
  · simp [hi, h i hi]
  · simp only [hi, decide_false, Bool.false_and]
    exact (BitVec.getLsbD_of_ge b (2 + i) (by omega)).symm

/-- The low `k` bits of a number, summed as powers of two (42_heartbeat.md R153). -/
theorem mod_two_pow_eq_sum (n k : Nat) :
    n % 2 ^ k = ((List.range k).map (fun i => if n.testBit i then 2 ^ i else 0)).sum := by
  induction k with
  | zero => exact Nat.mod_one n
  | succ k ih =>
    have htop : 2 ^ k * (n / 2 ^ k % 2) = if n.testBit k then 2 ^ k else 0 := by
      rw [← Nat.toNat_testBit]
      cases n.testBit k <;> simp
    rw [Nat.mod_pow_succ, ih, htop, List.range_succ, List.map_append, List.sum_append]
    rfl

theorem sixBits_toNat (w : Word32) (k : Nat) : (sixBits w k).toNat = (w.toNat >>> k) % 2 ^ 6 := by
  rw [sixBits, BitVec.toNat_setWidth, BitVec.extractLsb'_toNat]
  omega

theorem sixBits_toNat_eq_sum (w : Word32) (k : Nat) :
    (sixBits w k).toNat = ((List.range 6).map (fun i => if w.getLsbD (k + i) then 2 ^ i else 0)).sum := by
  rw [sixBits_toNat, mod_two_pow_eq_sum]
  simp only [Nat.testBit_shiftRight, BitVec.testBit_toNat]

theorem sixBits_toNat_le (w : Word32) (k : Nat) : (sixBits w k).toNat ≤ 63 := by
  rw [sixBits_toNat]
  omega

/-- Settles O22: both counts are six bits of the word as a number. -/
theorem satelliteCountsAreBinaryNumbers : Obligations.SatelliteCountsAreBinaryNumbers := by
  intro c w
  rw [satellitesInView_eq, satellitesUsed_eq]
  exact ⟨sixBits_toNat_eq_sum w 10, sixBits_toNat_eq_sum w 26, sixBits_toNat_le w 10, sixBits_toNat_le w 26⟩

/-! ## The view -/

/-- Settles O21: each flag is a bit of byte 3 or of byte 2, and each count the upper six bits of a byte. -/
theorem heartbeatInByteTerms : Obligations.HeartbeatInByteTerms := by
  intro d
  rw [decodeHealthWord, heartbeatView, Heartbeat.mk.injEq]
  refine ⟨?_, ?_, ?_, ?_, ?_, ?_, ?overflow, ?inView, ?used⟩
  case overflow => exact getLsbD_be32_b2 d (i := 0) (by decide)
  case inView =>
    refine sixBits_eq_shift (k := 10) fun i hi => ?_
    rw [← getLsbD_be32_b2 d (by omega), ← Nat.add_assoc]
  case used =>
    refine sixBits_eq_shift (k := 26) fun i hi => ?_
    rw [← getLsbD_be32_b0 d (by omega), ← Nat.add_assoc]
  all_goals exact getLsbD_be32_b3 d (by decide)

/-- Settles O23: a flag is one of the named bits, and a count is six of them (`sixBits_congr`). -/
theorem unnamedHealthBitsAreIgnored : Obligations.UnnamedHealthBitsAreIgnored := by
  intro c w w' hflags hcounts
  rw [heartbeatView, heartbeatView, Heartbeat.mk.injEq]
  refine ⟨?_, ?_, ?_, ?_, ?_, ?_, ?_, ?inView, ?used⟩
  case inView => exact sixBits_congr fun i hi => (hcounts i hi).1
  case used => exact sixBits_congr fun i hi => (hcounts i hi).2
  all_goals exact hflags _ (by simp [Config.hbBits])

/-! ## DECODE_HEALTH -/

/-- DECODE_HEALTH issued to an idle ENGINE (42_heartbeat.md R156). -/
theorem exec_decodeHealth_idle {s : State} (d : Bytes4) (hidle : s.eng.phase = .idle) :
    exec (.decodeHealth d) s =
      .next (afterAccept s { s.eng with cmdOp := .decodeHealth, hb := some (be32 d), status := .ok }) :=
  (issue_idle hidle).trans (congrArg (fun e => Host.Outcome.next (afterAccept s e))
    (complete_idle .ok (e := { s.eng with cmdOp := .decodeHealth, hb := some (be32 d) }) hidle))

/-- Settles O35: the word is `BE32` of the four bytes. -/
theorem decodeHealthWritesTheWord : Obligations.DecodeHealthWritesTheWord :=
  fun _ d hidle => ⟨be32 d, be32_toNat d, exec_decodeHealth_idle d hidle⟩

/-! ## The heartbeat register -/

/-- A packet is committed, it is a health packet, and the heartbeat register holds its word (42_heartbeat.md R155). -/
def HealthStored (c : Config) (p : Packet) (e : Engine) : Prop :=
  e.pkt = some p ∧ p.address = c.addrHealth ∧ 4 ≤ p.data.length ∧ p.ptype.getLsbD 0 = false ∧
    e.hb = some (be32 ⟨p.data.getD 0 0, p.data.getD 1 0, p.data.getD 2 0, p.data.getD 3 0⟩)

/-- A commit leaves the heartbeat register unless the packet is a health packet. -/
theorem hb_of_commit {c : Config} {p : Packet} {old : Option Word32} {e : Engine} (hpkt : e.pkt = some p)
    (hhb : e.hb = hbAfter c p old) : e.hb = old ∨ HealthStored c p e := by
  unfold hbAfter at hhb
  split at hhb
  next hhealth =>
    obtain ⟨haddress, hlength, hcf⟩ := hhealth
    exact .inr ⟨hpkt, haddress, hlength, hcf, hhb⟩
  next => exact .inl hhb

theorem settleDecode_hb (c : Config) (r : Except DecodeError Packet) (e : Engine) :
    (settleDecode c r e).hb = e.hb ∨ ∃ p, r = .ok p ∧ HealthStored c p (settleDecode c r e) := by
  cases r with
  | error err => exact .inl rfl
  | ok p =>
    rw [settleDecode, commitPacket_eq]
    exact (hb_of_commit (by rfl) rfl).imp_right fun h => ⟨p, rfl, h⟩

theorem failAttempt_hb (c : Config) (code : ResultCode) (e : Engine) : (failAttempt c code e).hb = e.hb := by
  rcases failAttempt_spec c code e with ⟨-, heq⟩ | ⟨-, -, heq⟩ | ⟨-, -, heq⟩ <;> rw [heq]

theorem settleRecv_hb (c : Config) (r : Except DecodeError Packet) (e : Engine) :
    (settleRecv c r e).hb = e.hb ∨
      ∃ p, r = .ok p ∧ (settleRecv c r e).phase = .idle ∧ HealthStored c p (settleRecv c r e) := by
  cases r with
  | error err => exact .inl (failAttempt_hb c err.code e)
  | ok p =>
    rw [settleRecv_ok]
    exact (hb_of_commit (by rfl) rfl).imp_right fun h => ⟨p, rfl, rfl, h⟩

theorem settleTransaction_hb (c : Config) (r : Except DecodeError Packet) (e : Engine) :
    (settleTransaction c r e).hb = e.hb ∨
      ∃ p, r = .ok p ∧ (settleTransaction c r e).phase = .idle ∧ HealthStored c p (settleTransaction c r e) := by
  cases r with
  | error err => exact .inl (failAttempt_hb c err.code e)
  | ok p =>
    rw [settleTransaction_ok]
    exact (hb_of_commit (by rfl) rfl).imp_right fun h => ⟨p, rfl, rfl, h⟩

/-- CHECK stores the word of a health packet that it decodes from RX_BUF (41_transaction.md R127, R142). -/
def CheckStores (c : Config) (e : Engine) (p : Packet) (e' : Engine) : Prop :=
  HealthStored c p e' ∧ e.phase = .check ∧ e'.phase = .idle ∧ ∃ buf, loadRx c e = some buf ∧
    decodeFrame c.rescan buf (if e.cmdOp = .recv then none else some e.cmdAddr) = .ok p

/-- Of ENGINE's stages only CHECK changes the heartbeat register. -/
theorem StageStep.hb {c : Config} {e e' : Engine} (h : StageStep c e e') :
    e'.hb = e.hb ∨ ∃ p, CheckStores c e p e' := by
  cases h with
  | wait => exact .inl rfl
  | send hphase r =>
    unfold settleSend
    split <;> exact .inl rfl
  | recvIoError hphase => exact .inl rfl
  | recvTimeout hphase => exact .inl (failAttempt_hb c .timeout { e with rxLen := 0 })
  | received hphase hsome hstore => exact .inl rfl
  | checkRecv hphase hload hop =>
    refine (settleRecv_hb c _ e).imp_right ?_
    rintro ⟨p, hdecode, hidle, hstored⟩
    exact ⟨p, hstored, hphase, hidle, _, hload, by rwa [if_pos hop]⟩
  | checkTransaction hphase hload hop htrans =>
    refine (settleTransaction_hb c _ e).imp_right ?_
    rintro ⟨p, hdecode, hidle, hstored⟩
    exact ⟨p, hstored, hphase, hidle, _, hload, by rwa [if_neg hop]⟩

/-- Of the operations accepted only DECODE and DECODE_HEALTH change the heartbeat register. -/
theorem Accepted.hb {c : Config} {e e' : Engine} (h : Accepted c e e') (hdecode : e.cmdOp ≠ .decode)
    (hhealth : e.cmdOp ≠ .decodeHealth) : e'.hb = e.hb := by
  cases h with
  | decode hop hstore => exact absurd hop hdecode
  | decodeHealth hop => exact absurd hop hhealth
  | illegal | encode | transaction | recv => rfl

/-- An instruction that issues another operation than DECODE and DECODE_HEALTH leaves the heartbeat register. -/
theorem exec_hb_of_issue {i : Instr} {op : OpCode} {first : State → Result} {s t : State} (h : exec i s = .next t)
    (hissue : exec i s = issue op first s) (hfirst : FirstStepAccepts op first s)
    (hop : op ≠ .decode ∧ op ≠ .decodeHealth) : t.eng.hb = s.eng.hb := by
  obtain ⟨e, hnext, haccepted⟩ := hfirst
  obtain ⟨hdecode, hhealth⟩ := hop
  rcases issue_spec (hissue.symm.trans h) with ⟨-, rfl⟩ | ⟨-, hrun⟩
  · rfl
  · obtain rfl := Host.Outcome.next.inj (hnext.symm.trans hrun)
    exact haccepted.hb hdecode hhealth

/-- DECODE, accepted, changes the heartbeat register only by committing the packet decoded from its operand
(40_codec.md R101). -/
theorem exec_decode_hb {buf : List Byte} {expect : Option Byte} {s t : State}
    (h : exec (.decode buf expect) s = .next t) :
    t.eng.hb = s.eng.hb ∨ s.eng.phase = .idle ∧
      ∃ p, decodeFrame s.cfg.rescan buf expect = .ok p ∧ HealthStored s.cfg p t.eng := by
  rcases issue_spec (op := .decode) (first := decodeStep buf expect) h with ⟨-, rfl⟩ | ⟨hidle, hrun⟩
  · exact .inl rfl
  · rcases decodeStep_next buf expect (latchOp .decode s) with ⟨-, hnext⟩ | ⟨-, m, -, hnext⟩
    · obtain rfl := Host.Outcome.next.inj (hnext.symm.trans hrun)
      exact .inl rfl
    · obtain rfl := Host.Outcome.next.inj (hnext.symm.trans hrun)
      exact (settleDecode_hb _ _ _).imp_right (⟨hidle, ·⟩)

/-- An instruction changes the heartbeat register only as an accepted DECODE_HEALTH or as a DECODE that commits a health
packet. -/
theorem exec_hb {i : Instr} {s t : State} (h : exec i s = .next t) :
    t.eng.hb = s.eng.hb ∨
    (∃ d, i = .decodeHealth d ∧ s.eng.phase = .idle ∧ t.eng.hb = some (be32 d)) ∨
    ∃ buf expect, i = .decode buf expect ∧ s.eng.phase = .idle ∧
      ∃ p, decodeFrame s.cfg.rescan buf expect = .ok p ∧ HealthStored s.cfg p t.eng := by
  cases i with
  | frameNodata | frameSingle | frameBatch =>
    obtain rfl := Host.Outcome.next.inj h
    exact .inl rfl
  | decode buf expect => exact (exec_decode_hb h).imp_right fun hstored => .inr ⟨buf, expect, rfl, hstored⟩
  | decodeHealth d =>
    rcases issue_spec (op := .decodeHealth) (first := decodeHealthStep d) h with ⟨-, rfl⟩ | ⟨hidle, hrun⟩
    · exact .inl rfl
    · obtain rfl := Host.Outcome.next.inj hrun
      exact .inr (.inl ⟨d, rfl, hidle, rfl⟩)
  | encode pt addr data => exact .inl (exec_hb_of_issue h rfl (encodeStep_accepts pt addr data s) (by decide))
  | recv => exact .inl (exec_hb_of_issue h rfl ⟨_, rfl, .recv rfl⟩ (by decide))
  | reserved0 | reserved7 | reservedF =>
    exact .inl (exec_hb_of_issue h rfl (completeIllegal_accepts rfl s) (by decide))
  | writeRegister | readRegister | readConfig | pollHealth | getFwVersion | factoryReset | zeroGyros
  | setHomePosition | setMagReference | resetEkf | flashCommit =>
    exact .inl (exec_hb_of_issue h rfl (acceptTransaction_accepts rfl _ _ _ s) (by decide))

/-! ## Steps -/

theorem engineStep_stage {s t : State} {l : List Input} (h : engineStep (s.withInputs l) = .next t) :
    StageStep s.cfg s.eng t.eng := by
  obtain ⟨b, e, rfl, -, hstage⟩ := engineStep_stepped h
  exact hstage

/-- Where a step's next state comes from: a reset, bytes that came in, an issued operation, or ENGINE's own step. -/
theorem step_origin {s t : State} (h : step s = .next t) :
    s.env.inputs.head? = some .assertReset ∨
    t.eng = s.eng ∨
    (∃ now bytes later i, s.env.inputs.head? = some (.issue now bytes) ∧ decode .host bytes = .ok i ∧
      exec i (s.withInputs later) = .next t) ∨
    StageStep s.cfg s.eng t.eng := by
  cases hinputs : s.env.inputs with
  | nil =>
    rw [step_noInputs hinputs, ← State.withInputs_self hinputs] at h
    exact .inr (.inr (.inr (engineStep_stage h)))
  | cons input later =>
    cases input with
    | turn => exact .inr (.inr (.inr (engineStep_stage ((step_turn hinputs).symm.trans h))))
    | assertReset => exact .inl rfl
    | arrive bytes =>
      obtain rfl := Host.Outcome.next.inj ((step_arrive hinputs).symm.trans h)
      exact .inr (.inl rfl)
    | issue now bytes =>
      by_cases hready : now = true ∨ s.eng.phase = .idle
      · cases hdecode : decode .host bytes with
        | ok i =>
          rw [step_operation hinputs hready hdecode] at h
          exact .inr (.inr (.inl ⟨now, bytes, later, i, rfl, hdecode, h⟩))
        | error why => exact absurd ((step_noOperation hinputs hready hdecode).symm.trans h) (by simp)
      · obtain ⟨hnow, hbusy⟩ := not_or.1 hready
        obtain rfl := Bool.eq_false_of_not_eq_true hnow
        rw [step_waiting hinputs hbusy, ← State.withInputs_self hinputs] at h
        exact .inr (.inr (.inr (engineStep_stage h)))

/-- Settles O57: an issued operation changes the register as `exec_hb` says, ENGINE's own step as `StageStep.hb` says,
and what comes in on the line does not. -/
theorem heartbeatPersists : Obligations.HeartbeatPersists := by
  intro s t h
  rcases step_origin h with hreset | hkept | ⟨now, bytes, later, i, hhead, hinstr, hexec⟩ | hstage
  · exact .inr (.inl hreset)
  · exact .inl (congrArg Engine.hb hkept)
  · rcases exec_hb hexec with hkept | ⟨d, rfl, hidle, hhb⟩ | ⟨buf, expect, rfl, hidle, p, hdecode, hstored⟩
    · exact .inl hkept
    · exact .inr (.inr (.inl ⟨now, bytes, d, hhead, hinstr, hidle, hhb⟩))
    · obtain ⟨hpkt, haddress, hlength, hcf, hhb⟩ := hstored
      exact .inr (.inr (.inr ⟨p, hpkt, haddress, hlength, hcf, hhb,
        .inr ⟨now, bytes, buf, expect, hhead, hinstr, hidle, hdecode⟩⟩))
  · refine hstage.hb.imp_right fun hchecked => .inr (.inr ?_)
    obtain ⟨p, ⟨hpkt, haddress, hlength, hcf, hhb⟩, hphase, hidle, hdecoded⟩ := hchecked
    exact ⟨p, hpkt, haddress, hlength, hcf, hhb, .inl ⟨hphase, hidle, hdecoded⟩⟩

end Machine
end Sys2Proof
end

section
/-! SUPPORT. O39: the facade operations against WRITE_REGISTER. -/

namespace Sys2Proof.Machine

/-- Settles O39: each of the seven is its own code and a transaction without data at its parameter's address
(`issue_transaction_noData`). -/
theorem facadeIsWriteWithoutData : Obligations.FacadeIsWriteWithoutData := by
  intro s d hidle
  have hfacade := fun op addr => issue_transaction_noData op addr d Bytes4.zero hidle
  refine ⟨?getFwVersion, ?factoryReset, ?zeroGyros, ?setHomePosition, ?setMagReference, ?resetEkf, ?flashCommit⟩
  case getFwVersion => exact hfacade .getFwVersion s.cfg.addrGetFwVersion
  case factoryReset => exact hfacade .factoryReset s.cfg.addrFactoryReset
  case zeroGyros => exact hfacade .zeroGyros s.cfg.addrZeroGyros
  case setHomePosition => exact hfacade .setHomePosition s.cfg.addrSetHomePosition
  case setMagReference => exact hfacade .setMagReference s.cfg.addrSetMagReference
  case resetEkf => exact hfacade .resetEkf s.cfg.addrResetEkf
  case flashCommit => exact hfacade .flashCommit s.cfg.addrFlashCommit

end Sys2Proof.Machine
end

section
/-! SUPPORT. O24: reset from any state. -/

namespace Sys2Proof.Machine

/-- Reset does not touch what is outside ENGINE (70_reset_and_hazards.md R217). -/
theorem assertReset_env (s : State) : (assertReset s).env = s.env := rfl

/-- Settles O24: the step is the reset (`step_assertReset`), which keeps what is outside ENGINE's registers; each register
listed has the value that `Engine.reset` writes out, whatever the state was. -/
theorem resetAtAnyTime : Obligations.ResetAtAnyTime := by
  intro s later hinputs
  refine ⟨assertReset (s.withInputs later), step_assertReset hinputs, assertReset_cfg _, assertReset_env _, ?registers⟩
  case registers =>
    rw [assertReset_eng]
    exact ⟨rfl, rfl, rfl, rfl, rfl, rfl, rfl, rfl, rfl, rfl, rfl, rfl, rfl⟩

end Sys2Proof.Machine
end
